-- ==== Sys2Proof/Word.lean ====
section
/-! DEFINITION. The data of MF3: Pixels, Words, bytes of a channel, Rows and slots (00_scope.md R16). -/

namespace Sys2Proof

/-- R16: an unsigned 8-bit value. -/
abbrev Pixel := BitVec 8

/-- R43: the unit of a channel. A Pixel travels as one byte (R48). -/
abbrev Byte := BitVec 8

/-- R16: an unsigned 32-bit value, the unit of a port (R44). -/
abbrev Word := BitVec 32

/-- R16: one line of Pixels, index 0 the leftmost column. That it has W of them is a check, `Config.isRow`. -/
abbrev Row := List Pixel

/-- R16, R24, D9: 0, 1 or 2, "a type with exactly three values". -/
abbrev Slot := Fin 3

end Sys2Proof
end

