-- ==== Sys2Proof/Config.lean ====
section
/-! DEFINITION. The parameters of an instance of MF3 (00_scope.md R8, R11). A step never changes them (R14). -/

namespace Sys2Proof

/-- R11, C1: how many Rows a pass reads. -/
inductive Schedule where
  | literal
  | ratePreserving
deriving DecidableEq, Repr

/-- R8, R11, R14: what is fixed for the life of an instance. A depth is a number of Words, or `none` for
unbounded (R47). -/
structure Config where
  w                : Nat
  h                : Nat
  schedule         : Schedule
  resetRingPerPass : Bool
  depthA           : Option Nat
  depthB           : Option Nat
deriving DecidableEq, Repr

end Sys2Proof
end

