-- ==== Sys2Proof/Machine/Params.lean ====
section
/-! DEFINITION. What follows from the parameters: legality, Words per row, the last step, Row counts (R8 to R11, R62,
R131, R140). -/

namespace Sys2Proof

/-- R8, R11: the hardware instance, W = 640 and H = 480, with the default SCHEDULE and RESET_RING_PER_PASS. Its
channel depths are OPEN (R47, D16). DESIGN CHOICE (log 3): unbounded. -/
def Config.hardware : Config where
  w := 640
  h := 480
  schedule := .literal
  resetRingPerPass := false
  depthA := none
  depthB := none

/-- R10, D15: the parameters for which an instance of MF3 exists. -/
def Config.legal (cfg : Config) : Bool :=
  decide (cfg.w % 4 = 0) && decide (4 ≤ cfg.w) && decide (2 ≤ cfg.h)

/-- R9: WPR, the Words of a row. -/
def Config.wpr (cfg : Config) : Nat := cfg.w / 4

/-- R128, R140: J_LAST, the step of a pass that synthesises its Row and ends the pass. -/
def Config.jLast (cfg : Config) : Nat :=
  match cfg.schedule with
  | .literal => cfg.h - 1
  | .ratePreserving => cfg.h

/-- R131, R140: the Rows a pass takes from port A. Every step but the last takes one. -/
def Config.rowsIn (cfg : Config) : Nat := cfg.jLast

/-- R131, R140, R141: the Rows a pass sends to port B. -/
def Config.rowsOut (cfg : Config) : Nat :=
  match cfg.schedule with
  | .literal => cfg.jLast + 1
  | .ratePreserving => cfg.jLast

/-- R131, R140: the beats and internal actions of one pass. -/
def Config.passTurns (cfg : Config) : Nat := cfg.rowsIn * cfg.wpr + 1 + cfg.rowsOut * cfg.wpr

/-- R16: a Row of this instance has exactly W Pixels. -/
def Config.isRow (cfg : Config) (r : Row) : Bool := decide (r.length = cfg.w)

/-- R41: the columns of this instance. -/
def Config.isColumn (cfg : Config) (i : Nat) : Bool := decide (i < cfg.w)

/-- R16: ZERO_ROW. -/
def Config.zeroRow (cfg : Config) : Row := List.replicate cfg.w 0

end Sys2Proof
end

