-- ==== Sys2Proof/Syntax.lean ====
section
/-! DEFINITION. The fourteen operations of MF3, one constructor per row of spec/opcode_table.json (30_encoding.md R65). -/

namespace Sys2Proof

/-- R16: the offsets -1, 0 and +1 of the 3x3 window (R100). -/
inductive Offset where
  | minus
  | zero
  | plus
deriving DecidableEq, Repr

/-- R65: the operation map. -/
inductive Instr where
  /-- R80 PACK, four Pixels to one Word. -/
  | pack (p0 p1 p2 p3 : Pixel)
  /-- R81 UNPACK, one Word to four Pixels. -/
  | unpack (w : Word)
  /-- R90 RING.WRITE, one whole slot. -/
  | ringWrite (slot : Slot) (row : Row)
  /-- R91 RING.READ, one whole slot. -/
  | ringRead (slot : Slot)
  /-- R92 RESOLVESLOT, centre and vertical offset to slot. -/
  | resolveSlot (center : Slot) (k : Offset)
  /-- R101 SAMPLE, centre, vertical offset k, column i, horizontal offset l. -/
  | sample (center : Slot) (k : Offset) (i : Nat) (l : Offset)
  /-- R103 MED9, nine Pixels to one. -/
  | med9 (s0 s1 s2 s3 s4 s5 s6 s7 s8 : Pixel)
  /-- R105 FILTPIX, one filtered Pixel. -/
  | filtPix (center : Slot) (i : Nat)
  /-- R106 FILTROW, one filtered Row. -/
  | filtRow (center : Slot)
  /-- R125 RECVW, the beat on port A that takes Word `w`. -/
  | recvw (w : Word)
  /-- R127 ZEROROW, the synthesised Row. -/
  | zerorow
  /-- R128 EMITW, one beat on port B. -/
  | emitw
  /-- R129 ROWSTEP, one step seen whole, `x` its Row (R122). -/
  | rowstep (x : Row)
  /-- R131 PASS, one pass seen whole, `rows` the Rows it takes from port A. -/
  | pass (rows : List Row)
deriving DecidableEq, Repr

end Sys2Proof
end

