-- ==== Sys2Proof/Machine/State.lean ====
section
/-! DEFINITION. The state of MF3 (10_state.md R20), of its two channels (20_memory.md R43 to R47) and of the agents at their
far ends (44_environment.md), the outcomes of a step, and the reset state (R35, R193). -/

namespace Sys2Proof.Machine

/-- R21: "exactly 3 Rows, each W Pixels, indexed 0..2". -/
structure Ring where
  slot0 : Row
  slot1 : Row
  slot2 : Row
deriving DecidableEq, Repr

/-- R27: which half of a step MF3 is in. -/
inductive Phase where
  | load
  | emit
deriving DecidableEq, Repr

/-- What a building-block operation run on its own returns. The model's own (log 2), not state of MF3. -/
inductive Answer where
  | none
  | word (w : Word)
  | pixels (p0 p1 p2 p3 : Pixel)
  | row (r : Row)
  | slot (s : Slot)
  | pixel (p : Pixel)
deriving DecidableEq, Repr

/-- R173: the two errors of the host software; they have names only (D17). -/
inductive HostError where
  /-- R174: a failed host transfer or a zero-length read; ends the owning context. -/
  | transportError
  /-- R175: W not a multiple of 4, or a channel unavailable at startup. -/
  | configurationError
deriving DecidableEq, Repr

/-- Where a host context stands (R174, R175, R178, R194, R201). -/
inductive HostStatus where
  | notStarted
  | running
  | ended (e : HostError)
  | tornDown
deriving DecidableEq, Repr

/-- R158, R63: an image, three planes of Rows, each plane top row first. That each plane is H Rows of W Pixels is
`isFrame`, which stands with the Producer that sends it. -/
structure Frame where
  plane0 : List Row
  plane1 : List Row
  plane2 : List Row
deriving DecidableEq, Repr

/-- R154: the Producer. -/
structure Producer where
  status   : HostStatus
  /-- the Frames that nextFrame() will still deliver (R158) -/
  frames   : List Frame
  /-- the Rows of the current Frame still to send, plane-major then row-major -/
  rowsLeft : List Row
  /-- the bytes of the scratch buffer that channel A has not yet accepted (R151) -/
  outbox   : List Byte
deriving DecidableEq, Repr

/-- R155: the Consumer. -/
structure Consumer where
  status    : HostStatus
  /-- the bytes of the current Row received so far (R152) -/
  got       : List Byte
  /-- the Rows of the current Frame received so far -/
  rows      : List Row
  /-- the Frames delivered to the sink (R158), oldest first -/
  presented : List Frame
deriving DecidableEq, Repr

/-- R151, R152: how one write or read call of the host returns. -/
inductive CallResult where
  /-- bytes were moved, at most this many -/
  | moved (n : Nat)
  /-- "interrupted": retried, nothing moved -/
  | interrupted
  /-- any other failure -/
  | failed
deriving DecidableEq, Repr

/-- One move of one agent (R12). -/
inductive Move where
  /-- MF3 takes its turn (R130) -/
  | mf3
  /-- the Producer's write call on channel A returns (R151, R154) -/
  | producer (r : CallResult)
  /-- the Consumer's read call on channel B returns (R152, R155) -/
  | consumer (r : CallResult)
  /-- the reset source resets MF3, and the channels hold these bytes afterwards (R191, U7: any value) -/
  | reset (leftA leftB : List Byte)
  /-- the host makes both channels empty before it streams again (R191, R194; when it may: log 5) -/
  | emptyChannels
  /-- the host process starts, its channels available or not (R175, R194) -/
  | start (channelsAvailable : Bool)
  /-- a teardown, of the process or of one of its contexts (R201): which of the two contexts it ends (log 8) -/
  | tearDown (producer consumer : Bool)
deriving DecidableEq, Repr

/-- The state of an instance of MF3 and of what it is connected to. R20: MF3's own state is `ring`, `nRow`, `j`, `c`
and `phase`. R46: the channels' is `chanA` and `chanB`, bytes written and not yet read, oldest first. -/
structure State where
  /-- the instance's parameters (R11, R14) -/
  cfg      : Config
  /-- the ring store (R21) -/
  ring     : Ring
  /-- the rotating counter, the slot most recently written (R24) -/
  nRow     : Slot
  /-- the step of the current pass (R25) -/
  j        : Nat
  /-- the beats of the current row transfer already done (R26) -/
  c        : Nat
  /-- the half of the step (R27) -/
  phase    : Phase
  /-- channel A (R43) -/
  chanA    : List Byte
  /-- channel B (R43) -/
  chanB    : List Byte
  /-- the model's own: the last answer of a building block run on its own (log 2) -/
  answer   : Answer
  /-- the Producer's context (R154) -/
  producer : Producer
  /-- the Consumer's context (R155) -/
  consumer : Consumer
  /-- the host's own record (R191, R194): MF3 has been reset, and no context has run since (log 5) -/
  resetSinceRun : Bool
  /-- the model's own: the moves still to come, oldest first; MF3's turn when empty (log 4) -/
  moves    : List Move
deriving DecidableEq, Repr

/-- R170: "its fault type for MF3 has no constructor that MF3 can raise". It has none at all, since the errors of the
host are a status of the host's contexts (R174, R175), not an outcome of a step. -/
inductive Fault where
deriving DecidableEq, Repr

/-- Why a step or an operation has no meaning. -/
inductive Refusal where
  /-- Raised by `exec` for an instruction that has no meaning yet; safe. No arm raises it. -/
  | notModelled (mnemonic : String)
  /-- R10, R186, U8: raised on parameters for which no instance exists, by building one, by every operation and by
  every move but a host start that fails its own checks (R175; log 12); safe. -/
  | noInstance
  /-- R90, R101, R105, R129, R131: raised by an operation whose operand is outside the range its rule gives; safe. -/
  | illFormed (mnemonic : String)
deriving DecidableEq, Repr

/-- The outcome of one step. -/
abbrev Outcome := Host.Outcome State Fault Refusal

/-- R35, R136: the ring with every Pixel 0. -/
def Ring.zero (cfg : Config) : Ring := ⟨cfg.zeroRow, cfg.zeroRow, cfg.zeroRow⟩

/-- The Producer before the host starts (log 8). -/
def Producer.idle : Producer := ⟨.notStarted, [], [], []⟩

/-- The Consumer before the host starts (log 8). -/
def Consumer.idle : Consumer := ⟨.notStarted, [], [], []⟩

/-- R35, R192, R193: an instance of MF3 right after reset, its channels empty and its environment not started. -/
def State.resetOf (cfg : Config) : State where
  cfg := cfg
  ring := Ring.zero cfg
  nRow := 0
  j := 0
  c := 0
  phase := .load
  chanA := []
  chanB := []
  answer := .none
  producer := Producer.idle
  consumer := Consumer.idle
  resetSinceRun := true
  moves := []

/-- The hardware instance right after reset. -/
def State.reset : State := State.resetOf Config.hardware

-- One update per field.
def State.setRing (s : State) (v : Ring) : State := { s with ring := v }
def State.setNRow (s : State) (v : Slot) : State := { s with nRow := v }
def State.setJ (s : State) (v : Nat) : State := { s with j := v }
def State.setC (s : State) (v : Nat) : State := { s with c := v }
def State.setPhase (s : State) (v : Phase) : State := { s with phase := v }
def State.setChanA (s : State) (v : List Byte) : State := { s with chanA := v }
def State.setChanB (s : State) (v : List Byte) : State := { s with chanB := v }
def State.setAnswer (s : State) (v : Answer) : State := { s with answer := v }
def State.setProducer (s : State) (v : Producer) : State := { s with producer := v }
def State.setConsumer (s : State) (v : Consumer) : State := { s with consumer := v }
def State.setResetSinceRun (s : State) (v : Bool) : State := { s with resetSinceRun := v }
def State.setMoves (s : State) (v : List Move) : State := { s with moves := v }
end Sys2Proof.Machine
end

