-- ==== Sys2Proof/Machine/Flags.lean ====
section
/-! DEFINITION. MF3 has no flags and no condition codes (10_state.md R30). Here stand the tests that take their place: the two the
sequencer makes (43_filterengine.md R130) and what they say of a step (R122, R140). -/

namespace Sys2Proof.Machine

/-- R122, R125, R140: the step takes a real Row from port A. -/
def stepIsReal (cfg : Config) (j : Nat) : Bool := decide (j < cfg.jLast)

/-- R122, R127, R140: the step synthesises its Row. -/
def stepIsZero (cfg : Config) (j : Nat) : Bool := decide (j = cfg.jLast)

/-- R123, R140: the step sends a filtered Row. Under RATE_PRESERVING step 0 sends none. -/
def stepEmits (cfg : Config) (j : Nat) : Bool :=
  match cfg.schedule with
  | .literal => true
  | .ratePreserving => decide (1 ≤ j)

/-- R125, R128: not the last Word of the row. -/
def moreBeats (cfg : Config) (c : Nat) : Bool := decide (c < cfg.wpr - 1)

end Sys2Proof.Machine
end

