-- ==== Sys2Proof/WellFormed.lean ====
section
/-! DEFINITION. Which operands an operation is defined for on a given instance (the *Operands* lines of 41_rowring.md to
43_filterengine.md). -/

namespace Sys2Proof

/-- The operand checks: a Row has W Pixels (R90, R129, R131), a column is in 0..W-1 (R101, R105), a pass has the
Rows it takes (R131, R140). Every other operand is in range by its type. -/
def Instr.wf (cfg : Config) : Instr → Bool
  | .pack _ _ _ _ => true
  | .unpack _ => true
  | .ringWrite _ row => cfg.isRow row
  | .ringRead _ => true
  | .resolveSlot _ _ => true
  | .sample _ _ i _ => cfg.isColumn i
  | .med9 _ _ _ _ _ _ _ _ _ => true
  | .filtPix _ i => cfg.isColumn i
  | .filtRow _ => true
  | .recvw _ => true
  | .zerorow => true
  | .emitw => true
  | .rowstep x => cfg.isRow x
  | .pass rows => decide (rows.length = cfg.rowsIn) && rows.all cfg.isRow

end Sys2Proof
end

