-- ==== Sys2Proof/Decode.lean ====
section
/-! DEFINITION. The only bits MF3 takes in: Words on port A, four bytes of channel A each, low byte first (R44, R48, R60).
No bit of a Word selects an operation (R66), so every four bytes are one RECVW beat, and fewer than four are no Word yet
(R49). The other operations have no bits that select them (R65). -/

namespace Sys2Proof

/-- R48, D3: the Word whose four bytes travel in this order, the first the least significant. -/
def wordOfBytes (b0 b1 b2 b3 : Byte) : Word := b3 ++ b2 ++ b1 ++ b0

/-- R48, D3: a Word's bytes in the order they travel. -/
def bytesOfWord (w : Word) : List Byte :=
  [w.extractLsb' 0 8, w.extractLsb' 8 8, w.extractLsb' 16 8, w.extractLsb' 24 8]

/-- R48: Words on a channel, one after the other. -/
def bytesOfWords (ws : List Word) : List Byte := ws.flatMap bytesOfWord

/-- R44, R49: the whole Words at the head of a channel; the bytes of an unfinished Word are left out. -/
def wordsOfBytes : List Byte → List Word
  | b0 :: b1 :: b2 :: b3 :: rest => wordOfBytes b0 b1 b2 b3 :: wordsOfBytes rest
  | _ => []

/-- Why no operation is read from bits. -/
inductive DecodeError where
  /-- R45, R49: channel A holds fewer than the four bytes of a Word; they wait for the rest. -/
  | incompleteWord (held : Nat)
deriving DecidableEq, Repr

/-- R66, R67: any four bytes of channel A are one RECVW beat; the rest of the bytes stay. Total on any bytes. -/
def decode : List Byte → Except DecodeError (Instr × List Byte)
  | b0 :: b1 :: b2 :: b3 :: rest => .ok (.recvw (wordOfBytes b0 b1 b2 b3), rest)
  | bs => .error (.incompleteWord bs.length)

/-- R60, R65: the bits of an operation on port A. Only RECVW has any: the ten internal operations have "no bit
encoding", and PACK, UNPACK and EMITW are applied to Words that no bit marks as theirs (R66). -/
def encode : Instr → Option (List Byte)
  | .recvw w => some (bytesOfWord w)
  | .pack _ _ _ _ => none
  | .unpack _ => none
  | .ringWrite _ _ => none
  | .ringRead _ => none
  | .resolveSlot _ _ => none
  | .sample _ _ _ _ => none
  | .med9 _ _ _ _ _ _ _ _ _ => none
  | .filtPix _ _ => none
  | .filtRow _ => none
  | .zerorow => none
  | .emitw => none
  | .rowstep _ => none
  | .pass _ => none

/-- A whole stream of port A read beat by beat: the operations, and the bytes of an unfinished Word that stay. -/
def decodeStream : List Byte → List Instr × List Byte
  | b0 :: b1 :: b2 :: b3 :: rest =>
    (.recvw (wordOfBytes b0 b1 b2 b3) :: (decodeStream rest).1, (decodeStream rest).2)
  | bs => ([], bs)

/-- What the decoder reads from a table row's bits: a port moves 32 bits and no other width (R50), so a row that
the table gives no bits, or another number of them, is rejected. -/
def decodeTableWord (nbits w : Nat) : Option Instr :=
  if nbits = 32 then
    match decode (bytesOfWord (BitVec.ofNat 32 w)) with
    | .ok (i, _) => some i
    | .error _ => none
  else none

end Sys2Proof
end

