-- ==== Sys2Proof/Machine/Operands.lean ====
section
/-! DEFINITION. Operand assembly (30_encoding.md section 2), the PixelCodec's functions (40_pixelcodec.md) and the slot and column an
operand names (41_rowring.md R92, 42_medianwindow.md R101). -/

namespace Sys2Proof.Machine

/-- R80, R64: the Word of four Pixels, `p0` the leftmost. -/
def pack (p0 p1 p2 p3 : Pixel) : Word :=
  p0.setWidth 32 ||| (p1.setWidth 32 <<< 8) ||| (p2.setWidth 32 <<< 16) ||| (p3.setWidth 32 <<< 24)

/-- R81, R64: the four Pixels of a Word, in column order. -/
def unpack (w : Word) : Pixel × Pixel × Pixel × Pixel :=
  (w.extractLsb' 0 8, w.extractLsb' 8 8, w.extractLsb' 16 8, w.extractLsb' 24 8)

/-- R82: PACKROW, a Row in chunks of four. A Row's length is a multiple of 4 (R49); Pixels after the last whole chunk
have no Word. -/
def packRow : Row → List Word
  | p0 :: p1 :: p2 :: p3 :: rest => pack p0 p1 p2 p3 :: packRow rest
  | _ => []

/-- R81: the four Pixels of a Word as a list. -/
def unpackList (w : Word) : List Pixel :=
  [(unpack w).1, (unpack w).2.1, (unpack w).2.2.1, (unpack w).2.2.2]

/-- R83: UNPACKROW, the inverse. -/
def unpackRow (ws : List Word) : Row := ws.flatMap unpackList

/-- R48, R61: a Row on a channel: its Words in order, each low byte first. -/
def rowBytes (r : Row) : List Byte := bytesOfWords (packRow r)

/-- R16: the offsets as integers. -/
def offsetInt : Offset → Int
  | .minus => -1
  | .zero => 0
  | .plus => 1

/-- R92: the slot `k` rows below the centre, "mod" being the non-negative remainder. -/
def resolveSlot (center : Slot) (k : Offset) : Slot :=
  ⟨(((center.val : Int) + offsetInt k) % 3).toNat, by omega⟩

/-- R124: the slot the current step loads. -/
def targetSlot (nRow : Slot) : Slot := resolveSlot nRow .plus

/-- R109 pad, R101: the Pixel of a column formed "without wrap-around", 0 outside the row. -/
def pad (w : Nat) (r : Row) (x : Int) : Pixel :=
  if 0 ≤ x ∧ x < (w : Int) then r.getD x.toNat 0 else 0

end Sys2Proof.Machine
end

