-- ==== Sys2Proof/Machine/Ops.lean ====
section
/-! DEFINITION. The named operations: the outcome of an operation, the ring store (41_rowring.md), the ports (20_memory.md), the median
(42_medianwindow.md), the sequencer's moves (43_filterengine.md) and the reset event (70_reset_and_hazards.md R191). MF3 takes no
exception and returns from none (60_exceptions.md R170, R178, R179), so there is no such operation. -/

namespace Sys2Proof.Machine

/-! ## Outcomes -/

/-- R186: an operation has a meaning only on an instance that exists (R10) and on operands in range. -/
def completes (s : State) (i : Instr) (mnemonic : String) (t : State) : Outcome :=
  if s.cfg.legal = false then .refused .noInstance
  else if i.wf s.cfg = false then .refused (.illFormed mnemonic)
  else .next t

/-- R45, R142: an operation of the sequencer happens when it is enabled, and otherwise MF3 waits, changing nothing. -/
def whenEnabled (enabled : Bool) (s t : State) : State := if enabled then t else s

/-! ## The ring store -/

/-- R91: the Row a slot holds. -/
def Ring.read (r : Ring) (slot : Slot) : Row :=
  match slot with
  | 0 => r.slot0
  | 1 => r.slot1
  | 2 => r.slot2

/-- R90: the ring with one slot replaced. -/
def Ring.write (r : Ring) (slot : Slot) (row : Row) : Ring :=
  match slot with
  | 0 => { r with slot0 := row }
  | 1 => { r with slot1 := row }
  | 2 => { r with slot2 := row }

/-- R93 RING.WRPIX4: columns 4m to 4m+3 of one slot. -/
def Ring.writePixels4 (r : Ring) (slot : Slot) (m : Nat) (px : Pixel × Pixel × Pixel × Pixel) : Ring :=
  r.write slot (((((r.read slot).set (4 * m) px.1).set (4 * m + 1) px.2.1).set (4 * m + 2) px.2.2.1).set
    (4 * m + 3) px.2.2.2)

/-- R41: the Pixel at a location (slot, column). -/
def Ring.pixel (r : Ring) (slot : Slot) (x : Nat) : Pixel := (r.read slot).getD x 0

/-- R21: each of the three Rows has exactly W Pixels. -/
def Ring.wf (cfg : Config) (r : Ring) : Bool := cfg.isRow r.slot0 && cfg.isRow r.slot1 && cfg.isRow r.slot2

/-! ## The ports -/

/-- R45, R50: the bytes at the head of a channel are these. -/
def holds (chan bs : List Byte) : Bool := bs.isPrefixOf chan

/-- R45, R47: how many of `k` offered bytes a channel takes that can hold `depth` Words, holds `held` bytes and whose
reader waits for `wanted` bytes. A channel of depth 0 passes a Word from hand to hand (R200; DESIGN CHOICE, log 10). -/
def accepts (depth : Option Nat) (held wanted k : Nat) : Nat :=
  match depth with
  | none => k
  | some 0 => min k (wanted - held)
  | some (d + 1) => min k (4 * (d + 1) - held)

/-- R45, R125: the bytes MF3 waits for at port A. -/
def wantedA (s : State) : Nat := if s.phase = .load ∧ stepIsReal s.cfg s.j = true then 4 else 0

/-- R152, R155: the bytes the Consumer waits for at channel B, at least a Word while it runs. -/
def wantedB (s : State) : Nat := if s.consumer.status = .running then 4 else 0

/-- R45: channel B has room for `n` Words. -/
def roomB (s : State) (n : Nat) : Bool :=
  decide (accepts s.cfg.depthB s.chanB.length (wantedB s) (4 * n) = 4 * n)

/-- R17, R50 PortRead: the first `n` Words leave channel A. -/
def portRead (s : State) (n : Nat) : State := s.setChanA (s.chanA.drop (4 * n))

/-- R17, R50 PortWrite: Words are appended to channel B. -/
def portWrite (s : State) (ws : List Word) : State := s.setChanB (s.chanB ++ bytesOfWords ws)

/-! ## The median -/

/-- R103: insertion into an ascending list, comparing unsigned. -/
def insertAsc (p : Pixel) : List Pixel → List Pixel
  | [] => [p]
  | q :: qs => if p.toNat ≤ q.toNat then p :: q :: qs else q :: insertAsc p qs

/-- R103: the samples sorted ascending as unsigned integers. Any sort gives the same list (R103, U2). -/
def sortAsc : List Pixel → List Pixel
  | [] => []
  | p :: ps => insertAsc p (sortAsc ps)

/-- R103: index 4 of the sorted samples. -/
def medianOf (samples : List Pixel) : Pixel := (sortAsc samples).getD 4 0

/-- R103 MED9. -/
def med9 (s0 s1 s2 s3 s4 s5 s6 s7 s8 : Pixel) : Pixel := medianOf [s0, s1, s2, s3, s4, s5, s6, s7, s8]

/-- R101 SAMPLE: a ring read with zero padding outside columns 0..W-1. -/
def sampleAt (cfg : Config) (ring : Ring) (center : Slot) (k : Offset) (i : Nat) (l : Offset) : Pixel :=
  pad cfg.w (ring.read (resolveSlot center k)) ((i : Int) + offsetInt l)

/-- R105 FILTPIX: the median of the nine samples around column `i`. -/
def filtPixAt (cfg : Config) (ring : Ring) (center : Slot) (i : Nat) : Pixel :=
  med9
    (sampleAt cfg ring center .minus i .minus) (sampleAt cfg ring center .minus i .zero)
    (sampleAt cfg ring center .minus i .plus)
    (sampleAt cfg ring center .zero i .minus) (sampleAt cfg ring center .zero i .zero)
    (sampleAt cfg ring center .zero i .plus)
    (sampleAt cfg ring center .plus i .minus) (sampleAt cfg ring center .plus i .zero)
    (sampleAt cfg ring center .plus i .plus)

/-- R106 FILTROW. -/
def filtRowAt (cfg : Config) (ring : Ring) (center : Slot) : Row :=
  (List.range cfg.w).map (filtPixAt cfg ring center)

/-- R109 FILT3: the filter as a function of three Rows. -/
def filt3 (cfg : Config) (a b c : Row) : Row :=
  (List.range cfg.w).map fun i : Nat =>
    med9
      (pad cfg.w a ((i : Int) - 1)) (pad cfg.w a i) (pad cfg.w a ((i : Int) + 1))
      (pad cfg.w b ((i : Int) - 1)) (pad cfg.w b i) (pad cfg.w b ((i : Int) + 1))
      (pad cfg.w c ((i : Int) - 1)) (pad cfg.w c i) (pad cfg.w c ((i : Int) + 1))

/-! ## The sequencer's moves -/

/-- R130: the position `p`, `j`, `c`. -/
def State.goto (s : State) (p : Phase) (j c : Nat) : State := ((s.setPhase p).setJ j).setC c

/-- R125, R127, R140: the end of a load: `nRow` rotates to the slot just loaded; the step goes on to send, or, where
it sends nothing, the next step begins. -/
def endLoad (s : State) : State :=
  let t := s.setNRow (targetSlot s.nRow)
  if stepEmits s.cfg s.j then t.goto .emit s.j 0 else t.goto .load (s.j + 1) 0

/-- R128, R136: the end of a step: the next step, or a new pass with the clearing the instance is built with. -/
def endStep (s : State) : State :=
  if s.j < s.cfg.jLast then s.goto .load (s.j + 1) 0
  else
    let t := s.goto .load 0 0
    if s.cfg.resetRingPerPass then t.setRing (Ring.zero s.cfg) else t

/-- R125: the effect of RECVW taking Word `w`. -/
def recvwNext (w : Word) (s : State) : State :=
  let t := (portRead s 1).setRing (s.ring.writePixels4 (targetSlot s.nRow) s.c (unpack w))
  if moreBeats s.cfg s.c then t.setC (s.c + 1) else endLoad t

/-- R127: the effect of ZEROROW. -/
def zerorowNext (s : State) : State :=
  endLoad (s.setRing (s.ring.write (targetSlot s.nRow) s.cfg.zeroRow))

/-- R128: the Word EMITW sends. -/
def emitWord (s : State) : Word :=
  pack (filtPixAt s.cfg s.ring s.nRow (4 * s.c)) (filtPixAt s.cfg s.ring s.nRow (4 * s.c + 1))
    (filtPixAt s.cfg s.ring s.nRow (4 * s.c + 2)) (filtPixAt s.cfg s.ring s.nRow (4 * s.c + 3))

/-- R128: the effect of EMITW. -/
def emitwNext (s : State) : State :=
  let t := portWrite s [emitWord s]
  if moreBeats s.cfg s.c then t.setC (s.c + 1) else endStep t

/-- R129: the effect of a step seen whole, `x` its Row: it is taken from port A if it is a real one (R122), written to
the target slot, `nRow` rotates, and the filtered Row is sent if the step sends one (R140). -/
def rowstepNext (x : Row) (s : State) : State :=
  let a := if stepIsReal s.cfg s.j then portRead s s.cfg.wpr else s
  let t := endLoad (a.setRing (a.ring.write (targetSlot a.nRow) x))
  if stepEmits s.cfg s.j then endStep (portWrite t (packRow (filtRowAt t.cfg t.ring t.nRow))) else t

/-- R131, R140: the effect of a pass seen whole: its steps in order, the last on ZERO_ROW. -/
def passNext (rows : List Row) (s : State) : State :=
  (rows ++ [s.cfg.zeroRow]).foldl (fun t x => rowstepNext x t) s

/-! ## When the sequencer's operations are enabled -/

/-- R45, R125: RECVW on Word `w`. -/
def recvwEnabled (w : Word) (s : State) : Bool :=
  decide (s.phase = .load) && stepIsReal s.cfg s.j && holds s.chanA (bytesOfWord w)

/-- R127: ZEROROW, "always enabled at that position". -/
def zerorowEnabled (s : State) : Bool := decide (s.phase = .load) && stepIsZero s.cfg s.j

/-- R45, R128: EMITW. -/
def emitwEnabled (s : State) : Bool := decide (s.phase = .emit) && roomB s 1

/-- R122, R129: a step on Row `x` can run from its start to its end without another agent's move: MF3 is at its
start, `x` is its Row, and channel B has room for what it sends (log 11). -/
def rowstepEnabled (x : Row) (s : State) : Bool :=
  decide (s.phase = .load) && decide (s.c = 0)
    && ((stepIsReal s.cfg s.j && holds s.chanA (rowBytes x)) || (stepIsZero s.cfg s.j && decide (x = s.cfg.zeroRow)))
    && (!stepEmits s.cfg s.j || roomB s s.cfg.wpr)

/-- R131: a pass on these Rows can run from its start to its end without another agent's move (log 11). -/
def passEnabled (rows : List Row) (s : State) : Bool :=
  decide (s.phase = .load) && decide (s.j = 0) && decide (s.c = 0)
    && holds s.chanA (rows.flatMap rowBytes) && roomB s (s.cfg.rowsOut * s.cfg.wpr)

/-! ## The reset event -/

/-- R191, R35: the effect of the reset event on MF3's own state; nothing else is touched. -/
def resetEvent (s : State) : State := ((s.setRing (Ring.zero s.cfg)).setNRow 0).goto .load 0 0

end Sys2Proof.Machine
end

