-- ==== Sys2Proof/Machine/Codec.lean ====
section
/-! DEFINITION. The meanings of the PixelCodec's operations (40_pixelcodec.md section 1). -/

namespace Sys2Proof.Machine

/-- R80 PACK. -/
def execPack (p0 p1 p2 p3 : Pixel) (s : State) : Outcome :=
  completes s (.pack p0 p1 p2 p3) "PACK" (s.setAnswer (.word (pack p0 p1 p2 p3)))

/-- R81 UNPACK. -/
def execUnpack (w : Word) (s : State) : Outcome :=
  completes s (.unpack w) "UNPACK"
    (s.setAnswer (.pixels (unpack w).1 (unpack w).2.1 (unpack w).2.2.1 (unpack w).2.2.2))

end Sys2Proof.Machine
end

