-- ==== Sys2Proof/Machine/FilterEngine.lean ====
section
/-! DEFINITION. The meanings of the FilterEngine's operations (43_filterengine.md section 3 and R131, R140). Where an operation is not
enabled MF3 waits: the next state is the same state (R45, R142). -/

namespace Sys2Proof.Machine

/-- R125 RECVW: the beat on port A that takes Word `w`, the one at the head of channel A. -/
def execRecvw (w : Word) (s : State) : Outcome :=
  completes s (.recvw w) "RECVW" (whenEnabled (recvwEnabled w s) s (recvwNext w s))

/-- R127 ZEROROW. -/
def execZerorow (s : State) : Outcome :=
  completes s .zerorow "ZEROROW" (whenEnabled (zerorowEnabled s) s (zerorowNext s))

/-- R128 EMITW. -/
def execEmitw (s : State) : Outcome :=
  completes s .emitw "EMITW" (whenEnabled (emitwEnabled s) s (emitwNext s))

/-- R129 ROWSTEP. -/
def execRowstep (x : Row) (s : State) : Outcome :=
  completes s (.rowstep x) "ROWSTEP" (whenEnabled (rowstepEnabled x s) s (rowstepNext x s))

/-- R131, R140 PASS. -/
def execPass (rows : List Row) (s : State) : Outcome :=
  completes s (.pass rows) "PASS" (whenEnabled (passEnabled rows s) s (passNext rows s))

end Sys2Proof.Machine
end

