-- ==== Sys2Proof/Machine/MedianWindow.lean ====
section
/-! DEFINITION. The meanings of the MedianWindow's operations (42_medianwindow.md section 2). They read the ring and write none of
MF3's state (R107). -/

namespace Sys2Proof.Machine

/-- R101 SAMPLE. -/
def execSample (center : Slot) (k : Offset) (i : Nat) (l : Offset) (s : State) : Outcome :=
  completes s (.sample center k i l) "SAMPLE" (s.setAnswer (.pixel (sampleAt s.cfg s.ring center k i l)))

/-- R103 MED9. -/
def execMed9 (s0 s1 s2 s3 s4 s5 s6 s7 s8 : Pixel) (s : State) : Outcome :=
  completes s (.med9 s0 s1 s2 s3 s4 s5 s6 s7 s8) "MED9" (s.setAnswer (.pixel (med9 s0 s1 s2 s3 s4 s5 s6 s7 s8)))

/-- R105 FILTPIX. -/
def execFiltPix (center : Slot) (i : Nat) (s : State) : Outcome :=
  completes s (.filtPix center i) "FILTPIX" (s.setAnswer (.pixel (filtPixAt s.cfg s.ring center i)))

/-- R106 FILTROW. -/
def execFiltRow (center : Slot) (s : State) : Outcome :=
  completes s (.filtRow center) "FILTROW" (s.setAnswer (.row (filtRowAt s.cfg s.ring center)))

end Sys2Proof.Machine
end

