-- ==== Sys2Proof/Machine/RowRing.lean ====
section
/-! DEFINITION. The meanings of the RowRing's operations (41_rowring.md section 1). -/

namespace Sys2Proof.Machine

/-- R90 RING.WRITE. -/
def execRingWrite (slot : Slot) (row : Row) (s : State) : Outcome :=
  completes s (.ringWrite slot row) "RING.WRITE" (s.setRing (s.ring.write slot row))

/-- R91 RING.READ: the contents of the slot at the moment of the read. -/
def execRingRead (slot : Slot) (s : State) : Outcome :=
  completes s (.ringRead slot) "RING.READ" (s.setAnswer (.row (s.ring.read slot)))

/-- R92 RESOLVESLOT. -/
def execResolveSlot (center : Slot) (k : Offset) (s : State) : Outcome :=
  completes s (.resolveSlot center k) "RESOLVESLOT" (s.setAnswer (.slot (resolveSlot center k)))

end Sys2Proof.Machine
end

