-- ==== Sys2Proof/Machine/Dispatch.lean ====
section
/-! DEFINITION. One arm per operation of 30_encoding.md R65. -/

namespace Sys2Proof.Machine
open Sys2Proof

def exec (i : Instr) (s : State) : Host.Outcome State Fault Refusal :=
  match i with
  -- PixelCodec
  | .pack p0 p1 p2 p3 => Sys2Proof.Machine.execPack p0 p1 p2 p3 s
  | .unpack w => Sys2Proof.Machine.execUnpack w s
  -- RowRing
  | .ringWrite slot row => Sys2Proof.Machine.execRingWrite slot row s
  | .ringRead slot => Sys2Proof.Machine.execRingRead slot s
  | .resolveSlot center k => Sys2Proof.Machine.execResolveSlot center k s
  -- MedianWindow
  | .sample center k col l => Sys2Proof.Machine.execSample center k col l s
  | .med9 s0 s1 s2 s3 s4 s5 s6 s7 s8 => Sys2Proof.Machine.execMed9 s0 s1 s2 s3 s4 s5 s6 s7 s8 s
  | .filtPix center col => Sys2Proof.Machine.execFiltPix center col s
  | .filtRow center => Sys2Proof.Machine.execFiltRow center s
  -- FilterEngine
  | .recvw w => Sys2Proof.Machine.execRecvw w s
  | .zerorow => Sys2Proof.Machine.execZerorow s
  | .emitw => Sys2Proof.Machine.execEmitw s
  | .rowstep x => Sys2Proof.Machine.execRowstep x s
  | .pass rows => Sys2Proof.Machine.execPass rows s

end Sys2Proof.Machine
end

