-- ==== Sys2Proof/Machine/Environment.lean ====
section
/-! DEFINITION. The agents at the far ends of the channels (44_environment.md) and what they do to MF3. Nothing here is part of the
hardware (00_scope.md R4); it is in the model because R12 lists these agents among those that take steps. -/

namespace Sys2Proof.Machine

/-! ## StreamEndpoint -/

/-- R151: one turn of the loop of sendExact on a channel that takes at most `room` bytes: what enters the channel,
what is still to send, and whether the failure is fatal. With nothing left, `while done < N` makes no call. A write
that accepts nothing is tried again (DESIGN CHOICE, log 9). -/
def sendCall (buffer : List Byte) (room : Nat) (r : CallResult) : List Byte × List Byte × Bool :=
  if buffer = [] then ([], [], false)
  else
    match r with
    | .moved n => (buffer.take (min n room), buffer.drop (min n room), false)
    | .interrupted => ([], buffer, false)
    | .failed => ([], buffer, true)

/-- R151 sendExact against the calls that return, one after the other, on a channel with room for all: what entered
the channel, what is still to send when the calls run out, and whether a TransportError was raised. -/
def sendExact (buffer : List Byte) : List CallResult → List Byte × List Byte × Bool
  | [] => ([], buffer, false)
  | r :: rs =>
    let first := sendCall buffer buffer.length r
    if first.2.2 || first.2.1.isEmpty then first
    else
      let more := sendExact first.2.1 rs
      (first.1 ++ more.1, more.2.1, more.2.2)

/-- R152: one turn of the loop of receiveExact with `wanted` bytes still to come: what is delivered, what the channel
keeps, and whether the failure is fatal. With none to come, `while done < N` makes no read. A read that reports zero
bytes is an unexpected end of stream. -/
def receiveCall (wanted : Nat) (chan : List Byte) (r : CallResult) : List Byte × List Byte × Bool :=
  if wanted = 0 then ([], chan, false)
  else
    match r with
    | .moved 0 => ([], chan, true)
    | .moved (n + 1) => (chan.take (min (n + 1) wanted), chan.drop (min (n + 1) wanted), false)
    | .interrupted => ([], chan, false)
    | .failed => ([], chan, true)

/-- R152 receiveExact against the calls that return: the bytes received when they run out, what the channel keeps, and
whether a TransportError was raised. -/
def receiveExact (wanted : Nat) (chan : List Byte) : List CallResult → List Byte × List Byte × Bool
  | [] => ([], chan, false)
  | r :: rs =>
    let first := receiveCall wanted chan r
    if first.2.2 || decide (wanted ≤ first.1.length) then first
    else
      let more := receiveExact (wanted - first.1.length) first.2.1 rs
      (first.1 ++ more.1, more.2.1, more.2.2)

/-- R151, R152: the bytes that these calls offer to move, taken together. -/
def movedTotal : List CallResult → Nat
  | [] => 0
  | .moved n :: rs => n + movedTotal rs
  | .interrupted :: rs => movedTotal rs
  | .failed :: rs => movedTotal rs

/-! ## The Producer -/

/-- R63: a plane of a Frame is H Rows of W Pixels. -/
def isPlane (cfg : Config) (rows : List Row) : Bool := decide (rows.length = cfg.h) && rows.all cfg.isRow

/-- R63, R153, R154: a Frame of this instance: 3 x H Rows, "exactly `W` bytes, or `W/4` PackedWords" each. -/
def isFrame (cfg : Config) (f : Frame) : Bool :=
  isPlane cfg f.plane0 && isPlane cfg f.plane1 && isPlane cfg f.plane2

/-- R63, R154: the Rows of a Frame, plane-major, then row-major within a plane. -/
def frameRows (f : Frame) : List Row := f.plane0 ++ f.plane1 ++ f.plane2

/-- R153, R154: with nothing left of its scratch buffer the Producer packs the next Row, of the current Frame or of the
next one, whose 3 x H Rows of W Pixels it sends whole. With no Frame left it is blocked in nextFrame() (R158). What
is no Frame of this instance (`isFrame`) nextFrame() cannot deliver: the Producer stays blocked before it (DESIGN
CHOICE, log 19). -/
def Producer.refill (cfg : Config) (p : Producer) : Producer :=
  match p.outbox, p.rowsLeft, p.frames with
  | _ :: _, _, _ => p
  | [], r :: rs, _ => { p with rowsLeft := rs, outbox := rowBytes r }
  | [], [], f :: fs =>
    if isFrame cfg f = false then p
    else
      match frameRows f with
      | r :: rs => { p with frames := fs, rowsLeft := rs, outbox := rowBytes r }
      | [] => { p with frames := fs }
  | [], [], [] => p

/-- R154: every byte the Producer has still to send, in order. -/
def Producer.pending (cfg : Config) (p : Producer) : List Byte :=
  p.outbox ++ p.rowsLeft.flatMap rowBytes
    ++ (p.frames.takeWhile (isFrame cfg)).flatMap fun f => (frameRows f).flatMap rowBytes

/-- R151, R154, R157: the Producer's turn: its write call on channel A returns. A fatal failure ends its context
(R174). -/
def producerTurn (r : CallResult) (s : State) : State :=
  if s.producer.status = .running then
    let p := s.producer.refill s.cfg
    if p.outbox.isEmpty then s.setProducer p
    else
      let call := sendCall p.outbox (accepts s.cfg.depthA s.chanA.length (wantedA s) p.outbox.length) r
      (s.setChanA (s.chanA ++ call.1)).setProducer
        { p with outbox := call.2.1, status := if call.2.2 then .ended .transportError else .running }
  else s

/-! ## The Consumer -/

/-- R155: the Frame of 3 x H Rows, plane by plane. -/
def assembleFrame (h : Nat) (rows : List Row) : Frame :=
  ⟨rows.take h, (rows.drop h).take h, rows.drop (2 * h)⟩

/-- R155: the Consumer with these bytes added to its scratch buffer: a whole Row is unpacked, and a whole Frame goes to
the sink. -/
def Consumer.accept (cfg : Config) (bs : List Byte) (k : Consumer) : Consumer :=
  let got := k.got ++ bs
  if got.length < cfg.w then { k with got := got }
  else
    let rows := k.rows ++ [unpackRow (wordsOfBytes got)]
    if rows.length < 3 * cfg.h then { k with got := [], rows := rows }
    else { k with got := [], rows := [], presented := k.presented ++ [assembleFrame cfg.h rows] }

/-- R155: every byte the Consumer has received, in order: of the Frames it delivered, of the current Frame and of the
current Row. -/
def Consumer.received (k : Consumer) : List Byte :=
  (k.presented.flatMap fun f => (frameRows f).flatMap rowBytes) ++ k.rows.flatMap rowBytes ++ k.got

/-- R152, R155, R157: the Consumer's turn: its read call on channel B returns. A fatal failure ends its context
(R174). -/
def consumerTurn (r : CallResult) (s : State) : State :=
  if s.consumer.status = .running then
    let call := receiveCall (s.cfg.w - s.consumer.got.length) s.chanB r
    let k := s.consumer.accept s.cfg call.1
    (s.setChanB call.2.1).setConsumer
      { k with status := if call.2.2 then .ended .transportError else .running }
  else s

/-! ## The host process -/

/-- R175, C6: the host's check of the configuration, of W only. -/
def hostConfigOk (cfg : Config) : Bool := decide (cfg.w % 4 = 0)

/-- R175, R194: the host starts, once: it checks the configuration and the channels and reports a ConfigurationError
before any streaming, or starts both contexts with empty scratch buffers. A start is one of the whole process, so it
does nothing while either context runs, the other torn down alone or not (DESIGN CHOICE, log 8). -/
def hostStart (available : Bool) (s : State) : State :=
  if s.producer.status = .running ∨ s.consumer.status = .running then s
  else
    let ok := hostConfigOk s.cfg && available
    let status : HostStatus := if ok then .running else .ended .configurationError
    ((s.setProducer { s.producer with status := status, rowsLeft := [], outbox := [] }).setConsumer
      { s.consumer with status := status, got := [], rows := [] }).setResetSinceRun (s.resetSinceRun && !ok)

/-- R201: the Producer's context torn down: its Row in flight and the rest of its Frame are abandoned (log 8). -/
def Producer.tearDown (p : Producer) : Producer := { p with status := .tornDown, rowsLeft := [], outbox := [] }

/-- R201: the Consumer's context torn down: its Row in flight and the Frame it assembles are abandoned (log 8). -/
def Consumer.tearDown (k : Consumer) : Consumer := { k with status := .tornDown, got := [], rows := [] }

/-- R201: a teardown; "any in-flight partial Row transfer is abandoned". R201 says "process/context teardown" and
leaves open whether one context alone can end so: here a teardown ends the Producer, the Consumer or both, as the
move says, and touches neither the other context nor the channels (DESIGN CHOICE, log 8). -/
def hostTearDown (producer consumer : Bool) (s : State) : State :=
  (s.setProducer (if producer then s.producer.tearDown else s.producer)).setConsumer
    (if consumer then s.consumer.tearDown else s.consumer)

/-- R191, R194: the host makes both channels empty. It may do so only where it is required to, after a reset of MF3
and before it streams: neither context runs, and by the host's own record MF3 has been reset and no context has run
since (DESIGN CHOICE, log 5). Of MF3's state the host sees nothing (R22, R28). Anywhere else a byte would be lost inside
a channel, which R160 says is no move of the model, and nothing happens. -/
def hostEmptyChannels (s : State) : State :=
  if s.producer.status ≠ .running ∧ s.consumer.status ≠ .running ∧ s.resetSinceRun = true then
    (s.setChanA []).setChanB []
  else s

/-! ## Instances and programs -/

/-- R186: the instance of a configuration, right after reset, or the refusal "to build an instance". -/
def buildInstance (cfg : Config) : Outcome :=
  if cfg.legal = false then .refused .noInstance else .next (State.resetOf cfg)

/-- R69: a program for MF3 is the Words offered on port A, its run starting from the reset state of the instance its
CONFIG line gives. That line has no channel depths: the Words all stand in channel A, and port B is always ready, an
unbounded channel B that keeps what the Consumer sees. -/
def loadProgram (cfg : Config) (ws : List Word) : Outcome :=
  match buildInstance { cfg with depthA := none, depthB := none } with
  | .next s => .next (s.setChanA (bytesOfWords ws))
  | .fault f => .fault f
  | .refused r => .refused r

/-- R69: what a program sends, "the sequence of Words seen on port B". -/
def programWords (s : State) : List Word := wordsOfBytes s.chanB

/-! ## The moves of the environment -/

/-- R191: the reset source's move: MF3 reset, the channels with any bytes at all (U7), and the host's record of it. A
reset under a running context is none that the host can build on (log 5). -/
def resetMove (leftA leftB : List Byte) (s : State) : State :=
  (((resetEvent s).setChanA leftA).setChanB leftB).setResetSinceRun
    (decide (s.producer.status ≠ .running ∧ s.consumer.status ≠ .running))

/-- R12: a move of an agent other than MF3. -/
def envMove (m : Move) (s : State) : State :=
  match m with
  | .mf3 => s
  | .producer r => producerTurn r s
  | .consumer r => consumerTurn r s
  | .reset leftA leftB => resetMove leftA leftB s
  | .emptyChannels => hostEmptyChannels s
  | .start available => hostStart available s
  | .tearDown producer consumer => hostTearDown producer consumer s

/-- R175, R186: which moves have a meaning only on an instance that exists: all but a host start that fails its own
checks, which reports a ConfigurationError and in which "MF3 takes no part" (log 12). -/
def needsInstance (cfg : Config) (m : Move) : Bool :=
  match m with
  | .start available => hostConfigOk cfg && available
  | .mf3 => true
  | .producer _ => true
  | .consumer _ => true
  | .reset _ _ => true
  | .emptyChannels => true
  | .tearDown _ _ => true

end Sys2Proof.Machine
end

