-- ==== Sys2Proof/Machine/Sequencer.lean ====
section
/-! DEFINITION. The sequencer: which operation a position selects, MF3's turn (43_filterengine.md R130, R140), and the turn of whichever
agent is next (00_scope.md R12). -/

namespace Sys2Proof.Machine

/-- R130, R140: the operation at a position. In LOAD with a real Row it is the Word at the head of channel A, read by
the decoder, if a whole one is there (R45). -/
def selectOp (s : State) : Option Instr :=
  match s.phase with
  | .emit => some .emitw
  | .load =>
    if stepIsReal s.cfg s.j then
      match decode s.chanA with
      | .ok (i, _) => some i
      | .error _ => none
    else if stepIsZero s.cfg s.j then some .zerorow
    else none

/-- R130: MF3 has an enabled step. -/
def mf3Enabled (s : State) : Bool :=
  match s.phase with
  | .emit => roomB s 1
  | .load => if stepIsReal s.cfg s.j then decide (4 ≤ s.chanA.length) else stepIsZero s.cfg s.j

/-- R130: MF3's turn: the operation of its position, or none, and then it waits (R45, R142). -/
def mf3Turn (s : State) : Outcome :=
  if s.cfg.legal = false then .refused .noInstance
  else
    match selectOp s with
    | some i => exec i s
    | none => .next s

/-- R12, R156, R186: the next move of `moves`, or MF3's turn when none is left; on parameters for which no instance
exists a move is refused, unless it needs none. -/
def nextMove (s : State) : Outcome :=
  match s.moves with
  | [] => mf3Turn s
  | .mf3 :: rest => mf3Turn (s.setMoves rest)
  | m :: rest =>
    if s.cfg.legal = false ∧ needsInstance s.cfg m = true then .refused .noInstance
    else .next (envMove m (s.setMoves rest))

/-- The instruction word `w` placed where MF3 takes its next Word: at the head of channel A, MF3 at a position that
takes one, and MF3's turn next (log 4). A row without 32 bits has no Word to place. -/
def placeWord (s : State) (nbits w : Nat) : State :=
  if nbits = 32 then
    (((s.setChanA (bytesOfWord (BitVec.ofNat 32 w) ++ s.chanA)).setPhase .load).setJ
      (if stepIsReal s.cfg s.j then s.j else 0)).setMoves (.mf3 :: s.moves)
  else s

end Sys2Proof.Machine
end

