-- ==== Sys2Proof/Machine/Step.lean ====
section
/-! DEFINITION. One step of the machine: one beat or one internal action of MF3, or one move of another agent (00_scope.md R12, R13). -/

namespace Sys2Proof.Machine

/-- R13: one step. -/
def step (s : State) : Host.Outcome State Fault Refusal := nextMove s

/-- The state whose very next step runs the instruction of these bits (30_encoding.md R65, R66). -/
def State.withFetchWord (s : State) (nbits w : Nat) : State := placeWord s nbits w

end Sys2Proof.Machine
end

