-- ==== Sys2Proof/Machine/Network.lean ====
section
/-! DEFINITION. The 19-comparator network of 93_implementation_defined.md G1: general knowledge, not normative, used by no rule. It is
written down so that a statement can say it gives the median of R103. -/

namespace Sys2Proof.Machine

/-- G1: CE(a,b): afterwards place `a` holds the smaller and place `b` the larger. -/
def compareExchange (p : List Pixel) (ab : Nat × Nat) : List Pixel :=
  if (p.getD ab.2 0).toNat < (p.getD ab.1 0).toNat then
    (p.set ab.1 (p.getD ab.2 0)).set ab.2 (p.getD ab.1 0)
  else p

/-- G1: the 19 exchanges, in order. -/
def networkExchanges : List (Nat × Nat) :=
  [(1, 2), (4, 5), (7, 8), (0, 1), (3, 4), (6, 7), (1, 2), (4, 5), (7, 8), (0, 3), (5, 8), (4, 7)]
    ++ [(3, 6), (1, 4), (2, 5), (4, 7), (4, 2), (6, 4), (4, 2)]

/-- G1: the network's result, place 4 after the exchanges. -/
def networkMedian (s0 s1 s2 s3 s4 s5 s6 s7 s8 : Pixel) : Pixel :=
  (networkExchanges.foldl compareExchange [s0, s1, s2, s3, s4, s5, s6, s7, s8]).getD 4 0

end Sys2Proof.Machine
end

