-- ==== Sys2Proof/Safety.lean ====
section
/-! DEFINITION. What a safe state of MF3 is (10_state.md R20, R25, R26, R29, R37, 43_filterengine.md R130, R140), what it is to wait
(60_exceptions.md R178, R186), the end of a finite run (43_filterengine.md R139) and of a program (30_encoding.md R69), and what a safe
state of the host is (30_encoding.md R63, 44_environment.md R152 to R155). -/

namespace Sys2Proof.Machine

/-- R10, R21, R25, R26, R37, R130, R140: an instance exists, each Row of the ring has W Pixels, `j` and `c` are in
range, the position (LOAD, J_LAST, c) with c > 0 does not occur, and under RATE_PRESERVING step 0 is never in EMIT. -/
structure State.Legal (s : State) : Prop where
  config   : s.cfg.legal = true
  ring     : s.ring.wf s.cfg = true
  j        : s.j ≤ s.cfg.jLast
  c        : s.c < s.cfg.wpr
  zeroStep : s.phase = .load → s.j = s.cfg.jLast → s.c = 0
  emits    : s.phase = .emit → stepEmits s.cfg s.j = true

/-- R178, R186: MF3 is stuck until another agent moves: no enabled step, and not final. -/
def State.Waits (s : State) : Prop := mf3Enabled s = false

/-- R139: the Producer will send no more: it has nothing left to send, or it does not run and no start is to come. -/
def State.ProducerIsDone (s : State) : Prop :=
  s.producer.pending s.cfg = [] ∨ (s.producer.status ≠ .running ∧ Move.start true ∉ s.moves)

/-- R139, D18: the end of a finite run: channel A empty, the Producer will send no more, every Word MF3 has sent has
been taken, and MF3 has no enabled step. -/
structure State.RunEnded (s : State) : Prop where
  emptyA : s.chanA = []
  noMore : s.ProducerIsDone
  emptyB : s.chanB = []
  waits  : s.Waits

/-- R69, R139: the end of a program's run. Its port B is always ready, so every Word sent counts as taken, and channel
B is the record of them. -/
def State.ProgramEnded (s : State) : Prop := (s.setChanB []).RunEnded

/-- R63, R152 to R155: the host's side is in order: what the source still delivers and what the sink was given are
Frames of this instance, every Row in hand has W Pixels, the Producer's scratch buffer holds at most one Row, and the
Consumer's less than one Row and less than one Frame; and by the host's record of a reset (log 5) no context has run
since. -/
structure State.HostLegal (s : State) : Prop where
  frames    : ∀ f ∈ s.producer.frames, isFrame s.cfg f = true
  rowsLeft  : ∀ r ∈ s.producer.rowsLeft, s.cfg.isRow r = true
  outbox    : s.producer.outbox.length ≤ s.cfg.w
  got       : s.consumer.got.length < s.cfg.w
  rows      : s.consumer.rows.length < 3 * s.cfg.h ∧ ∀ r ∈ s.consumer.rows, s.cfg.isRow r = true
  presented : ∀ f ∈ s.consumer.presented, isFrame s.cfg f = true
  record    : s.resetSinceRun = true → s.producer.status ≠ .running ∧ s.consumer.status ≠ .running

/-- R45, R47: a channel holds no more than its depth in Words; at depth 0 at most the one Word in hand (log 10). -/
def WithinDepth (depth : Option Nat) (chan : List Byte) : Prop :=
  ∀ d, depth = some d → chan.length ≤ 4 * max d 1

/-- R13: `n` turns of MF3, no other agent moving in between: the steps of the machine with no move left to come. -/
def turns (n : Nat) (s : State) : Host.Outcome State Fault Refusal := Sys2Proof.core.run n (s.setMoves [])

/-- R22: MF3's own state (R20) is the same in both. -/
def SameEngine (s t : State) : Prop :=
  t.ring = s.ring ∧ t.nRow = s.nRow ∧ t.j = s.j ∧ t.c = s.c ∧ t.phase = s.phase

/-- The environment's agents, the configuration and the model's own fields are the same in both: everything but
MF3's state and the channels. -/
def SameRest (s t : State) : Prop :=
  t.cfg = s.cfg ∧ t.answer = s.answer ∧ t.producer = s.producer ∧ t.consumer = s.consumer ∧
    t.resetSinceRun = s.resetSinceRun ∧ t.moves = s.moves

/-- R45, R47, R200: channel B has room for `n` Words more: unbounded, or held below its depth, or of depth 0 with the
Consumer waiting, which passes one Word from hand to hand. -/
def State.HasRoomForWords (s : State) (n : Nat) : Prop :=
  s.cfg.depthB = none
    ∨ (∃ d, s.cfg.depthB = some d ∧ s.chanB.length + 4 * n ≤ 4 * d)
    ∨ (s.cfg.depthB = some 0 ∧ n = 1 ∧ s.chanB = [] ∧ s.consumer.status = .running)

/-- R45: channel B has room for one Word. -/
def State.HasRoomForWord (s : State) : Prop := s.HasRoomForWords 1

/-- R122: `x` is the Row of the current step: the next Row at port A, or ZERO_ROW in the step that synthesises it. -/
def State.StepRowIs (s : State) (x : Row) : Prop :=
  (s.j < s.cfg.jLast ∧ rowBytes x <+: s.chanA) ∨ (s.j = s.cfg.jLast ∧ x = s.cfg.zeroRow)

/-- R18, R129: the beats and internal actions of the current step. -/
def State.stepTurns (s : State) : Nat :=
  (if s.j < s.cfg.jLast then s.cfg.wpr else 1) + (if stepEmits s.cfg s.j then s.cfg.wpr else 0)

/-- R132: the Rows the filter sees around a pass: the two loaded last before it, then the pass's own, ZERO_ROW last.
Place t + 2 is X_t of R132, the pass starting at t = 0. -/
def State.rowsSeen (s : State) (rows : List Row) : List Row :=
  [s.ring.read (s.nRow + 2), s.ring.read s.nRow] ++ rows ++ [s.cfg.zeroRow]

/-- R132, R133: the Rows `FILT3(X_(t-2), X_(t-1), X_t)` for `n` successive t, over the Rows `xs` from place `k` on. -/
def medianRows (cfg : Config) (xs : List Row) (k n : Nat) : List Row :=
  (List.range n).map fun t => filt3 cfg (xs.getD (k + t) []) (xs.getD (k + t + 1) []) (xs.getD (k + t + 2) [])

/-- R138: the same machine but for which slot is called 0: the counter and the three Rows moved round by `d`. -/
structure Rotated (d : Slot) (s t : State) : Prop where
  nRow  : t.nRow = s.nRow + d
  ring  : ∀ slot : Slot, t.ring.read (slot + d) = s.ring.read slot
  place : t.j = s.j ∧ t.c = s.c ∧ t.phase = s.phase
  chans : t.chanA = s.chanA ∧ t.chanB = s.chanB
  rest  : SameRest s t

end Sys2Proof.Machine
end

