-- ==== Sys2Proof/Certificates/Slice0/Obligations.lean ====
section
/-! DEFINITION. The statements for the provers. Each docstring names the rule of spec/ it formalises, and the log entry where a
clause is the model's choice. In a statement `{ s with f := v }` says that no other field of the state changes. The
field `answer`, where an operation run on its own returns its value, is the model's own (log 2). -/

open Sys2Proof Sys2Proof.Machine

/-! ## PixelCodec (40_pixelcodec.md, 30_encoding.md) -/

/-- R80 PACK: the Word, that no bit is lost or carried, and that nothing but the answer changes. -/
def Obligations.PackMakesTheWord : Prop :=
  ∀ (s : State) (p0 p1 p2 p3 : Pixel), s.cfg.legal = true →
    ∃ w : Word,
      exec (.pack p0 p1 p2 p3) s = .next { s with answer := .word w } ∧
      w = p0.setWidth 32 ||| (p1.setWidth 32 <<< 8) ||| (p2.setWidth 32 <<< 16) ||| (p3.setWidth 32 <<< 24) ∧
      w.toNat = p0.toNat + 256 * p1.toNat + 65536 * p2.toNat + 16777216 * p3.toNat

/-- R81 UNPACK: the four 8-bit fields of every Word, unsigned, and nothing but the answer changes. -/
def Obligations.UnpackGivesTheFields : Prop :=
  ∀ (s : State) (w : Word), s.cfg.legal = true →
    exec (.unpack w) s = .next { s with
      answer := .pixels (w.extractLsb' 0 8) (w.extractLsb' 8 8) (w.extractLsb' 16 8) (w.extractLsb' 24 8) }

/-- R84: the round trip in both directions, for whole rows; R82 and R83 give the lengths. -/
def Obligations.RowCodecRoundTrips : Prop :=
  (∀ r : Row, r.length % 4 = 0 → unpackRow (packRow r) = r ∧ (packRow r).length = r.length / 4) ∧
  (∀ ws : List Word, packRow (unpackRow ws) = ws ∧ (unpackRow ws).length = 4 * ws.length)

/-- R82, R83, R61: Word m of a packed Row is PACK of columns 4m to 4m+3, and Pixel 4m+n of an unpacked Row is field n
of Word m. -/
def Obligations.RowWordsCarryTheirColumns : Prop :=
  (∀ (r : Row) (m : Nat), r.length % 4 = 0 → m < r.length / 4 →
    (packRow r)[m]? = some (pack (r.getD (4 * m) 0) (r.getD (4 * m + 1) 0) (r.getD (4 * m + 2) 0)
      (r.getD (4 * m + 3) 0))) ∧
  (∀ (ws : List Word) (m n : Nat), n < 4 → m < ws.length →
    (unpackRow ws)[4 * m + n]? = some ((ws.getD m 0).extractLsb' (8 * n) 8))

/-- R48: byte k of a Row on a channel is Pixel k; byte 4m+n of Words on a channel is bits 8n+7..8n of Word m. The byte
order is the spec's decision D3. -/
def Obligations.LowByteTravelsFirst : Prop :=
  (∀ r : Row, r.length % 4 = 0 → rowBytes r = r) ∧
  (∀ (ws : List Word) (m n : Nat), n < 4 → m < ws.length →
    (bytesOfWords ws)[4 * m + n]? = some ((ws.getD m 0).extractLsb' (8 * n) 8))

/-! ## Decoding the Words of port A (30_encoding.md R65 to R68) -/

/-- R44, R49, R66, R67: decode and encode agree: what is decoded from the bits of an operation is the operation, every
byte stream is the bits of its beats and fewer than four bytes of a Word that is not there yet, and both directions lose
no bit. -/
def Obligations.PortStreamDecodesToItsBeats : Prop :=
  (∀ (i : Instr) (bs rest : List Byte), encode i = some bs → decode (bs ++ rest) = .ok (i, rest)) ∧
  (∀ (ws : List Word) (tail : List Byte), tail.length < 4 →
    decodeStream (bytesOfWords ws ++ tail) = (ws.map Instr.recvw, tail)) ∧
  (∀ bs : List Byte, ∃ ws tail, tail.length < 4 ∧ bs = bytesOfWords ws ++ tail)

/-- R60, R66: a few Words written out from the vectors of 95_test_vectors.md 2.1, and what is no Word (R49). That the low
byte comes first is the spec's decision D3 (log 13); that decodeTableWord reads RECVW from every 32-bit row and nothing
from a row without bits is the model's reading of R65 and R66, log 15. -/
def Obligations.SampleWordsDecode : Prop :=
  decode [0x0A, 0x14, 0x1E, 0x28] = .ok (.recvw 0x281E140A, []) ∧
  decode [0xEF, 0xBE, 0xAD, 0xDE, 0x01] = .ok (.recvw 0xDEADBEEF, [0x01]) ∧
  decodeTableWord 32 0x80FF007F = some (.recvw 0x80FF007F) ∧
  decode [0x01, 0x02, 0x03] = .error (.incompleteWord 3) ∧
  decodeTableWord 0 0 = none

/-! ## RowRing (41_rowring.md) -/

/-- R90 RING.WRITE: all W Pixels of the slot are replaced, the other slots and everything else stay. -/
def Obligations.RingWriteReplacesOneSlot : Prop :=
  ∀ (s : State) (slot : Slot) (row : Row), s.cfg.legal = true → row.length = s.cfg.w →
    ∃ t, exec (.ringWrite slot row) s = .next t ∧
      t = { s with ring := t.ring } ∧
      t.ring.read slot = row ∧
      (∀ slot' : Slot, slot' ≠ slot → t.ring.read slot' = s.ring.read slot') ∧
      (∀ x, t.ring.pixel slot x = row.getD x 0)

/-- R91 RING.READ: the stored Row at the moment of the read, with no side effect; a read after a write of the slot sees
it, a read of another slot does not. -/
def Obligations.RingReadReturnsTheStoredRow : Prop :=
  ∀ (s : State) (slot : Slot), s.cfg.legal = true →
    (∃ r : Row, exec (.ringRead slot) s = .next { s with answer := .row r } ∧ ∀ x, r.getD x 0 = s.ring.pixel slot x) ∧
    (∀ (slot' : Slot) (row : Row) (t : State), row.length = s.cfg.w → exec (.ringWrite slot' row) s = .next t →
      exec (.ringRead slot) t =
        .next { t with answer := .row (if slot = slot' then row else s.ring.read slot) })

/-- R92 RESOLVESLOT: the complete function, its result the non-negative remainder. -/
def Obligations.ResolveSlotIsModThree : Prop :=
  ∀ (s : State) (center : Slot) (k : Offset), s.cfg.legal = true →
    ∃ r : Slot, exec (.resolveSlot center k) s = .next { s with answer := .slot r } ∧
      (k = .minus → r.val = (center.val + 2) % 3) ∧
      (k = .zero → r = center) ∧
      (k = .plus → r.val = (center.val + 1) % 3)

/-- R94: for every centre the three offsets reach the three slots, each once. -/
def Obligations.OffsetsReachAllSlots : Prop :=
  ∀ center slot : Slot, ∃ k : Offset, resolveSlot center k = slot ∧ ∀ k', resolveSlot center k' = slot → k' = k

/-- R93: the WPR writes of one row, beat by beat, are together one RING.WRITE of the unpacked Row. -/
def Obligations.BeatWritesMakeOneRow : Prop :=
  ∀ (cfg : Config) (ring : Ring) (slot : Slot) (ws : List Word), cfg.legal = true → ring.wf cfg = true →
    ws.length = cfg.wpr →
    (List.range cfg.wpr).foldl (fun r m => r.writePixels4 slot m (unpack (ws.getD m 0))) ring =
      ring.write slot (unpackRow ws)

/-! ## MedianWindow (42_medianwindow.md) -/

/-- R101 SAMPLE: the ring Pixel of slot RESOLVESLOT(center, k) at column i + l, formed without wrap-around, or 0
outside 0..W-1. -/
def Obligations.SampleReadsOrPads : Prop :=
  ∀ (s : State) (center : Slot) (k : Offset) (i : Nat) (l : Offset), s.cfg.legal = true → i < s.cfg.w →
    ∃ p : Pixel, exec (.sample center k i l) s = .next { s with answer := .pixel p } ∧
      (l = .minus → p = if i = 0 then 0 else s.ring.pixel (resolveSlot center k) (i - 1)) ∧
      (l = .zero → p = s.ring.pixel (resolveSlot center k) i) ∧
      (l = .plus → p = if i + 1 = s.cfg.w then 0 else s.ring.pixel (resolveSlot center k) (i + 1))

/-- R103 MED9: index 4 of the nine samples sorted ascending as unsigned integers, by whatever sort. -/
def Obligations.MedianIsTheFifthSmallest : Prop :=
  ∀ (s : State) (s0 s1 s2 s3 s4 s5 s6 s7 s8 : Pixel), s.cfg.legal = true →
    ∃ v : Pixel,
      exec (.med9 s0 s1 s2 s3 s4 s5 s6 s7 s8) s = .next { s with answer := .pixel v } ∧
      ∀ t : List Pixel, t.Perm [s0, s1, s2, s3, s4, s5, s6, s7, s8] → t.Pairwise (fun a b => a.toNat ≤ b.toNat) →
        t[4]? = some v

/-- R104 (a), (b), (e): every ordering gives the same result, the result is one of the samples, and nine equal samples
give that value. -/
def Obligations.MedianSelectsWhateverTheOrder : Prop :=
  (∀ l l' : List Pixel, l.Perm l' → medianOf l = medianOf l') ∧
  (∀ l : List Pixel, l.length = 9 → medianOf l ∈ l) ∧
  (∀ v : Pixel, medianOf (List.replicate 9 v) = v)

/-- R104 (c), (d): the median is at most v exactly if at least five samples are, at least v exactly if at least five
are, and it is the only sample with both. -/
def Obligations.MedianByCounting : Prop :=
  ∀ (l : List Pixel) (v : Pixel), l.length = 9 →
    ((medianOf l).toNat ≤ v.toNat ↔ 5 ≤ l.countP fun p => decide (p.toNat ≤ v.toNat)) ∧
    (v.toNat ≤ (medianOf l).toNat ↔ 5 ≤ l.countP fun p => decide (v.toNat ≤ p.toNat)) ∧
    (medianOf l = v ↔ v ∈ l ∧ 5 ≤ (l.countP fun p => decide (p.toNat ≤ v.toNat)) ∧
      5 ≤ l.countP fun p => decide (v.toNat ≤ p.toNat))

/-- R104 (f): raising samples never lowers the result. -/
def Obligations.MedianIsMonotone : Prop :=
  ∀ l l' : List Pixel, l.length = 9 → List.Forall₂ (fun a b : Pixel => a.toNat ≤ b.toNat) l l' →
    (medianOf l).toNat ≤ (medianOf l').toNat

/-- 93_implementation_defined.md G1: the 19-comparator network gives the median. General knowledge, not normative. -/
def Obligations.NetworkGivesTheMedian : Prop :=
  ∀ s0 s1 s2 s3 s4 s5 s6 s7 s8 : Pixel,
    networkMedian s0 s1 s2 s3 s4 s5 s6 s7 s8 = med9 s0 s1 s2 s3 s4 s5 s6 s7 s8

/-- R105 FILTPIX: the median of the nine samples that SAMPLE gives around column i. -/
def Obligations.FiltPixIsTheMedianOfItsWindow : Prop :=
  ∀ (s : State) (center : Slot) (i : Nat), s.cfg.legal = true → i < s.cfg.w →
    ∃ smp : Offset → Offset → Pixel,
      (∀ k l, exec (.sample center k i l) s = .next { s with answer := .pixel (smp k l) }) ∧
      exec (.filtPix center i) s = .next { s with
        answer := .pixel (med9
          (smp .minus .minus) (smp .minus .zero) (smp .minus .plus)
          (smp .zero .minus) (smp .zero .zero) (smp .zero .plus)
          (smp .plus .minus) (smp .plus .zero) (smp .plus .plus)) }

/-- R106 FILTROW: the Row of W Pixels whose column i is FILTPIX of column i. -/
def Obligations.FiltRowIsFiltPixPerColumn : Prop :=
  ∀ (s : State) (center : Slot), s.cfg.legal = true →
    ∃ f : Row, exec (.filtRow center) s = .next { s with answer := .row f } ∧ f.length = s.cfg.w ∧
      ∀ i, i < s.cfg.w → exec (.filtPix center i) s = .next { s with answer := .pixel (f.getD i 0) }

/-- R108, R109: FILTROW does not depend on the centre, equals FILT3 of the three slots, and FILT3 is symmetric. -/
def Obligations.FilterIgnoresTheCentre : Prop :=
  (∀ (cfg : Config) (ring : Ring) (center : Slot),
    filtRowAt cfg ring center = filt3 cfg ring.slot0 ring.slot1 ring.slot2) ∧
  (∀ (cfg : Config) (a b c : Row), filt3 cfg a b c = filt3 cfg b a c ∧ filt3 cfg a b c = filt3 cfg a c b)

/-- R111 (a), (c), (d), (e): two zero Rows give ZERO_ROW; three uniform Rows stay; one zero Row beside two uniform ones
blacks out the two end columns only; and one zero Row beside any two gives 0 at every column around which fewer than
five of their six Pixels, padded, are other than 0. -/
def Obligations.SpecialRowsOfTheFilter : Prop :=
  ∀ (cfg : Config) (v : Pixel) (r : Row), cfg.legal = true →
    filt3 cfg cfg.zeroRow cfg.zeroRow r = cfg.zeroRow ∧
    filt3 cfg cfg.zeroRow r cfg.zeroRow = cfg.zeroRow ∧
    filt3 cfg (List.replicate cfg.w v) (List.replicate cfg.w v) (List.replicate cfg.w v) = List.replicate cfg.w v ∧
    filt3 cfg cfg.zeroRow (List.replicate cfg.w v) (List.replicate cfg.w v) =
      [0] ++ List.replicate (cfg.w - 2) v ++ [0] ∧
    ∀ (a b : Row) (i : Nat), i < cfg.w →
      ([pad cfg.w a ((i : Int) - 1), pad cfg.w a i, pad cfg.w a ((i : Int) + 1),
        pad cfg.w b ((i : Int) - 1), pad cfg.w b i, pad cfg.w b ((i : Int) + 1)] : List Pixel).countP
          (fun p => decide (p ≠ 0)) < 5 →
      (filt3 cfg cfg.zeroRow a b).getD i 0 = 0

/-- R111 (f), R161, 95 E5: an isolated bright Pixel never survives: three Rows with at most four Pixels other than 0
between them give ZERO_ROW. -/
def Obligations.FewBrightPixelsAreRemoved : Prop :=
  ∀ (cfg : Config) (a b c : Row), (a ++ b ++ c).countP (fun p => decide (p ≠ 0)) ≤ 4 → filt3 cfg a b c = cfg.zeroRow

/-- R107, R50, R80, R81, R92: the frame of the eight operations that only answer. -/
def Obligations.AnsweringOperationsChangeNothingElse : Prop :=
  ∀ (i : Instr) (s t : State),
    (∀ slot row, i ≠ .ringWrite slot row) → (∀ w, i ≠ .recvw w) → i ≠ .zerorow → i ≠ .emitw →
    (∀ x, i ≠ .rowstep x) → (∀ rows, i ≠ .pass rows) →
    exec i s = .next t → t = { s with answer := t.answer }

/-! ## FilterEngine, beat by beat (43_filterengine.md section 3) -/

/-- R125 RECVW, with R140: with channel A empty (or without a whole Word) it waits; otherwise what one input beat does:
the Word is taken, four Pixels of the target slot and nothing else of the ring are written, the counter goes on, and the
last beat of the row rotates `nRow` and goes to EMIT. In the one step that sends nothing (R140, the spec's decision D4:
step 0 under RATE_PRESERVING) the last beat stays in LOAD and begins the next step. That waiting answers the same state
is the model's choice, log 16. -/
def Obligations.RecvwTakesOneWord : Prop :=
  (∀ (s : State) (w : Word), s.cfg.legal = true → s.chanA.length < 4 → exec (.recvw w) s = .next s) ∧
  ∀ (s : State) (w : Word), s.Legal → s.phase = .load → s.j < s.cfg.jLast → bytesOfWord w <+: s.chanA →
    ∃ t, exec (.recvw w) s = .next t ∧
      t.chanA = s.chanA.drop 4 ∧ t.chanB = s.chanB ∧ SameRest s t ∧
      (targetSlot s.nRow).val = (s.nRow.val + 1) % 3 ∧
      (∀ n, n < 4 → t.ring.pixel (targetSlot s.nRow) (4 * s.c + n) = w.extractLsb' (8 * n) 8) ∧
      (∀ (slot : Slot) (x : Nat), ¬ (slot = targetSlot s.nRow ∧ 4 * s.c ≤ x ∧ x < 4 * s.c + 4) →
        t.ring.pixel slot x = s.ring.pixel slot x) ∧
      (s.c < s.cfg.wpr - 1 → t.c = s.c + 1 ∧ t.nRow = s.nRow ∧ t.j = s.j ∧ t.phase = .load) ∧
      (s.c = s.cfg.wpr - 1 → t.c = 0 ∧ t.nRow = targetSlot s.nRow ∧
        (stepEmits s.cfg s.j = true → t.phase = .emit ∧ t.j = s.j) ∧
        (stepEmits s.cfg s.j = false → t.phase = .load ∧ t.j = s.j + 1))

/-- R37, R93: a row half loaded: after k beats from a step's start exactly the Pixels 0..4k-1 of the target slot are the
new ones, byte for byte as they stood in channel A, and every other Pixel of the ring is as it was. That Pixel x is
byte x of channel A rests on R48, the spec's decision D3 (log 13). -/
def Obligations.HalfLoadedRowIsNewBelowFourC : Prop :=
  ∀ (s : State) (k : Nat), s.Legal → s.phase = .load → s.j < s.cfg.jLast → s.c = 0 → k < s.cfg.wpr →
    4 * k ≤ s.chanA.length →
    ∃ t, turns k s = .next t ∧ t.c = k ∧ t.phase = .load ∧ t.j = s.j ∧ t.nRow = s.nRow ∧
      t.chanA = s.chanA.drop (4 * k) ∧ t.chanB = s.chanB ∧
      ∀ (slot : Slot) (x : Nat), t.ring.pixel slot x =
        if slot = targetSlot s.nRow ∧ x < 4 * k then s.chanA.getD x 0 else s.ring.pixel slot x

/-- R127 ZEROROW: the target slot becomes ZERO_ROW, `nRow` rotates to it and MF3 goes to EMIT; no port and no other slot
is involved, and it needs nothing from any other agent. -/
def Obligations.ZerorowClearsTheTargetSlot : Prop :=
  ∀ s : State, s.Legal → s.phase = .load → s.j = s.cfg.jLast →
    ∃ t, exec .zerorow s = .next t ∧
      t.chanA = s.chanA ∧ t.chanB = s.chanB ∧ SameRest s t ∧
      t.ring.read (targetSlot s.nRow) = s.cfg.zeroRow ∧
      (∀ slot : Slot, slot ≠ targetSlot s.nRow → t.ring.read slot = s.ring.read slot) ∧
      t.c = 0 ∧ t.nRow = targetSlot s.nRow ∧ t.phase = .emit ∧ t.j = s.j

/-- R128 EMITW, with R136 for the clearing: the Word sent, and the end of the row, the step and the pass. That a channel
of depth 0 takes a Word while the Consumer runs is the model's choice, log 10. -/
def Obligations.EmitwSendsOneWord : Prop :=
  ∀ s : State, s.Legal → s.phase = .emit → s.HasRoomForWord →
    ∃ t, exec .emitw s = .next t ∧
      t.chanB = s.chanB ++ bytesOfWord (pack
        (filtPixAt s.cfg s.ring s.nRow (4 * s.c)) (filtPixAt s.cfg s.ring s.nRow (4 * s.c + 1))
        (filtPixAt s.cfg s.ring s.nRow (4 * s.c + 2)) (filtPixAt s.cfg s.ring s.nRow (4 * s.c + 3))) ∧
      t.chanA = s.chanA ∧ SameRest s t ∧ t.nRow = s.nRow ∧
      (s.c < s.cfg.wpr - 1 → t.c = s.c + 1 ∧ t.j = s.j ∧ t.phase = .emit) ∧
      (s.c = s.cfg.wpr - 1 → t.c = 0 ∧ t.phase = .load ∧ t.j = if s.j < s.cfg.jLast then s.j + 1 else 0) ∧
      (s.c < s.cfg.wpr - 1 ∨ s.j < s.cfg.jLast ∨ s.cfg.resetRingPerPass = false → t.ring = s.ring) ∧
      (s.c = s.cfg.wpr - 1 → s.j = s.cfg.jLast → s.cfg.resetRingPerPass = true →
        ∀ slot : Slot, t.ring.read slot = s.cfg.zeroRow)

/-- R45, R142: an operation of the sequencer that is not enabled changes nothing. The model's choices in it: RECVW on
another Word than the head of channel A is not enabled, and when ROWSTEP and PASS, which are their beats seen whole,
count as enabled (log 11); when a channel B of depth 0 has room for EMITW (log 10); that waiting answers the same state
(log 16). -/
def Obligations.DisabledOperationsWait : Prop :=
  ∀ s : State, s.cfg.legal = true →
    (∀ w, (s.phase = .emit ∨ s.cfg.jLast ≤ s.j ∨ ¬ bytesOfWord w <+: s.chanA) → exec (.recvw w) s = .next s) ∧
    ((s.phase = .emit ∨ s.j ≠ s.cfg.jLast) → exec .zerorow s = .next s) ∧
    ((s.phase = .load ∨ ¬ s.HasRoomForWord) → exec .emitw s = .next s) ∧
    (∀ x, x.length = s.cfg.w → (s.phase = .emit ∨ s.c ≠ 0 ∨ ¬ s.StepRowIs x ∨
      (stepEmits s.cfg s.j = true ∧ ¬ s.HasRoomForWords s.cfg.wpr)) → exec (.rowstep x) s = .next s) ∧
    (∀ rows, rows.length = s.cfg.rowsIn → (∀ r ∈ rows, r.length = s.cfg.w) →
      (s.phase = .emit ∨ s.j ≠ 0 ∨ s.c ≠ 0 ∨ ¬ rows.flatMap rowBytes <+: s.chanA ∨
        ¬ s.HasRoomForWords (s.cfg.rowsOut * s.cfg.wpr)) → exec (.pass rows) s = .next s)

/-! ## Steps and passes seen whole (R129, R131 to R134, R140) -/

/-- R129 ROWSTEP: the step's Row goes to the target slot, `nRow` rotates, and FILT3 of the last three Rows loaded is
sent, unless the step sends nothing (R140); at the end of a pass the ring is cleared if so configured (R136). That it
asks for room for the whole Row at its start is the model's choice, log 11. -/
def Obligations.RowstepFiltersTheLastThreeRows : Prop :=
  ∀ (s : State) (x : Row), s.Legal → s.phase = .load → s.c = 0 → x.length = s.cfg.w → s.StepRowIs x →
    (stepEmits s.cfg s.j = true → s.HasRoomForWords s.cfg.wpr) →
    ∃ t, exec (.rowstep x) s = .next t ∧
      t.chanA = (if s.j < s.cfg.jLast then s.chanA.drop s.cfg.w else s.chanA) ∧
      t.chanB = s.chanB ++ (if stepEmits s.cfg s.j then
        rowBytes (filt3 s.cfg (s.ring.read (s.nRow + 2)) (s.ring.read s.nRow) x) else []) ∧
      t.nRow = s.nRow + 1 ∧ t.phase = .load ∧ t.c = 0 ∧ t.j = (if s.j < s.cfg.jLast then s.j + 1 else 0) ∧
      SameRest s t ∧
      (s.j < s.cfg.jLast ∨ s.cfg.resetRingPerPass = false →
        t.ring.read (s.nRow + 1) = x ∧ t.ring.read s.nRow = s.ring.read s.nRow ∧
        t.ring.read (s.nRow + 2) = s.ring.read (s.nRow + 2)) ∧
      (s.j = s.cfg.jLast → s.cfg.resetRingPerPass = true → ∀ slot : Slot, t.ring.read slot = s.cfg.zeroRow)

/-- R129: "WPR beats of RECVW (or one ZEROROW) followed by WPR beats of EMITW, and it has exactly their combined
effect": the step seen whole is the run of its beats. -/
def Obligations.RowstepIsTheRunOfItsBeats : Prop :=
  ∀ (s : State) (x : Row), s.Legal → s.phase = .load → s.c = 0 → x.length = s.cfg.w → s.StepRowIs x →
    (stepEmits s.cfg s.j = true → s.HasRoomForWords s.cfg.wpr) → s.moves = [] →
    turns s.stepTurns s = exec (.rowstep x) s

/-- R131, R132, R133, R134: the closed form of one LITERAL pass from any state at its start: H Rows are sent, row t the
FILT3 of the Rows loaded by the steps t-2, t-1 and t, the two Rows before the pass being those the ring still holds. -/
def Obligations.LiteralPassOutput : Prop :=
  ∀ (s : State) (rows : List Row), s.Legal → s.cfg.schedule = .literal → s.phase = .load → s.j = 0 → s.c = 0 →
    rows.length = s.cfg.h - 1 → (∀ r ∈ rows, r.length = s.cfg.w) → rows.flatMap rowBytes <+: s.chanA →
    s.HasRoomForWords (s.cfg.h * s.cfg.wpr) →
    ∃ t, exec (.pass rows) s = .next t ∧
      t.chanA = s.chanA.drop ((s.cfg.h - 1) * s.cfg.w) ∧
      t.chanB = s.chanB ++ (medianRows s.cfg (s.rowsSeen rows) 0 s.cfg.h).flatMap rowBytes ∧
      t.phase = .load ∧ t.j = 0 ∧ t.c = 0 ∧ t.nRow.val = (s.nRow.val + s.cfg.h) % 3 ∧ SameRest s t ∧
      (s.cfg.resetRingPerPass = false → t.ring.read t.nRow = s.cfg.zeroRow ∧
        t.ring.read (t.nRow + 2) = (s.rowsSeen rows).getD s.cfg.h [])

/-- R140: the closed form of one RATE_PRESERVING pass from any state at its start: step 0 sends nothing, and where the
ring's newest Row is ZERO_ROW, as after reset and after every pass, output row r is the zero-padded 3x3 median of the
pass's H-row image at row r, with no residue. -/
def Obligations.RatePreservingPassOutput : Prop :=
  ∀ (s : State) (rows : List Row), s.Legal → s.cfg.schedule = .ratePreserving → s.phase = .load → s.j = 0 → s.c = 0 →
    rows.length = s.cfg.h → (∀ r ∈ rows, r.length = s.cfg.w) → rows.flatMap rowBytes <+: s.chanA →
    s.HasRoomForWords (s.cfg.h * s.cfg.wpr) →
    ∃ t, exec (.pass rows) s = .next t ∧
      t.chanA = s.chanA.drop (s.cfg.h * s.cfg.w) ∧
      t.chanB = s.chanB ++ (medianRows s.cfg (s.rowsSeen rows) 1 s.cfg.h).flatMap rowBytes ∧
      (s.ring.read s.nRow = s.cfg.zeroRow → t.chanB = s.chanB ++
        (medianRows s.cfg ([s.cfg.zeroRow] ++ rows ++ [s.cfg.zeroRow]) 0 s.cfg.h).flatMap rowBytes) ∧
      t.phase = .load ∧ t.j = 0 ∧ t.c = 0 ∧ t.nRow.val = (s.nRow.val + s.cfg.h + 1) % 3 ∧ SameRest s t ∧
      t.ring.read t.nRow = s.cfg.zeroRow

/-- R132, R135: the closed form of any number of LITERAL passes, beat by beat, from any state at a pass start, with an
unbounded channel B and no clearing: n(H-1) Rows in, nH Rows out, Row t of them FILT3(X_(t-2), X_(t-1), X_t). -/
def Obligations.WholeStreamClosedForm : Prop :=
  ∀ (s : State) (passes : List (List Row)), s.Legal → s.cfg.schedule = .literal → s.cfg.resetRingPerPass = false →
    s.cfg.depthB = none → s.phase = .load → s.j = 0 → s.c = 0 → s.moves = [] →
    (∀ rows ∈ passes, rows.length = s.cfg.h - 1 ∧ ∀ r ∈ rows, r.length = s.cfg.w) →
    s.chanA = passes.flatMap (fun rows => rows.flatMap rowBytes) →
    ∃ t, turns (passes.length * s.cfg.passTurns) s = .next t ∧ t.chanA = [] ∧
      t.phase = .load ∧ t.j = 0 ∧ t.c = 0 ∧
      t.chanB = s.chanB ++ (medianRows s.cfg
        ([s.ring.read (s.nRow + 2), s.ring.read s.nRow] ++ passes.flatMap (fun rows => rows ++ [s.cfg.zeroRow]))
        0 (passes.length * s.cfg.h)).flatMap rowBytes

/-- R131, R140: a pass seen whole is the run of its beats. -/
def Obligations.PassIsTheRunOfItsBeats : Prop :=
  ∀ (s : State) (rows : List Row), s.Legal → s.phase = .load → s.j = 0 → s.c = 0 →
    rows.length = s.cfg.rowsIn → (∀ r ∈ rows, r.length = s.cfg.w) → rows.flatMap rowBytes <+: s.chanA →
    s.HasRoomForWords (s.cfg.rowsOut * s.cfg.wpr) → s.moves = [] →
    turns s.cfg.passTurns s = exec (.pass rows) s

/-! ## The sequencer and the machine (R130, R138, R140, R170) -/

/-- A step runs the operation its position selects (R130): the decoded beat in a LOAD position of a real Row, ZEROROW,
or EMITW; with MF3's turn at the head of the moves the step takes that move away first. The last clause is about
withFetchWord, the model's own placement of a Word where MF3 takes its next one (log 4): the step runs RECVW of it. -/
def Obligations.StepRunsTheSelectedOperation : Prop :=
  ∀ s : State, s.cfg.legal = true →
    (s.moves = [] → step s = mf3Turn s) ∧
    (∀ ms, s.moves = .mf3 :: ms → step s = mf3Turn { s with moves := ms }) ∧
    (∀ i rest, s.phase = .load → s.j < s.cfg.jLast → decode s.chanA = .ok (i, rest) → mf3Turn s = exec i s) ∧
    (s.phase = .load → s.j = s.cfg.jLast → mf3Turn s = exec .zerorow s) ∧
    (s.phase = .emit → mf3Turn s = exec .emitw s) ∧
    (∀ w : Nat, step (s.withFetchWord 32 w) =
      exec (.recvw (BitVec.ofNat 32 w)) { s.withFetchWord 32 w with moves := s.moves })

/-- R130: the successor of every position under LITERAL, with the operation that runs there, and waiting where it is
not enabled. When a channel B of depth 0 has room for EMITW is the model's choice, log 10; that waiting is a step to the
same state, log 16. -/
def Obligations.LiteralSequencerTable : Prop :=
  ∀ s : State, s.Legal → s.cfg.schedule = .literal → s.moves = [] →
    (s.phase = .load → s.j < s.cfg.h - 1 → s.chanA.length < 4 → step s = .next s) ∧
    (s.phase = .load → s.j < s.cfg.h - 1 → 4 ≤ s.chanA.length →
      ∃ w t, bytesOfWord w <+: s.chanA ∧ step s = exec (.recvw w) s ∧ step s = .next t ∧
        (s.c < s.cfg.wpr - 1 → t.phase = .load ∧ t.j = s.j ∧ t.c = s.c + 1 ∧ t.nRow = s.nRow) ∧
        (s.c = s.cfg.wpr - 1 → t.phase = .emit ∧ t.j = s.j ∧ t.c = 0 ∧ t.nRow = s.nRow + 1)) ∧
    (s.phase = .load → s.j = s.cfg.h - 1 → s.c = 0 ∧
      ∃ t, step s = exec .zerorow s ∧ step s = .next t ∧
        t.phase = .emit ∧ t.j = s.cfg.h - 1 ∧ t.c = 0 ∧ t.nRow = s.nRow + 1) ∧
    (s.phase = .emit → ¬ s.HasRoomForWord → step s = .next s) ∧
    (s.phase = .emit → s.HasRoomForWord →
      ∃ t, step s = exec .emitw s ∧ step s = .next t ∧ t.nRow = s.nRow ∧
        (s.c < s.cfg.wpr - 1 → t.phase = .emit ∧ t.j = s.j ∧ t.c = s.c + 1 ∧ t.ring = s.ring) ∧
        (s.c = s.cfg.wpr - 1 → s.j < s.cfg.h - 1 →
          t.phase = .load ∧ t.j = s.j + 1 ∧ t.c = 0 ∧ t.ring = s.ring) ∧
        (s.c = s.cfg.wpr - 1 → s.j = s.cfg.h - 1 → t.phase = .load ∧ t.j = 0 ∧ t.c = 0 ∧
          t.ring = if s.cfg.resetRingPerPass then Ring.zero s.cfg else s.ring))

/-- R140: the changes to the table under RATE_PRESERVING: H Rows are taken, step 0 sends nothing, ZEROROW is at
(LOAD, H, 0), and the pass ends with step H. When a channel B of depth 0 has room for EMITW is the model's choice,
log 10. -/
def Obligations.RatePreservingSequencerTable : Prop :=
  ∀ s : State, s.Legal → s.cfg.schedule = .ratePreserving → s.moves = [] →
    (s.phase = .emit → 1 ≤ s.j) ∧
    (s.phase = .load → s.j < s.cfg.h → 4 ≤ s.chanA.length →
      ∃ w t, step s = exec (.recvw w) s ∧ step s = .next t ∧
        (s.c < s.cfg.wpr - 1 → t.phase = .load ∧ t.j = s.j ∧ t.c = s.c + 1) ∧
        (s.c = s.cfg.wpr - 1 → s.j = 0 → t.phase = .load ∧ t.j = 1 ∧ t.c = 0 ∧ t.nRow = s.nRow + 1) ∧
        (s.c = s.cfg.wpr - 1 → 1 ≤ s.j → t.phase = .emit ∧ t.j = s.j ∧ t.c = 0 ∧ t.nRow = s.nRow + 1)) ∧
    (s.phase = .load → s.j = s.cfg.h →
      ∃ t, step s = exec .zerorow s ∧ step s = .next t ∧ t.phase = .emit ∧ t.j = s.cfg.h ∧ t.c = 0) ∧
    (s.phase = .emit → s.HasRoomForWord →
      ∃ t, step s = exec .emitw s ∧ step s = .next t ∧
        (s.c < s.cfg.wpr - 1 → t.phase = .emit ∧ t.j = s.j ∧ t.c = s.c + 1) ∧
        (s.c = s.cfg.wpr - 1 → t.phase = .load ∧ t.c = 0 ∧ t.j = if s.j < s.cfg.h then s.j + 1 else 0))

/-- R45, R130, R186: on an instance that exists every step has a next state (R170), and MF3's turn leaves the state as
it is exactly where no operation is enabled: waiting for a Word at RECVW or for room at EMITW, never for both. That a
waiting turn is a step to the same state is the model's choice, log 16, and so is when a channel B of depth 0 has room,
log 10. -/
def Obligations.EveryStepCompletesAndWaitsOnlyForAPort : Prop :=
  (∀ s : State, s.cfg.legal = true → ∃ t, step s = .next t) ∧
  (∀ s : State, s.Legal → s.moves = [] →
    (step s = .next s ↔ s.Waits) ∧
    (s.Waits ↔ (s.phase = .load ∧ s.j < s.cfg.jLast ∧ s.chanA.length < 4) ∨ (s.phase = .emit ∧ ¬ s.HasRoomForWord)))

/-- R10, R186, 93 U8, the spec's decision D15: for parameters for which no instance exists none is built, no program is
loaded, and every operation, MF3's turn and every move of another agent is refused, the reset event too. One move alone
has a meaning there: a host start that fails the host's own checks (R175). The form of the refusals is the model's
choice, log 12. -/
def Obligations.NoInstanceIsRefused : Prop :=
  ∀ s : State, (s.cfg.w % 4 ≠ 0 ∨ s.cfg.w < 4 ∨ s.cfg.h < 2) →
    (∀ i : Instr, exec i s = .refused .noInstance) ∧ (s.moves = [] → step s = .refused .noInstance) ∧
    (∀ m ms, s.moves = m :: ms → (∀ available, m = .start available → s.cfg.w % 4 = 0 ∧ available = true) →
      step s = .refused .noInstance) ∧
    buildInstance s.cfg = .refused .noInstance ∧ ∀ ws, loadProgram s.cfg ws = .refused .noInstance

/-- R90, R101, R105, R129, R131: an operand outside the range its rule gives is refused by the operation's name. -/
def Obligations.OperandsOutOfRangeAreRefused : Prop :=
  ∀ s : State, s.cfg.legal = true →
    (∀ slot row, row.length ≠ s.cfg.w → exec (.ringWrite slot row) s = .refused (.illFormed "RING.WRITE")) ∧
    (∀ center k i l, s.cfg.w ≤ i → exec (.sample center k i l) s = .refused (.illFormed "SAMPLE")) ∧
    (∀ center i, s.cfg.w ≤ i → exec (.filtPix center i) s = .refused (.illFormed "FILTPIX")) ∧
    (∀ x, x.length ≠ s.cfg.w → exec (.rowstep x) s = .refused (.illFormed "ROWSTEP")) ∧
    (∀ rows, (rows.length ≠ s.cfg.rowsIn ∨ ∃ r ∈ rows, r.length ≠ s.cfg.w) →
      exec (.pass rows) s = .refused (.illFormed "PASS"))

/-- R20, R21, R24 to R29, R37: every step of every agent keeps the state legal and the configuration (R14). The host's
side keeps in order too (R63, R152 to R155): its Frames are 3 x H Rows of W Pixels, what the Consumer presents
included, its buffers stay within a Row and a Frame, and its record of a reset is right. That the host's contexts are in
the state, and what a start and a teardown clear, is the model's choice, log 8; its record, log 5. -/
def Obligations.EveryStepKeepsTheStateLegal : Prop :=
  ∀ s t : State, s.Legal → step s = .next t → t.Legal ∧ t.cfg = s.cfg ∧ (s.HostLegal → t.HostLegal)

/-- R14, R20, R21: every operation run on its own keeps the state legal and the configuration. -/
def Obligations.EveryOperationKeepsTheStateLegal : Prop :=
  ∀ (i : Instr) (s t : State), s.Legal → exec i s = .next t → t.Legal ∧ t.cfg = s.cfg

/-- R136: with RESET_RING_PER_PASS the ring is ZERO_ROW in all three slots whenever a pass is at its start, and every
step of every agent keeps that so. -/
def Obligations.ClearedRingAtEveryPassStart : Prop :=
  ∀ s t : State, s.Legal → s.cfg.resetRingPerPass = true →
    (s.phase = .load → s.j = 0 → s.c = 0 → s.ring = Ring.zero s.cfg) → step s = .next t →
    (t.phase = .load → t.j = 0 → t.c = 0 → t.ring = Ring.zero t.cfg)

/-- R35, R192, R193: the reset state. W and H are 00_scope.md section 3's (R8), the values of MF3's own state the spec's
decision D7 (log 6). The model's choices: SCHEDULE and RESET_RING_PER_PASS at their defaults (log 1), both channels
unbounded (log 3) and empty (log 5), no move placed (log 4), no answer (log 2), and a Producer and a Consumer that have
not started and hold nothing (log 8); the host's record is that MF3 has been reset (log 5). R186: it is the instance
built of its configuration. -/
def Obligations.ResetStateIsTheSpecs : Prop :=
  State.reset.cfg.w = 640 ∧ State.reset.cfg.h = 480 ∧ State.reset.cfg.schedule = .literal ∧
  State.reset.cfg.resetRingPerPass = false ∧ State.reset.cfg.depthA = none ∧ State.reset.cfg.depthB = none ∧
  (∀ slot : Slot, State.reset.ring.read slot = List.replicate 640 0) ∧
  State.reset.nRow = 0 ∧ State.reset.j = 0 ∧ State.reset.c = 0 ∧ State.reset.phase = .load ∧
  State.reset.chanA = [] ∧ State.reset.chanB = [] ∧ State.reset.moves = [] ∧ State.reset.answer = .none ∧
  State.reset.producer = ⟨.notStarted, [], [], []⟩ ∧ State.reset.consumer = ⟨.notStarted, [], [], []⟩ ∧
  State.reset.resetSinceRun = true ∧ State.reset.Legal ∧ State.reset.HostLegal ∧
  buildInstance State.reset.cfg = .next State.reset

/-- R191, 93 U7: the reset event, in any state of an instance that exists, restores the values of R35, leaves the configuration and the host alone,
and leaves in the channels any bytes at all. That the host keeps a record of the reset is the model's choice, log 5. -/
def Obligations.ResetEventRestoresTheEngine : Prop :=
  ∀ (s : State) (leftA leftB : List Byte) (ms : List Move), s.cfg.legal = true →
    s.moves = .reset leftA leftB :: ms →
    ∃ t, step s = .next t ∧
      (∀ slot : Slot, t.ring.read slot = List.replicate s.cfg.w 0) ∧
      t.nRow = 0 ∧ t.j = 0 ∧ t.c = 0 ∧ t.phase = .load ∧ t.chanA = leftA ∧ t.chanB = leftB ∧
      t.cfg = s.cfg ∧ t.answer = s.answer ∧ t.producer = s.producer ∧ t.consumer = s.consumer ∧
      (t.resetSinceRun = true ↔ s.producer.status ≠ .running ∧ s.consumer.status ≠ .running) ∧ t.moves = ms

/-- R138, the spec's own inference: what cannot be observed: two machines that differ in which slot is called 0 stay so, and their channels stay
equal, whatever move comes next. -/
def Obligations.SlotNamesCannotBeObserved : Prop :=
  ∀ (d : Slot) (s t s' : State), Rotated d s t → step s = .next s' →
    ∃ (d' : Slot) (t' : State), step t = .next t' ∧ Rotated d' s' t'

/-- R59: an enabled beat is a function of the configuration, MF3's state and the Word at port A: two states that agree
on these send the same Word, take the same bytes and reach the same state of MF3, whatever else differs. -/
def Obligations.BeatsDependOnTheEngineAndTheWordOnly : Prop :=
  ∀ s t : State, s.cfg = t.cfg → SameEngine s t → s.chanA.take 4 = t.chanA.take 4 → s.cfg.legal = true →
    s.moves = [] → t.moves = [] → mf3Enabled s = true → mf3Enabled t = true →
    ∃ (s' t' : State) (n : Nat) (sent : List Byte), step s = .next s' ∧ step t = .next t' ∧ SameEngine s' t' ∧
      s'.chanA = s.chanA.drop n ∧ t'.chanA = t.chanA.drop n ∧ s'.chanB = s.chanB ++ sent ∧ t'.chanB = t.chanB ++ sent

/-- R59, R46: what MF3 has sent is settled by what it has taken: with more input waiting behind the same input, the run
of the same number of turns sends the same bytes and perhaps more after them. -/
def Obligations.LaterInputNeverChangesEarlierOutput : Prop :=
  ∀ (s s' : State) (extra : List Byte) (n : Nat), turns n s = .next s' →
    ∃ t', turns n { s with chanA := s.chanA ++ extra } = .next t' ∧ s'.chanB <+: t'.chanB

/-- R45, R46, R50: one turn of MF3 takes a whole Word from the head of channel A or none, and appends a whole Word to
channel B or none, and never both; and it never fills channel B beyond its depth, where a depth 0 counts as the one Word
in hand, the model's choice, log 10. -/
def Obligations.PortsMoveWholeWords : Prop :=
  ∀ s t : State, s.moves = [] → step s = .next t →
    ∃ taken sent : List Byte, s.chanA = taken ++ t.chanA ∧ t.chanB = s.chanB ++ sent ∧
      (taken = [] ∨ (taken.length = 4 ∧ sent = [])) ∧ (sent = [] ∨ (sent.length = 4 ∧ taken = [])) ∧
      (WithinDepth s.cfg.depthB s.chanB → WithinDepth s.cfg.depthB t.chanB)

/-- R161, 95 E6: from an all-zero ring, all-zero input gives all-zero output, under both schedules. -/
def Obligations.AllZeroInputGivesAllZeroOutput : Prop :=
  ∀ s t : State, s.moves = [] → step s = .next t →
    (∀ (slot : Slot) (x : Nat), s.ring.pixel slot x = 0) → (∀ b ∈ s.chanA, b = 0) → (∀ b ∈ s.chanB, b = 0) →
    (∀ (slot : Slot) (x : Nat), t.ring.pixel slot x = 0) ∧ (∀ b ∈ t.chanA, b = 0) ∧ (∀ b ∈ t.chanB, b = 0)

/-- R139: at the end of a finite run under LITERAL MF3 is at a RECVW position. A Consumer that can still take a Word is
a premise, as R139 gives it as the reason. R69: the run of a program, its port B always ready whatever the depths of
the configuration, comes to that end, and has sent whole Words. That the Words of a program stand in channel A and the
Words sent stay in channel B is the model's choice, log 4; what a channel of depth 0 takes, log 10. -/
def Obligations.FiniteRunEndsWaitingForARow : Prop :=
  (∀ s : State, s.Legal → s.cfg.schedule = .literal → s.RunEnded →
    (s.cfg.depthB ≠ some 0 ∨ s.consumer.status = .running) → s.phase = .load ∧ s.j < s.cfg.h - 1) ∧
  ∀ (cfg : Config) (ws : List Word), cfg.legal = true →
    ∃ (s : State) (n : Nat) (t : State), loadProgram cfg ws = .next s ∧ turns n s = .next t ∧ t.ProgramEnded ∧
      t.chanB = bytesOfWords (programWords t) ∧ (cfg.schedule = .literal → t.phase = .load ∧ t.j < cfg.h - 1)

/-- R199, R200: MF3 does not deadlock while it is fed: with a Row waiting and room on channel B, a LITERAL instance
sends a Word within WPR + 1 turns. That a channel B of depth 0 has room while the Consumer runs is the model's choice,
log 10. -/
def Obligations.FedEngineSendsAWordSoon : Prop :=
  ∀ s : State, s.Legal → s.cfg.schedule = .literal → s.cfg.w ≤ s.chanA.length → s.HasRoomForWord →
    ∃ n t, n ≤ s.cfg.wpr + 1 ∧ turns n s = .next t ∧ t.chanB.length = s.chanB.length + 4

/-! ## The environment (44_environment.md, 60_exceptions.md section 2) -/

/-- R22, R156: no move of the environment but the reset touches MF3's own state, its configuration or the answer. R201:
a teardown ends the contexts it names and abandons their Rows in flight. That one context alone can end so, that the
rest of its Frame goes with the Row, that its status is replaced whatever it was, and that the other context and every
byte in the channels stay, is the model's choice, log 8. R160, R191, R194: an emptying of the channels empties both where
neither context runs and, by the host's own record, MF3 has been reset and no context has run since; anywhere else
it loses no byte. That condition is the model's choice, log 5. -/
def Obligations.EnvironmentCannotReachTheEngine : Prop :=
  (∀ (s t : State) (m : Move) (ms : List Move), s.moves = m :: ms → m ≠ .mf3 → (∀ a b, m ≠ .reset a b) →
    step s = .next t → SameEngine s t ∧ t.cfg = s.cfg ∧ t.answer = s.answer ∧ t.moves = ms) ∧
  (∀ (s : State) (ofProducer ofConsumer : Bool) (ms : List Move), s.cfg.legal = true →
    s.moves = .tearDown ofProducer ofConsumer :: ms →
    step s = .next { s with
      producer := if ofProducer then ⟨.tornDown, s.producer.frames, [], []⟩ else s.producer
      consumer := if ofConsumer then ⟨.tornDown, [], [], s.consumer.presented⟩ else s.consumer
      moves := ms }) ∧
  (∀ (s : State) (ms : List Move), s.cfg.legal = true → s.moves = .emptyChannels :: ms →
    (s.producer.status ≠ .running → s.consumer.status ≠ .running → s.resetSinceRun = true →
      step s = .next { s with chanA := [], chanB := [], moves := ms }) ∧
    ((s.producer.status = .running ∨ s.consumer.status = .running ∨ s.resetSinceRun = false) →
      step s = .next { s with moves := ms }))

/-- R46, R151, R153, R154: however its write calls return, the Producer's bytes reach channel A in order, each exactly
once, within the channel's depth, and nothing but channel A and its own context changes. R63: what it has to send of a
Frame is 3 x H Rows of W bytes each, whole Rows beside the one in its scratch buffer. The model's choices: a depth 0 takes
the one Word in hand (log 10), and what is no Frame of the instance is never sent (log 19). -/
def Obligations.ProducerLosesNoByte : Prop :=
  (∀ (s t : State) (r : CallResult) (ms : List Move), s.moves = .producer r :: ms → step s = .next t →
    t.chanA ++ t.producer.pending t.cfg = s.chanA ++ s.producer.pending s.cfg ∧ s.chanA <+: t.chanA ∧
    (WithinDepth s.cfg.depthA s.chanA → WithinDepth s.cfg.depthA t.chanA) ∧
    (∀ f fs, isFrame s.cfg f = false → s.producer = ⟨.running, f :: fs, [], []⟩ →
      t.chanA = s.chanA ∧ t.producer = s.producer) ∧
    t = { s with chanA := t.chanA, producer := t.producer, moves := ms }) ∧
  (∀ (cfg : Config) (f : Frame), cfg.legal = true → isFrame cfg f = true →
    (frameRows f).length = 3 * cfg.h ∧ ∀ r ∈ frameRows f, (rowBytes r).length = cfg.w) ∧
  (∀ s : State, s.cfg.legal = true → s.HostLegal →
    (s.producer.pending s.cfg).length = s.producer.outbox.length + s.producer.rowsLeft.length * s.cfg.w
      + s.producer.frames.length * (3 * s.cfg.h * s.cfg.w))

/-- R46, R152, R155: however its read calls return, the Consumer receives the bytes of channel B in order, each exactly
once, and nothing but channel B and its own context changes. -/
def Obligations.ConsumerLosesNoByte : Prop :=
  ∀ (s t : State) (r : CallResult) (ms : List Move), s.moves = .consumer r :: ms → s.cfg.legal = true →
    s.consumer.got.length < s.cfg.w → s.consumer.rows.length < 3 * s.cfg.h → step s = .next t →
    t.consumer.received ++ t.chanB = s.consumer.received ++ s.chanB ∧
    t.consumer.got.length < s.cfg.w ∧ t.consumer.rows.length < 3 * s.cfg.h ∧
    t = { s with chanB := t.chanB, consumer := t.consumer, moves := ms }

/-- R151, R152: partial transfers and interruptions lose nothing: what was sent and what is left is the buffer, what was
received and what the channel keeps is the channel, and no more than the asked count is received. Calls that do not fail
and together move enough finish the transfer, whatever comes after them; a TransportError is raised exactly if a call
fails, or a read reports zero bytes, while the transfer is unfinished, so never on a transfer of no bytes. That a write
of zero bytes is tried again is the model's choice, log 9. -/
def Obligations.ExactTransfersSurviveSplitting : Prop :=
  (∀ (buffer : List Byte) (calls : List CallResult),
    (sendExact buffer calls).1 ++ (sendExact buffer calls).2.1 = buffer ∧
    (∀ done more, calls = done ++ more → .failed ∉ done → buffer.length ≤ movedTotal done →
      sendExact buffer calls = (buffer, [], false)) ∧
    ((sendExact buffer calls).2.2 = true ↔
      ∃ done more, calls = done ++ .failed :: more ∧ .failed ∉ done ∧ movedTotal done < buffer.length)) ∧
  (∀ (wanted : Nat) (chan : List Byte) (calls : List CallResult),
    (receiveExact wanted chan calls).1 ++ (receiveExact wanted chan calls).2.1 = chan ∧
    (receiveExact wanted chan calls).1.length ≤ wanted ∧
    (∀ done more, calls = done ++ more → .failed ∉ done → .moved 0 ∉ done → wanted ≤ movedTotal done →
      wanted ≤ chan.length → receiveExact wanted chan calls = (chan.take wanted, chan.drop wanted, false)) ∧
    ((receiveExact wanted chan calls).2.2 = true ↔
      ∃ done bad more, calls = done ++ bad :: more ∧ (bad = .failed ∨ bad = .moved 0) ∧
        .failed ∉ done ∧ .moved 0 ∉ done ∧ (movedTotal done < wanted ∨ chan.length < wanted)))

/-- R151, R152, R174, R178: when a TransportError ends a host context, and that an ended context moves no more. An
interrupted call, of the Producer or of the Consumer, moves nothing and is no error. A Consumer reads only while less
than a Row is in its scratch buffer, which every step keeps so (`State.HostLegal`). -/
def Obligations.TransportErrorEndsItsContext : Prop :=
  ∀ (s : State) (ms : List Move), s.cfg.legal = true →
    (s.moves = .producer .failed :: ms → s.producer.status = .running → (s.producer.refill s.cfg).outbox ≠ [] →
      ∃ t, step s = .next t ∧ t.producer.status = .ended .transportError ∧ t.consumer = s.consumer ∧
        t.chanA = s.chanA) ∧
    (∀ r, (r = .failed ∨ r = .moved 0) → s.moves = .consumer r :: ms → s.consumer.status = .running →
      s.consumer.got.length < s.cfg.w →
      ∃ t, step s = .next t ∧ t.consumer.status = .ended .transportError ∧ t.producer = s.producer ∧
        t.chanB = s.chanB) ∧
    (∀ r, s.moves = .producer r :: ms → s.producer.status ≠ .running → step s = .next { s with moves := ms }) ∧
    (∀ r, s.moves = .consumer r :: ms → s.consumer.status ≠ .running → step s = .next { s with moves := ms }) ∧
    (s.moves = .producer .interrupted :: ms →
      ∃ t, step s = .next t ∧ t.chanA = s.chanA ∧ t.producer.status = s.producer.status ∧
        t.producer.pending t.cfg = s.producer.pending s.cfg) ∧
    (s.moves = .consumer .interrupted :: ms →
      ∃ t, step s = .next t ∧ t.chanB = s.chanB ∧ t.consumer.status = s.consumer.status ∧
        (s.consumer.got.length < s.cfg.w → t.consumer = s.consumer))

/-- R175, R194: the host checks W and the channels before any streaming, and starts both contexts or neither. The check
that fails reports a ConfigurationError even where no instance exists, MF3 taking no part (R175). That a start leaves
empty scratch buffers, no Rows of a Frame in hand and the channels as they are, and that it does nothing while a context
runs, is the model's choice, log 8; the host's record that a context has run since the reset, log 5. -/
def Obligations.HostStartChecksTheConfiguration : Prop :=
  ∀ (s : State) (available : Bool) (ms : List Move), s.moves = .start available :: ms →
    (s.cfg.legal = true → (s.producer.status = .running ∨ s.consumer.status = .running) →
      step s = .next { s with moves := ms }) ∧
    (s.producer.status ≠ .running → s.consumer.status ≠ .running → (s.cfg.w % 4 ≠ 0 ∨ available = false) →
      ∃ t, step s = .next t ∧ t.chanA = s.chanA ∧ t.chanB = s.chanB ∧ t.resetSinceRun = s.resetSinceRun ∧
        t.producer.status = .ended .configurationError ∧ t.consumer.status = .ended .configurationError) ∧
    (s.producer.status ≠ .running → s.consumer.status ≠ .running → s.cfg.legal = true → available = true →
      ∃ t, step s = .next t ∧ t.chanA = s.chanA ∧ t.chanB = s.chanB ∧ t.resetSinceRun = false ∧
        t.producer.status = .running ∧ t.consumer.status = .running ∧ t.producer.frames = s.producer.frames ∧
        t.producer.outbox = [] ∧ t.producer.rowsLeft = [] ∧ t.consumer.got = [] ∧ t.consumer.rows = [])

/-- R178, R186: a stuck MF3 is lifted by a step of the Producer or of the Consumer, for every depth of the channels: a
write call that moves a Word, or a read call that takes at least four bytes from a channel B that holds no more than its
depth. How a channel of depth 0 takes and holds a Word is the model's choice, log 10. -/
def Obligations.AHostMoveLiftsTheWait : Prop :=
  (∀ (s : State) (ms : List Move), s.cfg.legal = true → s.phase = .load → s.j < s.cfg.jLast → s.chanA.length < 4 →
    s.moves = .producer (.moved 4) :: ms → s.producer.status = .running → 4 ≤ (s.producer.refill s.cfg).outbox.length →
    ∃ t, step s = .next t ∧ mf3Enabled t = true) ∧
  (∀ (s : State) (n : Nat) (ms : List Move), s.cfg.legal = true → s.phase = .emit → ¬ s.HasRoomForWord →
    WithinDepth s.cfg.depthB s.chanB → s.moves = .consumer (.moved n) :: ms → s.consumer.status = .running →
    4 ≤ n → 4 ≤ s.cfg.w - s.consumer.got.length →
    ∃ t, step s = .next t ∧ mf3Enabled t = true)
end

