-- ==== Sys2Proof/Laws/Params.lean ====
section
/-! SUPPORT. Arithmetic of the parameters of a legal instance. -/

namespace Sys2Proof.Machine

theorem legal_iff (cfg : Config) : cfg.legal = true ↔ cfg.w % 4 = 0 ∧ 4 ≤ cfg.w ∧ 2 ≤ cfg.h := by
  simp [Config.legal, and_assoc]

theorem four_mul_wpr {cfg : Config} (h : cfg.legal = true) : 4 * cfg.wpr = cfg.w := by
  have := (legal_iff cfg).1 h
  simp only [Config.wpr]; omega

theorem wpr_pos {cfg : Config} (h : cfg.legal = true) : 1 ≤ cfg.wpr := by
  have := (legal_iff cfg).1 h
  simp only [Config.wpr]; omega

theorem jLast_literal {cfg : Config} (h : cfg.schedule = .literal) : cfg.jLast = cfg.h - 1 := by
  simp [Config.jLast, h]

theorem jLast_ratePreserving {cfg : Config} (h : cfg.schedule = .ratePreserving) : cfg.jLast = cfg.h := by
  simp [Config.jLast, h]

theorem jLast_pos {cfg : Config} (h : cfg.legal = true) : 1 ≤ cfg.jLast := by
  have := (legal_iff cfg).1 h
  unfold Config.jLast
  split <;> omega

@[simp] theorem stepIsReal_iff (cfg : Config) (j : Nat) : stepIsReal cfg j = true ↔ j < cfg.jLast := by
  simp [stepIsReal]

@[simp] theorem stepIsZero_iff (cfg : Config) (j : Nat) : stepIsZero cfg j = true ↔ j = cfg.jLast := by
  simp [stepIsZero]

@[simp] theorem moreBeats_iff (cfg : Config) (c : Nat) : moreBeats cfg c = true ↔ c < cfg.wpr - 1 := by
  simp [moreBeats]

theorem stepEmits_of_pos (cfg : Config) {j : Nat} (h : 1 ≤ j) : stepEmits cfg j = true := by
  unfold stepEmits
  split
  · rfl
  · simpa using h

theorem stepEmits_jLast {cfg : Config} (h : cfg.legal = true) : stepEmits cfg cfg.jLast = true :=
  stepEmits_of_pos cfg (jLast_pos h)

@[simp] theorem zeroRow_length (cfg : Config) : cfg.zeroRow.length = cfg.w := by simp [Config.zeroRow]

@[simp] theorem isRow_iff (cfg : Config) (r : Row) : cfg.isRow r = true ↔ r.length = cfg.w := by simp [Config.isRow]

end Sys2Proof.Machine
end

