-- ==== Sys2Proof/Laws/State.lean ====
section
/-! SUPPORT. One lemma per field per update of State, and what the reset state holds. -/

namespace Sys2Proof.Machine

@[simp] theorem State.setRing_cfg (s : State) (v : Ring) : (s.setRing v).cfg = s.cfg := rfl
@[simp] theorem State.setRing_ring (s : State) (v : Ring) : (s.setRing v).ring = v := rfl
@[simp] theorem State.setRing_nRow (s : State) (v : Ring) : (s.setRing v).nRow = s.nRow := rfl
@[simp] theorem State.setRing_j (s : State) (v : Ring) : (s.setRing v).j = s.j := rfl
@[simp] theorem State.setRing_c (s : State) (v : Ring) : (s.setRing v).c = s.c := rfl
@[simp] theorem State.setRing_phase (s : State) (v : Ring) : (s.setRing v).phase = s.phase := rfl
@[simp] theorem State.setRing_chanA (s : State) (v : Ring) : (s.setRing v).chanA = s.chanA := rfl
@[simp] theorem State.setRing_chanB (s : State) (v : Ring) : (s.setRing v).chanB = s.chanB := rfl
@[simp] theorem State.setRing_answer (s : State) (v : Ring) : (s.setRing v).answer = s.answer := rfl
@[simp] theorem State.setRing_producer (s : State) (v : Ring) : (s.setRing v).producer = s.producer := rfl
@[simp] theorem State.setRing_consumer (s : State) (v : Ring) : (s.setRing v).consumer = s.consumer := rfl
@[simp] theorem State.setRing_resetSinceRun (s : State) (v : Ring) : (s.setRing v).resetSinceRun = s.resetSinceRun := rfl
@[simp] theorem State.setRing_moves (s : State) (v : Ring) : (s.setRing v).moves = s.moves := rfl
@[simp] theorem State.setNRow_cfg (s : State) (v : Slot) : (s.setNRow v).cfg = s.cfg := rfl
@[simp] theorem State.setNRow_ring (s : State) (v : Slot) : (s.setNRow v).ring = s.ring := rfl
@[simp] theorem State.setNRow_nRow (s : State) (v : Slot) : (s.setNRow v).nRow = v := rfl
@[simp] theorem State.setNRow_j (s : State) (v : Slot) : (s.setNRow v).j = s.j := rfl
@[simp] theorem State.setNRow_c (s : State) (v : Slot) : (s.setNRow v).c = s.c := rfl
@[simp] theorem State.setNRow_phase (s : State) (v : Slot) : (s.setNRow v).phase = s.phase := rfl
@[simp] theorem State.setNRow_chanA (s : State) (v : Slot) : (s.setNRow v).chanA = s.chanA := rfl
@[simp] theorem State.setNRow_chanB (s : State) (v : Slot) : (s.setNRow v).chanB = s.chanB := rfl
@[simp] theorem State.setNRow_answer (s : State) (v : Slot) : (s.setNRow v).answer = s.answer := rfl
@[simp] theorem State.setNRow_producer (s : State) (v : Slot) : (s.setNRow v).producer = s.producer := rfl
@[simp] theorem State.setNRow_consumer (s : State) (v : Slot) : (s.setNRow v).consumer = s.consumer := rfl
@[simp] theorem State.setNRow_resetSinceRun (s : State) (v : Slot) : (s.setNRow v).resetSinceRun = s.resetSinceRun := rfl
@[simp] theorem State.setNRow_moves (s : State) (v : Slot) : (s.setNRow v).moves = s.moves := rfl
@[simp] theorem State.setJ_cfg (s : State) (v : Nat) : (s.setJ v).cfg = s.cfg := rfl
@[simp] theorem State.setJ_ring (s : State) (v : Nat) : (s.setJ v).ring = s.ring := rfl
@[simp] theorem State.setJ_nRow (s : State) (v : Nat) : (s.setJ v).nRow = s.nRow := rfl
@[simp] theorem State.setJ_j (s : State) (v : Nat) : (s.setJ v).j = v := rfl
@[simp] theorem State.setJ_c (s : State) (v : Nat) : (s.setJ v).c = s.c := rfl
@[simp] theorem State.setJ_phase (s : State) (v : Nat) : (s.setJ v).phase = s.phase := rfl
@[simp] theorem State.setJ_chanA (s : State) (v : Nat) : (s.setJ v).chanA = s.chanA := rfl
@[simp] theorem State.setJ_chanB (s : State) (v : Nat) : (s.setJ v).chanB = s.chanB := rfl
@[simp] theorem State.setJ_answer (s : State) (v : Nat) : (s.setJ v).answer = s.answer := rfl
@[simp] theorem State.setJ_producer (s : State) (v : Nat) : (s.setJ v).producer = s.producer := rfl
@[simp] theorem State.setJ_consumer (s : State) (v : Nat) : (s.setJ v).consumer = s.consumer := rfl
@[simp] theorem State.setJ_resetSinceRun (s : State) (v : Nat) : (s.setJ v).resetSinceRun = s.resetSinceRun := rfl
@[simp] theorem State.setJ_moves (s : State) (v : Nat) : (s.setJ v).moves = s.moves := rfl
@[simp] theorem State.setC_cfg (s : State) (v : Nat) : (s.setC v).cfg = s.cfg := rfl
@[simp] theorem State.setC_ring (s : State) (v : Nat) : (s.setC v).ring = s.ring := rfl
@[simp] theorem State.setC_nRow (s : State) (v : Nat) : (s.setC v).nRow = s.nRow := rfl
@[simp] theorem State.setC_j (s : State) (v : Nat) : (s.setC v).j = s.j := rfl
@[simp] theorem State.setC_c (s : State) (v : Nat) : (s.setC v).c = v := rfl
@[simp] theorem State.setC_phase (s : State) (v : Nat) : (s.setC v).phase = s.phase := rfl
@[simp] theorem State.setC_chanA (s : State) (v : Nat) : (s.setC v).chanA = s.chanA := rfl
@[simp] theorem State.setC_chanB (s : State) (v : Nat) : (s.setC v).chanB = s.chanB := rfl
@[simp] theorem State.setC_answer (s : State) (v : Nat) : (s.setC v).answer = s.answer := rfl
@[simp] theorem State.setC_producer (s : State) (v : Nat) : (s.setC v).producer = s.producer := rfl
@[simp] theorem State.setC_consumer (s : State) (v : Nat) : (s.setC v).consumer = s.consumer := rfl
@[simp] theorem State.setC_resetSinceRun (s : State) (v : Nat) : (s.setC v).resetSinceRun = s.resetSinceRun := rfl
@[simp] theorem State.setC_moves (s : State) (v : Nat) : (s.setC v).moves = s.moves := rfl
@[simp] theorem State.setPhase_cfg (s : State) (v : Phase) : (s.setPhase v).cfg = s.cfg := rfl
@[simp] theorem State.setPhase_ring (s : State) (v : Phase) : (s.setPhase v).ring = s.ring := rfl
@[simp] theorem State.setPhase_nRow (s : State) (v : Phase) : (s.setPhase v).nRow = s.nRow := rfl
@[simp] theorem State.setPhase_j (s : State) (v : Phase) : (s.setPhase v).j = s.j := rfl
@[simp] theorem State.setPhase_c (s : State) (v : Phase) : (s.setPhase v).c = s.c := rfl
@[simp] theorem State.setPhase_phase (s : State) (v : Phase) : (s.setPhase v).phase = v := rfl
@[simp] theorem State.setPhase_chanA (s : State) (v : Phase) : (s.setPhase v).chanA = s.chanA := rfl
@[simp] theorem State.setPhase_chanB (s : State) (v : Phase) : (s.setPhase v).chanB = s.chanB := rfl
@[simp] theorem State.setPhase_answer (s : State) (v : Phase) : (s.setPhase v).answer = s.answer := rfl
@[simp] theorem State.setPhase_producer (s : State) (v : Phase) : (s.setPhase v).producer = s.producer := rfl
@[simp] theorem State.setPhase_consumer (s : State) (v : Phase) : (s.setPhase v).consumer = s.consumer := rfl
@[simp] theorem State.setPhase_resetSinceRun (s : State) (v : Phase) : (s.setPhase v).resetSinceRun = s.resetSinceRun := rfl
@[simp] theorem State.setPhase_moves (s : State) (v : Phase) : (s.setPhase v).moves = s.moves := rfl
@[simp] theorem State.setChanA_cfg (s : State) (v : List Byte) : (s.setChanA v).cfg = s.cfg := rfl
@[simp] theorem State.setChanA_ring (s : State) (v : List Byte) : (s.setChanA v).ring = s.ring := rfl
@[simp] theorem State.setChanA_nRow (s : State) (v : List Byte) : (s.setChanA v).nRow = s.nRow := rfl
@[simp] theorem State.setChanA_j (s : State) (v : List Byte) : (s.setChanA v).j = s.j := rfl
@[simp] theorem State.setChanA_c (s : State) (v : List Byte) : (s.setChanA v).c = s.c := rfl
@[simp] theorem State.setChanA_phase (s : State) (v : List Byte) : (s.setChanA v).phase = s.phase := rfl
@[simp] theorem State.setChanA_chanA (s : State) (v : List Byte) : (s.setChanA v).chanA = v := rfl
@[simp] theorem State.setChanA_chanB (s : State) (v : List Byte) : (s.setChanA v).chanB = s.chanB := rfl
@[simp] theorem State.setChanA_answer (s : State) (v : List Byte) : (s.setChanA v).answer = s.answer := rfl
@[simp] theorem State.setChanA_producer (s : State) (v : List Byte) : (s.setChanA v).producer = s.producer := rfl
@[simp] theorem State.setChanA_consumer (s : State) (v : List Byte) : (s.setChanA v).consumer = s.consumer := rfl
@[simp] theorem State.setChanA_resetSinceRun (s : State) (v : List Byte) : (s.setChanA v).resetSinceRun = s.resetSinceRun := rfl
@[simp] theorem State.setChanA_moves (s : State) (v : List Byte) : (s.setChanA v).moves = s.moves := rfl
@[simp] theorem State.setChanB_cfg (s : State) (v : List Byte) : (s.setChanB v).cfg = s.cfg := rfl
@[simp] theorem State.setChanB_ring (s : State) (v : List Byte) : (s.setChanB v).ring = s.ring := rfl
@[simp] theorem State.setChanB_nRow (s : State) (v : List Byte) : (s.setChanB v).nRow = s.nRow := rfl
@[simp] theorem State.setChanB_j (s : State) (v : List Byte) : (s.setChanB v).j = s.j := rfl
@[simp] theorem State.setChanB_c (s : State) (v : List Byte) : (s.setChanB v).c = s.c := rfl
@[simp] theorem State.setChanB_phase (s : State) (v : List Byte) : (s.setChanB v).phase = s.phase := rfl
@[simp] theorem State.setChanB_chanA (s : State) (v : List Byte) : (s.setChanB v).chanA = s.chanA := rfl
@[simp] theorem State.setChanB_chanB (s : State) (v : List Byte) : (s.setChanB v).chanB = v := rfl
@[simp] theorem State.setChanB_answer (s : State) (v : List Byte) : (s.setChanB v).answer = s.answer := rfl
@[simp] theorem State.setChanB_producer (s : State) (v : List Byte) : (s.setChanB v).producer = s.producer := rfl
@[simp] theorem State.setChanB_consumer (s : State) (v : List Byte) : (s.setChanB v).consumer = s.consumer := rfl
@[simp] theorem State.setChanB_resetSinceRun (s : State) (v : List Byte) : (s.setChanB v).resetSinceRun = s.resetSinceRun := rfl
@[simp] theorem State.setChanB_moves (s : State) (v : List Byte) : (s.setChanB v).moves = s.moves := rfl
@[simp] theorem State.setAnswer_cfg (s : State) (v : Answer) : (s.setAnswer v).cfg = s.cfg := rfl
@[simp] theorem State.setAnswer_ring (s : State) (v : Answer) : (s.setAnswer v).ring = s.ring := rfl
@[simp] theorem State.setAnswer_nRow (s : State) (v : Answer) : (s.setAnswer v).nRow = s.nRow := rfl
@[simp] theorem State.setAnswer_j (s : State) (v : Answer) : (s.setAnswer v).j = s.j := rfl
@[simp] theorem State.setAnswer_c (s : State) (v : Answer) : (s.setAnswer v).c = s.c := rfl
@[simp] theorem State.setAnswer_phase (s : State) (v : Answer) : (s.setAnswer v).phase = s.phase := rfl
@[simp] theorem State.setAnswer_chanA (s : State) (v : Answer) : (s.setAnswer v).chanA = s.chanA := rfl
@[simp] theorem State.setAnswer_chanB (s : State) (v : Answer) : (s.setAnswer v).chanB = s.chanB := rfl
@[simp] theorem State.setAnswer_answer (s : State) (v : Answer) : (s.setAnswer v).answer = v := rfl
@[simp] theorem State.setAnswer_producer (s : State) (v : Answer) : (s.setAnswer v).producer = s.producer := rfl
@[simp] theorem State.setAnswer_consumer (s : State) (v : Answer) : (s.setAnswer v).consumer = s.consumer := rfl
@[simp] theorem State.setAnswer_resetSinceRun (s : State) (v : Answer) : (s.setAnswer v).resetSinceRun = s.resetSinceRun := rfl
@[simp] theorem State.setAnswer_moves (s : State) (v : Answer) : (s.setAnswer v).moves = s.moves := rfl
@[simp] theorem State.setProducer_cfg (s : State) (v : Producer) : (s.setProducer v).cfg = s.cfg := rfl
@[simp] theorem State.setProducer_ring (s : State) (v : Producer) : (s.setProducer v).ring = s.ring := rfl
@[simp] theorem State.setProducer_nRow (s : State) (v : Producer) : (s.setProducer v).nRow = s.nRow := rfl
@[simp] theorem State.setProducer_j (s : State) (v : Producer) : (s.setProducer v).j = s.j := rfl
@[simp] theorem State.setProducer_c (s : State) (v : Producer) : (s.setProducer v).c = s.c := rfl
@[simp] theorem State.setProducer_phase (s : State) (v : Producer) : (s.setProducer v).phase = s.phase := rfl
@[simp] theorem State.setProducer_chanA (s : State) (v : Producer) : (s.setProducer v).chanA = s.chanA := rfl
@[simp] theorem State.setProducer_chanB (s : State) (v : Producer) : (s.setProducer v).chanB = s.chanB := rfl
@[simp] theorem State.setProducer_answer (s : State) (v : Producer) : (s.setProducer v).answer = s.answer := rfl
@[simp] theorem State.setProducer_producer (s : State) (v : Producer) : (s.setProducer v).producer = v := rfl
@[simp] theorem State.setProducer_consumer (s : State) (v : Producer) : (s.setProducer v).consumer = s.consumer := rfl
@[simp] theorem State.setProducer_resetSinceRun (s : State) (v : Producer) : (s.setProducer v).resetSinceRun = s.resetSinceRun := rfl
@[simp] theorem State.setProducer_moves (s : State) (v : Producer) : (s.setProducer v).moves = s.moves := rfl
@[simp] theorem State.setConsumer_cfg (s : State) (v : Consumer) : (s.setConsumer v).cfg = s.cfg := rfl
@[simp] theorem State.setConsumer_ring (s : State) (v : Consumer) : (s.setConsumer v).ring = s.ring := rfl
@[simp] theorem State.setConsumer_nRow (s : State) (v : Consumer) : (s.setConsumer v).nRow = s.nRow := rfl
@[simp] theorem State.setConsumer_j (s : State) (v : Consumer) : (s.setConsumer v).j = s.j := rfl
@[simp] theorem State.setConsumer_c (s : State) (v : Consumer) : (s.setConsumer v).c = s.c := rfl
@[simp] theorem State.setConsumer_phase (s : State) (v : Consumer) : (s.setConsumer v).phase = s.phase := rfl
@[simp] theorem State.setConsumer_chanA (s : State) (v : Consumer) : (s.setConsumer v).chanA = s.chanA := rfl
@[simp] theorem State.setConsumer_chanB (s : State) (v : Consumer) : (s.setConsumer v).chanB = s.chanB := rfl
@[simp] theorem State.setConsumer_answer (s : State) (v : Consumer) : (s.setConsumer v).answer = s.answer := rfl
@[simp] theorem State.setConsumer_producer (s : State) (v : Consumer) : (s.setConsumer v).producer = s.producer := rfl
@[simp] theorem State.setConsumer_consumer (s : State) (v : Consumer) : (s.setConsumer v).consumer = v := rfl
@[simp] theorem State.setConsumer_resetSinceRun (s : State) (v : Consumer) : (s.setConsumer v).resetSinceRun = s.resetSinceRun := rfl
@[simp] theorem State.setConsumer_moves (s : State) (v : Consumer) : (s.setConsumer v).moves = s.moves := rfl
@[simp] theorem State.setResetSinceRun_cfg (s : State) (v : Bool) : (s.setResetSinceRun v).cfg = s.cfg := rfl
@[simp] theorem State.setResetSinceRun_ring (s : State) (v : Bool) : (s.setResetSinceRun v).ring = s.ring := rfl
@[simp] theorem State.setResetSinceRun_nRow (s : State) (v : Bool) : (s.setResetSinceRun v).nRow = s.nRow := rfl
@[simp] theorem State.setResetSinceRun_j (s : State) (v : Bool) : (s.setResetSinceRun v).j = s.j := rfl
@[simp] theorem State.setResetSinceRun_c (s : State) (v : Bool) : (s.setResetSinceRun v).c = s.c := rfl
@[simp] theorem State.setResetSinceRun_phase (s : State) (v : Bool) : (s.setResetSinceRun v).phase = s.phase := rfl
@[simp] theorem State.setResetSinceRun_chanA (s : State) (v : Bool) : (s.setResetSinceRun v).chanA = s.chanA := rfl
@[simp] theorem State.setResetSinceRun_chanB (s : State) (v : Bool) : (s.setResetSinceRun v).chanB = s.chanB := rfl
@[simp] theorem State.setResetSinceRun_answer (s : State) (v : Bool) : (s.setResetSinceRun v).answer = s.answer := rfl
@[simp] theorem State.setResetSinceRun_producer (s : State) (v : Bool) : (s.setResetSinceRun v).producer = s.producer := rfl
@[simp] theorem State.setResetSinceRun_consumer (s : State) (v : Bool) : (s.setResetSinceRun v).consumer = s.consumer := rfl
@[simp] theorem State.setResetSinceRun_resetSinceRun (s : State) (v : Bool) : (s.setResetSinceRun v).resetSinceRun = v := rfl
@[simp] theorem State.setResetSinceRun_moves (s : State) (v : Bool) : (s.setResetSinceRun v).moves = s.moves := rfl
@[simp] theorem State.setMoves_cfg (s : State) (v : List Move) : (s.setMoves v).cfg = s.cfg := rfl
@[simp] theorem State.setMoves_ring (s : State) (v : List Move) : (s.setMoves v).ring = s.ring := rfl
@[simp] theorem State.setMoves_nRow (s : State) (v : List Move) : (s.setMoves v).nRow = s.nRow := rfl
@[simp] theorem State.setMoves_j (s : State) (v : List Move) : (s.setMoves v).j = s.j := rfl
@[simp] theorem State.setMoves_c (s : State) (v : List Move) : (s.setMoves v).c = s.c := rfl
@[simp] theorem State.setMoves_phase (s : State) (v : List Move) : (s.setMoves v).phase = s.phase := rfl
@[simp] theorem State.setMoves_chanA (s : State) (v : List Move) : (s.setMoves v).chanA = s.chanA := rfl
@[simp] theorem State.setMoves_chanB (s : State) (v : List Move) : (s.setMoves v).chanB = s.chanB := rfl
@[simp] theorem State.setMoves_answer (s : State) (v : List Move) : (s.setMoves v).answer = s.answer := rfl
@[simp] theorem State.setMoves_producer (s : State) (v : List Move) : (s.setMoves v).producer = s.producer := rfl
@[simp] theorem State.setMoves_consumer (s : State) (v : List Move) : (s.setMoves v).consumer = s.consumer := rfl
@[simp] theorem State.setMoves_resetSinceRun (s : State) (v : List Move) : (s.setMoves v).resetSinceRun = s.resetSinceRun := rfl
@[simp] theorem State.setMoves_moves (s : State) (v : List Move) : (s.setMoves v).moves = v := rfl

end Sys2Proof.Machine
end

