-- ==== Sys2Proof/Laws/Ops.lean ====
section
/-! SUPPORT. What each shared operation can do, said once. -/

namespace Sys2Proof.Machine

/-! ## Outcomes -/

theorem completes_eq_next (s : State) (i : Instr) (m : String) (t u : State) :
    completes s i m t = .next u ↔ s.cfg.legal = true ∧ i.wf s.cfg = true ∧ u = t := by
  by_cases hl : s.cfg.legal = true <;> by_cases hw : i.wf s.cfg = true <;> simp [completes, hl, hw, eq_comm]

theorem completes_of_ok {s : State} {i : Instr} (m : String) (t : State) (hl : s.cfg.legal = true)
    (hw : i.wf s.cfg = true) : completes s i m t = .next t := by
  simp [completes, hl, hw]

@[simp] theorem whenEnabled_true (s t : State) : whenEnabled true s t = t := rfl
@[simp] theorem whenEnabled_false (s t : State) : whenEnabled false s t = s := rfl

/-! ## Slots -/

@[simp] theorem resolveSlot_zero (c : Slot) : resolveSlot c .zero = c := by revert c; decide
@[simp] theorem resolveSlot_plus (c : Slot) : resolveSlot c .plus = c + 1 := by revert c; decide
@[simp] theorem resolveSlot_minus (c : Slot) : resolveSlot c .minus = c + 2 := by revert c; decide
@[simp] theorem targetSlot_eq (c : Slot) : targetSlot c = c + 1 := resolveSlot_plus c

/-! ## The ring store -/

@[simp] theorem Ring.read_write_same (r : Ring) (slot : Slot) (row : Row) : (r.write slot row).read slot = row := by
  fin_cases slot <;> rfl

theorem Ring.read_write_of_ne (r : Ring) {slot slot' : Slot} (row : Row) (h : slot' ≠ slot) :
    (r.write slot row).read slot' = r.read slot' := by
  revert h
  fin_cases slot <;> fin_cases slot' <;> intro h <;> first | rfl | exact absurd rfl h

theorem Ring.ext_read {r r' : Ring} (h : ∀ slot : Slot, r.read slot = r'.read slot) : r = r' := by
  cases r; cases r'
  have h0 := h 0
  have h1 := h 1
  have h2 := h 2
  simp only [Ring.read] at h0 h1 h2
  simp [h0, h1, h2]

theorem Ring.wf_iff (cfg : Config) (r : Ring) : r.wf cfg = true ↔ ∀ slot : Slot, (r.read slot).length = cfg.w := by
  constructor
  · intro h slot
    simp only [Ring.wf, Bool.and_eq_true, isRow_iff] at h
    fin_cases slot
    exacts [h.1.1, h.1.2, h.2]
  · intro h
    simp only [Ring.wf, Bool.and_eq_true, isRow_iff]
    exact ⟨⟨h 0, h 1⟩, h 2⟩

theorem Ring.wf_write {cfg : Config} {r : Ring} (slot : Slot) {row : Row} (hr : r.wf cfg = true)
    (hrow : row.length = cfg.w) : (r.write slot row).wf cfg = true := by
  rw [Ring.wf_iff] at hr ⊢
  intro slot'
  by_cases h : slot' = slot
  · subst h; simpa using hrow
  · rw [Ring.read_write_of_ne _ _ h]; exact hr slot'

theorem Ring.wf_writePixels4 {cfg : Config} {r : Ring} (slot : Slot) (m : Nat) (px : Pixel × Pixel × Pixel × Pixel)
    (hr : r.wf cfg = true) : (r.writePixels4 slot m px).wf cfg = true := by
  refine Ring.wf_write slot hr ?_
  simpa using (Ring.wf_iff cfg r).1 hr slot

@[simp] theorem Ring.read_zero (cfg : Config) (slot : Slot) : (Ring.zero cfg).read slot = cfg.zeroRow := by
  fin_cases slot <;> rfl

@[simp] theorem Ring.wf_zero (cfg : Config) : (Ring.zero cfg).wf cfg = true := by simp [Ring.wf_iff]

/-- R93: outside its four columns of its slot a beat's write leaves every Pixel. -/
theorem Ring.pixel_writePixels4_of_outside (r : Ring) (slot slot' : Slot) (m x : Nat)
    (px : Pixel × Pixel × Pixel × Pixel) (h : ¬ (slot' = slot ∧ 4 * m ≤ x ∧ x < 4 * m + 4)) :
    (r.writePixels4 slot m px).pixel slot' x = r.pixel slot' x := by
  unfold Ring.pixel Ring.writePixels4
  by_cases hs : slot' = slot
  · subst hs
    have hx : ¬ (4 * m ≤ x ∧ x < 4 * m + 4) := fun hc => h ⟨rfl, hc⟩
    simp only [Ring.read_write_same, List.getD_eq_getElem?_getD]
    rw [List.getElem?_set_ne (by omega), List.getElem?_set_ne (by omega), List.getElem?_set_ne (by omega),
      List.getElem?_set_ne (by omega)]
  · rw [Ring.read_write_of_ne _ _ hs]

/-! ## The ports -/

@[simp] theorem holds_iff (chan bs : List Byte) : holds chan bs = true ↔ bs <+: chan := by simp [holds]

theorem accepts_le (depth : Option Nat) (held wanted k : Nat) : accepts depth held wanted k ≤ k := by
  unfold accepts
  split <;> omega

@[simp] theorem length_bytesOfWord (w : Word) : (bytesOfWord w).length = 4 := rfl

@[simp] theorem length_bytesOfWords (ws : List Word) : (bytesOfWords ws).length = 4 * ws.length := by
  induction ws with
  | nil => rfl
  | cons w ws ih =>
    simp only [bytesOfWords, List.flatMap_cons, List.length_append, length_bytesOfWord, List.length_cons] at ih ⊢
    omega

@[simp] theorem bytesOfWords_nil : bytesOfWords [] = [] := rfl
@[simp] theorem bytesOfWords_cons (w : Word) (ws : List Word) :
    bytesOfWords (w :: ws) = bytesOfWord w ++ bytesOfWords ws := rfl

/-- R48: the four bytes of a Word give the Word back. -/
theorem wordOfBytes_of_bytes (w : Word) :
    wordOfBytes (w.extractLsb' 0 8) (w.extractLsb' 8 8) (w.extractLsb' 16 8) (w.extractLsb' 24 8) = w := by
  apply BitVec.eq_of_getLsbD_eq
  intro i hi
  simp only [wordOfBytes, BitVec.getLsbD_append, BitVec.getLsbD_extractLsb']
  split
  · simp [*]
  split
  · rw [show 8 + (i - 8) = i by omega]; simp [*]
  split
  · rw [show 16 + (i - 8 - 8) = i by omega]; simp [*]
  · rw [show 24 + (i - 8 - 8 - 8) = i by omega]
    simp only [Bool.and_eq_right_iff_imp, decide_eq_true_eq]
    omega

/-- R66: a Word's bytes at the head of a channel are decoded as the beat of that Word. -/
theorem decode_bytesOfWord (w : Word) (rest : List Byte) :
    decode (bytesOfWord w ++ rest) = .ok (.recvw w, rest) := by
  simp [bytesOfWord, decode, wordOfBytes_of_bytes]

/-! ## The sequencer's moves -/

section goto
variable (s : State) (p : Phase) (j c : Nat)
@[simp] theorem goto_cfg : (s.goto p j c).cfg = s.cfg := rfl
@[simp] theorem goto_ring : (s.goto p j c).ring = s.ring := rfl
@[simp] theorem goto_nRow : (s.goto p j c).nRow = s.nRow := rfl
@[simp] theorem goto_j : (s.goto p j c).j = j := rfl
@[simp] theorem goto_c : (s.goto p j c).c = c := rfl
@[simp] theorem goto_phase : (s.goto p j c).phase = p := rfl
@[simp] theorem goto_chanA : (s.goto p j c).chanA = s.chanA := rfl
@[simp] theorem goto_chanB : (s.goto p j c).chanB = s.chanB := rfl
@[simp] theorem goto_answer : (s.goto p j c).answer = s.answer := rfl
@[simp] theorem goto_producer : (s.goto p j c).producer = s.producer := rfl
@[simp] theorem goto_consumer : (s.goto p j c).consumer = s.consumer := rfl
@[simp] theorem goto_resetSinceRun : (s.goto p j c).resetSinceRun = s.resetSinceRun := rfl
@[simp] theorem goto_moves : (s.goto p j c).moves = s.moves := rfl
end goto

/-- R125, R127, R140: everything the end of a load does. -/
theorem endLoad_spec (s : State) :
    endLoad s = { s with
      nRow := s.nRow + 1
      c := 0
      phase := if stepEmits s.cfg s.j then .emit else .load
      j := if stepEmits s.cfg s.j then s.j else s.j + 1 } := by
  unfold endLoad
  split <;> simp_all [State.goto, State.setNRow, State.setPhase, State.setJ, State.setC]

/-- R128, R136: everything the end of a step does. -/
theorem endStep_spec (s : State) :
    endStep s = { s with
      c := 0
      phase := .load
      j := if s.j < s.cfg.jLast then s.j + 1 else 0
      ring := if s.j < s.cfg.jLast ∨ s.cfg.resetRingPerPass = false then s.ring else Ring.zero s.cfg } := by
  unfold endStep
  split
  · simp_all [State.goto, State.setPhase, State.setJ, State.setC]
  · cases hr : s.cfg.resetRingPerPass <;>
      simp_all [State.goto, State.setPhase, State.setJ, State.setC, State.setRing]

/-- R125: everything RECVW does when it is enabled. -/
theorem recvwNext_spec (w : Word) (s : State) :
    recvwNext w s = { s with
      chanA := s.chanA.drop 4
      ring := s.ring.writePixels4 (s.nRow + 1) s.c (unpack w)
      c := if s.c < s.cfg.wpr - 1 then s.c + 1 else 0
      nRow := if s.c < s.cfg.wpr - 1 then s.nRow else s.nRow + 1
      phase := if s.c < s.cfg.wpr - 1 then s.phase else if stepEmits s.cfg s.j then .emit else .load
      j := if s.c < s.cfg.wpr - 1 ∨ stepEmits s.cfg s.j = true then s.j else s.j + 1 } := by
  unfold recvwNext
  by_cases h : s.c < s.cfg.wpr - 1
  · simp [moreBeats, h, portRead, State.setChanA, State.setRing, State.setC]
  · simp [moreBeats, h, portRead, State.setChanA, State.setRing, endLoad_spec]

/-- R127: everything ZEROROW does when it is enabled. -/
theorem zerorowNext_spec (s : State) :
    zerorowNext s = { s with
      ring := s.ring.write (s.nRow + 1) s.cfg.zeroRow
      nRow := s.nRow + 1
      c := 0
      phase := if stepEmits s.cfg s.j then .emit else .load
      j := if stepEmits s.cfg s.j then s.j else s.j + 1 } := by
  simp [zerorowNext, endLoad_spec, State.setRing]

/-- R128: everything EMITW does when it is enabled. -/
theorem emitwNext_spec (s : State) :
    emitwNext s = { s with
      chanB := s.chanB ++ bytesOfWord (emitWord s)
      c := if s.c < s.cfg.wpr - 1 then s.c + 1 else 0
      phase := if s.c < s.cfg.wpr - 1 then s.phase else .load
      j := if s.c < s.cfg.wpr - 1 then s.j else if s.j < s.cfg.jLast then s.j + 1 else 0
      ring := if s.c < s.cfg.wpr - 1 ∨ s.j < s.cfg.jLast ∨ s.cfg.resetRingPerPass = false then s.ring
        else Ring.zero s.cfg } := by
  unfold emitwNext
  by_cases h : s.c < s.cfg.wpr - 1
  · simp [moreBeats, h, portWrite, State.setChanB, State.setC]
  · simp [moreBeats, h, portWrite, State.setChanB, endStep_spec]

/-! ## The median -/

theorem insertAsc_perm (p : Pixel) (l : List Pixel) : (insertAsc p l).Perm (p :: l) := by
  induction l with
  | nil => rfl
  | cons q qs ih =>
    unfold insertAsc
    split
    · rfl
    · exact (ih.cons q).trans (List.Perm.swap p q qs)

theorem sortAsc_perm (l : List Pixel) : (sortAsc l).Perm l := by
  induction l with
  | nil => rfl
  | cons p ps ih => exact (insertAsc_perm p _).trans (ih.cons p)

@[simp] theorem sortAsc_length (l : List Pixel) : (sortAsc l).length = l.length := (sortAsc_perm l).length_eq

theorem insertAsc_sorted (p : Pixel) {l : List Pixel} (h : l.Pairwise (fun a b => a.toNat ≤ b.toNat)) :
    (insertAsc p l).Pairwise (fun a b => a.toNat ≤ b.toNat) := by
  induction l with
  | nil => simp [insertAsc]
  | cons q qs ih =>
    have hq := List.pairwise_cons.1 h
    unfold insertAsc
    split
    · rename_i hpq
      refine List.pairwise_cons.2 ⟨fun a ha => ?_, h⟩
      rcases List.mem_cons.1 ha with rfl | ha
      · exact hpq
      · exact hpq.trans (hq.1 a ha)
    · rename_i hpq
      refine List.pairwise_cons.2 ⟨fun a ha => ?_, ih hq.2⟩
      rcases List.mem_cons.1 ((insertAsc_perm p qs).mem_iff.1 ha) with rfl | ha
      · omega
      · exact hq.1 a ha

theorem sortAsc_sorted (l : List Pixel) : (sortAsc l).Pairwise (fun a b => a.toNat ≤ b.toNat) := by
  induction l with
  | nil => simp [sortAsc]
  | cons p ps ih => exact insertAsc_sorted p ih

end Sys2Proof.Machine
end

