-- ==== Sys2Proof/Laws/Environment.lean ====
section
/-! SUPPORT. What the calls and the contexts of the host can do, said once. -/

namespace Sys2Proof.Machine

/-! ## The bytes of a Row and of a Frame -/

theorem length_packRow (r : Row) : (packRow r).length = r.length / 4 := by
  fun_induction packRow r with
  | case1 p0 p1 p2 p3 rest ih => simp only [List.length_cons, ih]; omega
  | case2 r h =>
    match r, h with
    | [], _ => rfl
    | [_], _ => simp
    | [_, _], _ => simp
    | [_, _, _], _ => simp
    | p0 :: p1 :: p2 :: p3 :: rest, h => exact absurd rfl (h p0 p1 p2 p3 rest)

theorem length_rowBytes (r : Row) : (rowBytes r).length = 4 * (r.length / 4) := by
  simp [rowBytes, length_packRow]

theorem length_wordsOfBytes (bs : List Byte) : (wordsOfBytes bs).length = bs.length / 4 := by
  fun_induction wordsOfBytes bs with
  | case1 b0 b1 b2 b3 rest ih => simp only [List.length_cons, ih]; omega
  | case2 bs h =>
    match bs, h with
    | [], _ => rfl
    | [_], _ => simp
    | [_, _], _ => simp
    | [_, _, _], _ => simp
    | b0 :: b1 :: b2 :: b3 :: rest, h => exact absurd rfl (h b0 b1 b2 b3 rest)

theorem length_unpackRow (ws : List Word) : (unpackRow ws).length = 4 * ws.length := by
  induction ws with
  | nil => rfl
  | cons w ws ih =>
    simp only [unpackRow, List.flatMap_cons, List.length_append, List.length_cons] at ih ⊢
    simp only [unpackList, List.length_cons, List.length_nil]
    omega

theorem isPlane_iff (cfg : Config) (rows : List Row) :
    isPlane cfg rows = true ↔ rows.length = cfg.h ∧ ∀ r ∈ rows, r.length = cfg.w := by
  simp [isPlane]

theorem isFrame_iff (cfg : Config) (f : Frame) : isFrame cfg f = true ↔
    isPlane cfg f.plane0 = true ∧ isPlane cfg f.plane1 = true ∧ isPlane cfg f.plane2 = true := by
  simp [isFrame, and_assoc]

/-- R63: a Frame is 3 x H Rows of W Pixels. -/
theorem frameRows_spec {cfg : Config} {f : Frame} (h : isFrame cfg f = true) :
    (frameRows f).length = 3 * cfg.h ∧ ∀ r ∈ frameRows f, r.length = cfg.w := by
  obtain ⟨h0, h1, h2⟩ := (isFrame_iff cfg f).1 h
  rw [isPlane_iff] at h0 h1 h2
  refine ⟨by simp only [frameRows, List.length_append]; omega, fun r hr => ?_⟩
  simp only [frameRows, List.mem_append] at hr
  rcases hr with (hr | hr) | hr
  exacts [h0.2 r hr, h1.2 r hr, h2.2 r hr]

/-- R155: 3 x H Rows of W Pixels are assembled to a Frame. -/
theorem isFrame_assembleFrame {cfg : Config} {rows : List Row} (hl : rows.length = 3 * cfg.h)
    (hr : ∀ r ∈ rows, r.length = cfg.w) : isFrame cfg (assembleFrame cfg.h rows) = true := by
  simp only [isFrame_iff, isPlane_iff, assembleFrame, List.length_take, List.length_drop]
  exact ⟨⟨by omega, fun r h => hr r (List.mem_of_mem_take h)⟩,
    ⟨by omega, fun r h => hr r (List.mem_of_mem_drop (List.mem_of_mem_take h))⟩,
    ⟨by omega, fun r h => hr r (List.mem_of_mem_drop h)⟩⟩

/-! ## The calls -/

@[simp] theorem movedTotal_moved (n : Nat) (rs : List CallResult) : movedTotal (.moved n :: rs) = n + movedTotal rs := rfl
@[simp] theorem movedTotal_interrupted (rs : List CallResult) : movedTotal (.interrupted :: rs) = movedTotal rs := rfl
@[simp] theorem movedTotal_failed (rs : List CallResult) : movedTotal (.failed :: rs) = movedTotal rs := rfl

/-- R151: everything one turn of sendExact's loop does. -/
theorem sendCall_spec (buffer : List Byte) (room : Nat) (r : CallResult) :
    sendCall buffer room r = (buffer.take (min (movedTotal [r]) room), buffer.drop (min (movedTotal [r]) room),
      decide (buffer ≠ [] ∧ r = .failed)) := by
  unfold sendCall
  split
  · simp [*]
  · cases r <;> simp [movedTotal, *]

/-- R152: everything one turn of receiveExact's loop does. -/
theorem receiveCall_spec (wanted : Nat) (chan : List Byte) (r : CallResult) :
    receiveCall wanted chan r = (chan.take (min (movedTotal [r]) wanted), chan.drop (min (movedTotal [r]) wanted),
      decide (wanted ≠ 0 ∧ (r = .failed ∨ r = .moved 0))) := by
  unfold receiveCall
  split
  · simp [*]
  · match r with
    | .moved 0 => simp [movedTotal, *]
    | .moved (n + 1) => simp [movedTotal, *]
    | .interrupted => simp [movedTotal, *]
    | .failed => simp [movedTotal, *]

@[simp] theorem sendExact_of_nothing (calls : List CallResult) : sendExact [] calls = ([], [], false) := by
  cases calls <;> simp [sendExact, sendCall]

@[simp] theorem receiveExact_of_nothing (chan : List Byte) (calls : List CallResult) :
    receiveExact 0 chan calls = ([], chan, false) := by
  cases calls <;> simp [receiveExact, receiveCall]

/-! ## The contexts -/

/-- R154, R158: everything the Producer does before its write call: nothing, or it packs the next Row of the current
Frame, or it takes the next Frame and packs its first Row. A Frame of no Rows is taken and leaves nothing to pack. -/
theorem refill_cases (cfg : Config) (p : Producer) :
    p.refill cfg = p ∨
    (∃ r rs, p.outbox = [] ∧ p.rowsLeft = r :: rs ∧ p.refill cfg = { p with rowsLeft := rs, outbox := rowBytes r }) ∨
    (∃ f fs, p.outbox = [] ∧ p.rowsLeft = [] ∧ p.frames = f :: fs ∧ isFrame cfg f = true ∧
      ((∃ r rs, frameRows f = r :: rs ∧
          p.refill cfg = { p with frames := fs, rowsLeft := rs, outbox := rowBytes r }) ∨
       (frameRows f = [] ∧ p.refill cfg = { p with frames := fs }))) := by
  obtain ⟨st, fr, rl, ob⟩ := p
  cases ob with
  | cons b bs => exact .inl rfl
  | nil =>
    cases rl with
    | cons r rs => exact .inr (.inl ⟨r, rs, rfl, rfl, rfl⟩)
    | nil =>
      cases fr with
      | nil => exact .inl rfl
      | cons f fs =>
        by_cases hf : isFrame cfg f = true
        · refine .inr (.inr ⟨f, fs, rfl, rfl, rfl, hf, ?_⟩)
          cases hrows : frameRows f with
          | nil => exact .inr ⟨rfl, by simp [Producer.refill, hf, hrows]⟩
          | cons r rs => exact .inl ⟨r, rs, rfl, by simp [Producer.refill, hf, hrows]⟩
        · exact .inl (by simp [Producer.refill, hf])

@[simp] theorem refill_status (cfg : Config) (p : Producer) : (p.refill cfg).status = p.status := by
  rcases refill_cases cfg p with h | ⟨r, rs, -, -, h⟩ | ⟨f, fs, -, -, -, -, ⟨r, rs, -, h⟩ | ⟨-, h⟩⟩ <;> rw [h]

/-- R154: packing a Row leaves what is still to send as it is. -/
@[simp] theorem refill_pending (cfg : Config) (p : Producer) : (p.refill cfg).pending cfg = p.pending cfg := by
  rcases refill_cases cfg p with h | ⟨r, rs, ho, hr, h⟩ | ⟨f, fs, ho, hr, hf, hw, ⟨r, rs, hrows, h⟩ | ⟨hrows, h⟩⟩ <;> rw [h]
  · simp [Producer.pending, ho, hr]
  · simp [Producer.pending, ho, hr, hf, hw, hrows]
  · simp [Producer.pending, ho, hr, hf, hw, hrows]

/-- R155: everything the Consumer does with bytes that do not go beyond its Row: they wait for the rest of the Row, or
complete a Row, or complete a Frame too. -/
theorem accept_cases (cfg : Config) (bs : List Byte) (k : Consumer) :
    ((k.got ++ bs).length < cfg.w ∧ k.accept cfg bs = { k with got := k.got ++ bs }) ∨
    (cfg.w ≤ (k.got ++ bs).length ∧
      ((k.rows.length + 1 < 3 * cfg.h ∧ k.accept cfg bs =
          { k with got := [], rows := k.rows ++ [unpackRow (wordsOfBytes (k.got ++ bs))] }) ∨
       (3 * cfg.h ≤ k.rows.length + 1 ∧ k.accept cfg bs =
          { k with
            got := []
            rows := []
            presented := k.presented ++
              [assembleFrame cfg.h (k.rows ++ [unpackRow (wordsOfBytes (k.got ++ bs))])] }))) := by
  by_cases h : (k.got ++ bs).length < cfg.w
  · exact .inl ⟨h, by simp only [Consumer.accept, if_pos h]⟩
  · refine .inr ⟨by omega, ?_⟩
    by_cases h' : k.rows.length + 1 < 3 * cfg.h
    · refine .inl ⟨h', ?_⟩
      simp only [Consumer.accept, if_neg h, List.length_append (as := k.rows), List.length_singleton, if_pos h']
    · refine .inr ⟨by omega, ?_⟩
      simp only [Consumer.accept, if_neg h, List.length_append (as := k.rows), List.length_singleton, if_neg h']

/-- R151, R154, R157, R174: everything the Producer's turn does. -/
theorem producerTurn_cases (r : CallResult) (s : State) :
    (s.producer.status ≠ .running ∧ producerTurn r s = s) ∨
    (s.producer.status = .running ∧ (s.producer.refill s.cfg).outbox = [] ∧
      producerTurn r s = s.setProducer (s.producer.refill s.cfg)) ∨
    (s.producer.status = .running ∧ (s.producer.refill s.cfg).outbox ≠ [] ∧
      ∃ n, n = min (movedTotal [r])
          (accepts s.cfg.depthA s.chanA.length (wantedA s) (s.producer.refill s.cfg).outbox.length) ∧
        producerTurn r s = (s.setChanA (s.chanA ++ (s.producer.refill s.cfg).outbox.take n)).setProducer
          { s.producer.refill s.cfg with
            outbox := (s.producer.refill s.cfg).outbox.drop n
            status := if r = .failed then .ended .transportError else .running }) := by
  by_cases hs : s.producer.status = .running
  · refine .inr ?_
    by_cases ho : (s.producer.refill s.cfg).outbox = []
    · exact .inl ⟨hs, ho, by simp [producerTurn, hs, ho]⟩
    · exact .inr ⟨hs, ho, _, rfl, by simp [producerTurn, hs, ho, sendCall_spec]⟩
  · exact .inl ⟨hs, by simp [producerTurn, hs]⟩

/-- R152, R155, R157, R174: everything the Consumer's turn does. -/
theorem consumerTurn_cases (r : CallResult) (s : State) :
    (s.consumer.status ≠ .running ∧ consumerTurn r s = s) ∨
    (s.consumer.status = .running ∧
      ∃ n, n = min (movedTotal [r]) (s.cfg.w - s.consumer.got.length) ∧
        consumerTurn r s = (s.setChanB (s.chanB.drop n)).setConsumer
          { s.consumer.accept s.cfg (s.chanB.take n) with
            status := if s.consumer.got.length < s.cfg.w ∧ (r = .failed ∨ r = .moved 0) then .ended .transportError
              else .running }) := by
  by_cases hs : s.consumer.status = .running
  · exact .inr ⟨hs, _, rfl, by simp [consumerTurn, hs, receiveCall_spec, Nat.sub_eq_zero_iff_le]⟩
  · exact .inl ⟨hs, by simp [consumerTurn, hs]⟩

/-! ## Instances and programs -/

/-- R186: an instance is built exactly of a legal configuration. -/
theorem buildInstance_eq_next (cfg : Config) (s : State) :
    buildInstance cfg = .next s ↔ cfg.legal = true ∧ s = State.resetOf cfg := by
  by_cases h : cfg.legal = true <;> simp [buildInstance, h, eq_comm]

/-- R69: a program is loaded exactly on a legal configuration. -/
theorem loadProgram_eq_next (cfg : Config) (ws : List Word) (s : State) :
    loadProgram cfg ws = .next s ↔
      cfg.legal = true ∧ s = (State.resetOf { cfg with depthA := none, depthB := none }).setChanA (bytesOfWords ws) := by
  have hl : ({ cfg with depthA := none, depthB := none } : Config).legal = cfg.legal := rfl
  by_cases h : cfg.legal = true <;> simp [loadProgram, buildInstance, hl, h, eq_comm]

end Sys2Proof.Machine
end

