-- ==== Sys2Proof/Laws/PerInstr.lean ====
section
/-! SUPPORT. Statements for every operation as syntax: what bits it has at port A (30_encoding.md R65 to R67). -/

namespace Sys2Proof.Laws.PortBits

open Sys2Proof

/-- R50, R67: an operation that has bits at port A has the four bytes of one Word and no operand that could be out of
range, whatever the instance. -/
def Statement (i : Instr) : Prop :=
  ∀ bs, encode i = some bs → bs.length = 4 ∧ ∀ cfg : Config, i.wf cfg = true

theorem pack (p0 p1 p2 p3 : Pixel) : Statement (.pack p0 p1 p2 p3) := by intro bs h; cases h
theorem unpack (w : Word) : Statement (.unpack w) := by intro bs h; cases h
theorem ringWrite (slot : Slot) (row : Row) : Statement (.ringWrite slot row) := by intro bs h; cases h
theorem ringRead (slot : Slot) : Statement (.ringRead slot) := by intro bs h; cases h
theorem resolveSlot (center : Slot) (k : Offset) : Statement (.resolveSlot center k) := by intro bs h; cases h
theorem sample (center : Slot) (k : Offset) (i : Nat) (l : Offset) : Statement (.sample center k i l) := by
  intro bs h; cases h
theorem med9 (s0 s1 s2 s3 s4 s5 s6 s7 s8 : Pixel) : Statement (.med9 s0 s1 s2 s3 s4 s5 s6 s7 s8) := by
  intro bs h; cases h
theorem filtPix (center : Slot) (i : Nat) : Statement (.filtPix center i) := by intro bs h; cases h
theorem filtRow (center : Slot) : Statement (.filtRow center) := by intro bs h; cases h
theorem recvw (w : Word) : Statement (.recvw w) := by
  intro bs h
  cases h
  exact ⟨rfl, fun _ => rfl⟩
theorem zerorow : Statement .zerorow := by intro bs h; cases h
theorem emitw : Statement .emitw := by intro bs h; cases h
theorem rowstep (x : Row) : Statement (.rowstep x) := by intro bs h; cases h
theorem pass (rows : List Row) : Statement (.pass rows) := by intro bs h; cases h

end Sys2Proof.Laws.PortBits
end

