-- ==== Sys2Proof/Laws/Step.lean ====
section
/-! SUPPORT. What a step can do, said once: the inversion lemmas of MF3's turn and of the step. -/

namespace Sys2Proof.Machine

/-- R45: the named test of room is the condition a statement spells out. -/
theorem roomB_iff {s : State} {n : Nat} (hn : 1 ≤ n) : roomB s n = true ↔ s.HasRoomForWords n := by
  unfold roomB State.HasRoomForWords wantedB accepts
  rcases hd : s.cfg.depthB with _ | _ | d
  · simp
  · by_cases hr : s.consumer.status = .running
    · simp only [hr, if_true, decide_eq_true_eq, reduceCtorEq, false_or, Option.some.injEq, and_true]
      constructor
      · intro h
        refine .inr ⟨trivial, by omega, List.length_eq_zero_iff.1 (by omega)⟩
      · rintro (⟨d, rfl, h⟩ | ⟨_, rfl, h⟩)
        · omega
        · simp [h]
    · simp only [hr, if_false, decide_eq_true_eq, reduceCtorEq, false_or, and_false, or_false]
      constructor
      · intro h; omega
      · rintro ⟨d, h, h'⟩
        cases h; omega
  · have hd' : ∀ k, (some (d + 1) = some k) ↔ k = d + 1 := fun k => by simp [eq_comm]
    simp only [decide_eq_true_eq, reduceCtorEq, false_or, hd']
    constructor
    · intro h
      exact .inl ⟨d + 1, rfl, by omega⟩
    · rintro (⟨k, rfl, h⟩ | ⟨h, -⟩)
      · omega
      · exact h.elim

/-- R48: the bytes of the Word of four bytes are these four. -/
theorem bytesOfWord_wordOfBytes (b0 b1 b2 b3 : Byte) : bytesOfWord (wordOfBytes b0 b1 b2 b3) = [b0, b1, b2, b3] := by
  simp only [bytesOfWord, List.cons.injEq, and_true]
  refine ⟨?_, ?_, ?_, ?_⟩ <;>
  · apply BitVec.eq_of_getLsbD_eq
    intro i hi
    simp only [wordOfBytes, BitVec.getLsbD_extractLsb', BitVec.getLsbD_append, hi, decide_true, Bool.true_and]
    repeat' first | rw [if_pos (by omega)] | rw [if_neg (by omega)]
    congr 1
    omega

/-- R66: what the decoder can read. -/
theorem decode_ok {bs rest : List Byte} {i : Instr} (h : decode bs = .ok (i, rest)) :
    ∃ w, i = .recvw w ∧ bs = bytesOfWord w ++ rest := by
  unfold decode at h
  split at h
  · rename_i b0 b1 b2 b3 rest'
    cases h
    exact ⟨_, rfl, by rw [bytesOfWord_wordOfBytes]; rfl⟩
  · cases h

/-- R130: everything MF3's turn can do when it answers a next state. -/
theorem mf3Turn_cases {s t : State} (h : mf3Turn s = .next t) :
    s.cfg.legal = true ∧
      ((∃ w, recvwEnabled w s = true ∧ t = recvwNext w s) ∨
       (zerorowEnabled s = true ∧ t = zerorowNext s) ∨
       (emitwEnabled s = true ∧ t = emitwNext s) ∨ t = s) := by
  unfold mf3Turn at h
  split at h
  · cases h
  rename_i hl
  have hl : s.cfg.legal = true := by simpa using hl
  refine ⟨hl, ?_⟩
  unfold selectOp at h
  cases hp : s.phase with
  | emit =>
    simp only [hp, exec, execEmitw, completes_eq_next] at h
    cases he : emitwEnabled s <;> simp_all
  | load =>
    simp only [hp] at h
    by_cases hr : stepIsReal s.cfg s.j = true
    · simp only [hr, if_true] at h
      cases hd : decode s.chanA with
      | error e => simp_all
      | ok ir =>
        obtain ⟨i, rest⟩ := ir
        obtain ⟨w, rfl, hb⟩ := decode_ok hd
        simp only [hd, exec, execRecvw, completes_eq_next] at h
        cases he : recvwEnabled w s
        · simp_all
        · exact .inl ⟨w, he, by simpa [he] using h.2.2⟩
    · simp only [hr] at h
      by_cases hz : stepIsZero s.cfg s.j = true
      · simp only [hz, if_true, if_false, Bool.false_eq_true, exec, execZerorow, completes_eq_next] at h
        cases he : zerorowEnabled s <;> simp_all
      · simp_all

/-- R12, R156: everything a step can do when it answers a next state. -/
theorem step_cases {s t : State} (h : step s = .next t) :
    (s.moves = [] ∧ mf3Turn s = .next t) ∨
    (∃ ms, s.moves = .mf3 :: ms ∧ mf3Turn (s.setMoves ms) = .next t) ∨
    (∃ m ms, s.moves = m :: ms ∧ m ≠ .mf3 ∧ (s.cfg.legal = true ∨ needsInstance s.cfg m = false) ∧
      t = envMove m (s.setMoves ms)) := by
  unfold step nextMove at h
  cases hm : s.moves with
  | nil => exact .inl ⟨rfl, by simpa [hm] using h⟩
  | cons m ms =>
    cases m with
    | mf3 => exact .inr (.inl ⟨ms, rfl, by simpa [hm] using h⟩)
    | _ =>
      simp only [hm] at h
      split at h
      · cases h
      · rename_i hn
        refine .inr (.inr ⟨_, ms, rfl, by simp, ?_, by simpa [eq_comm] using h⟩)
        cases hl : s.cfg.legal <;> simp_all

/-- R12: on an instance that exists a move of another agent is made. -/
theorem step_of_move {s : State} {m : Move} {ms : List Move} (hl : s.cfg.legal = true) (h : s.moves = m :: ms)
    (hm : m ≠ .mf3) : step s = .next (envMove m (s.setMoves ms)) := by
  cases m <;> simp_all [step, nextMove]

end Sys2Proof.Machine
end

