-- ==== Sys2Proof/Tests/Slice0.lean ====
section
/-! SUPPORT. Tests of single operations and steps against the vectors of spec/95_test_vectors.md, the checks of WellFormed, and a
concrete state for the hypotheses of every statement that has some. -/

namespace Sys2Proof.Tests

open Sys2Proof Sys2Proof.Machine

/-! ## Small states -/

def nextOf (o : Host.Outcome State Fault Refusal) : Option State :=
  match o with
  | .next t => some t
  | .fault _ => none
  | .refused _ => none

def refusalOf (o : Host.Outcome State Fault Refusal) : Option Refusal :=
  match o with
  | .next _ => none
  | .fault _ => none
  | .refused r => some r

/-- 95 part 2: the instance W = 8, H = 4. -/
def cfg8 : Config := ⟨8, 4, .literal, false, none, none⟩
def cfg8rp : Config := ⟨8, 4, .ratePreserving, false, some 1, some 2⟩
def cfg4 : Config := ⟨4, 3, .literal, false, none, none⟩

def a8 : Row := [1, 2, 3, 4, 5, 6, 7, 8]
def b8 : Row := [9, 10, 11, 12, 13, 14, 15, 16]
def c8 : Row := [17, 18, 19, 20, 21, 22, 23, 24]
def z8 : Row := [0, 0, 0, 0, 0, 0, 0, 0]

/-- The ring of 95 2.3 and 2.5 at a position of the sequencer. -/
def at8 (cfg : Config) (p : Phase) (j c : Nat) (chanA : List Byte) : State :=
  { State.resetOf cfg with ring := ⟨a8, b8, c8⟩, phase := p, j := j, c := c, chanA := chanA }

def start8 : State := at8 cfg8 .load 0 0 (a8 ++ b8 ++ c8)

def p4 : Row := [10, 20, 30, 40]

/-- The host running, one Frame to send, two bytes of a Row already received. -/
def hostState (ms : List Move) : State :=
  { State.resetOf cfg8rp with
    producer := ⟨.running, [⟨[a8, a8, a8, a8], [b8, b8, b8, b8], [c8, c8, c8, c8]⟩], [], []⟩
    consumer := ⟨.running, [1, 2], [], []⟩
    chanB := [3, 4, 5]
    resetSinceRun := false
    moves := ms }

/-! ## PixelCodec: 95 2.1 -/

theorem test_pack : (nextOf (exec (.pack 127 0 255 128) start8)).map State.answer = some (.word 0x80FF007F) := by decide
theorem test_pack_high_byte : pack 0 0 0 1 = 0x01000000 ∧ pack 10 20 30 40 = 0x281E140A := by decide
theorem test_unpack : (nextOf (exec (.unpack 0xDEADBEEF) start8)).map State.answer = some (.pixels 239 190 173 222) := by
  decide
theorem test_packRow : packRow [0, 255, 255, 255, 255, 255, 255, 0] = [0xFFFFFF00, 0x00FFFFFF] := by decide
theorem test_unpackRow : unpackRow [0x0C0B0A09, 0x100F0E0D] = b8 := by decide

/-! ## Decoding: 95 2.1, R60, R65, R66 -/

theorem test_decode_word : decode [0x0A, 0x14, 0x1E, 0x28] = .ok (.recvw 0x281E140A, []) := by decide
theorem test_decode_bits : decode [0b10000001#8, 0b00000010#8, 0b01000000#8, 0b11110000#8, 7#8]
    = .ok (.recvw 0b11110000010000000000001010000001#32, [7#8]) := by decide
theorem test_decode_short : decode [1, 2, 3] = .error (.incompleteWord 3) := by decide
theorem test_decode_no_bits : decodeTableWord 0 0 = none ∧ decodeTableWord 8 2 = none := by decide
theorem test_encode_internal : encode .zerorow = none ∧ encode (.recvw 0x281E140A) = some [0x0A, 0x14, 0x1E, 0x28] := by
  decide

/-! ## RowRing: 95 2.2 -/

theorem test_ring_write : (nextOf (exec (.ringWrite 1 a8) start8)).map State.ring = some ⟨a8, a8, c8⟩ := by decide
theorem test_ring_read : (nextOf (exec (.ringRead 2) start8)).map State.answer = some (.row c8) := by decide
theorem test_resolveSlot : (nextOf (exec (.resolveSlot 0 .minus) start8)).map State.answer = some (.slot 2)
    ∧ resolveSlot 2 .plus = 0 ∧ resolveSlot 1 .minus = 0 ∧ resolveSlot 1 .zero = 1 := by decide
theorem test_writePixels4 : (start8.ring.writePixels4 0 0 (9, 10, 11, 12)).slot0 = [9, 10, 11, 12, 5, 6, 7, 8] := by
  decide

/-! ## MedianWindow: 95 2.3 to 2.5 -/

theorem test_sample_wraps_slots : (nextOf (exec (.sample 0 .minus 3 .zero) start8)).map State.answer
    = some (.pixel 20) := by decide
theorem test_sample_pads : (nextOf (exec (.sample 1 .zero 7 .plus) start8)).map State.answer = some (.pixel 0) := by decide
theorem test_med9_unsigned : (nextOf (exec (.med9 0 1 2 3 200 4 5 6 7) start8)).map State.answer = some (.pixel 4) := by
  decide
theorem test_med9_duplicates : med9 128 127 129 0 255 128 127 129 128 = 128 ∧ med9 255 0 255 0 0 0 255 0 255 = 0 := by
  decide
theorem test_filtPix_edge : (nextOf (exec (.filtPix 1 0) start8)).map State.answer = some (.pixel 2) := by decide
theorem test_filtPix_inside : (nextOf (exec (.filtPix 1 3) start8)).map State.answer = some (.pixel 12) := by decide
theorem test_filtRow : (nextOf (exec (.filtRow 2) start8)).map State.answer
    = some (.row [2, 10, 11, 12, 13, 14, 15, 8]) := by decide +kernel
theorem test_filt3_end_columns : filt3 cfg4 [3, 1, 4, 1] [5, 9, 2, 6] [5, 3, 5, 8] = [3, 4, 4, 2] := by decide
theorem test_network : networkMedian 9 8 7 6 5 4 3 2 1 = 5 := by decide +kernel

/-! ## FilterEngine: 95 2.6 -/

theorem test_recvw_first : (nextOf (exec (.recvw 0x04030201) { State.resetOf cfg8 with chanA := a8 })).map
    (fun t => (t.phase, t.c, t.nRow, t.ring.slot1, t.chanA))
    = some (.load, 1, 0, [1, 2, 3, 4, 0, 0, 0, 0], [5, 6, 7, 8]) := by decide
theorem test_recvw_rotates : (nextOf (exec (.recvw 0x08070605) (at8 cfg8 .load 0 1 [5, 6, 7, 8]))).map
    (fun t => (t.phase, t.c, t.nRow, t.ring.slot1)) = some (.emit, 0, 1, [9, 10, 11, 12, 5, 6, 7, 8]) := by decide
theorem test_zerorow : (nextOf (exec .zerorow (at8 cfg8 .load 3 0 [7]))).map
    (fun t => (t.phase, t.j, t.nRow, t.ring, t.chanA)) = some (.emit, 3, 1, ⟨a8, z8, c8⟩, [7]) := by decide
theorem test_emitw_first : (nextOf (exec .emitw (at8 cfg8 .emit 2 0 []))).map
    (fun t => (t.phase, t.j, t.c, t.chanB)) = some (.emit, 2, 1, [0x02, 0x0A, 0x0B, 0x0C]) := by decide
theorem test_emitw_ends_pass : (nextOf (exec .emitw (at8 { cfg8 with resetRingPerPass := true } .emit 3 1 []))).map
    (fun t => (t.phase, t.j, t.c, t.chanB, t.ring)) = some (.load, 0, 0, [0x0D, 0x0E, 0x0F, 0x08], ⟨z8, z8, z8⟩) := by decide
theorem test_rowstep : (nextOf (exec (.rowstep [50, 60, 70, 80]) { State.resetOf cfg4 with
      ring := ⟨[0, 0, 0, 0], [10, 20, 30, 40], [0, 0, 0, 0]⟩, nRow := 1, j := 1, chanA := [50, 60, 70, 80] })).map
    (fun t => (t.chanB, t.nRow, t.j, t.ring.slot2)) = some ([0, 20, 30, 0], 2, 2, [50, 60, 70, 80]) := by decide
/-- 95 P6: the first pass. -/
theorem test_pass : (nextOf (exec (.pass [[255, 255, 255, 255], [239, 190, 173, 222]])
    { State.resetOf cfg4 with chanA := bytesOfWords [0xFFFFFFFF, 0xDEADBEEF] })).map (fun t => (t.chanB, t.nRow, t.ring))
    = some (bytesOfWords [0, 0x00BEBE00, 0x00BEBE00], 0,
        ⟨[0, 0, 0, 0], [255, 255, 255, 255], [239, 190, 173, 222]⟩) := by decide

/-- R62: 76,640 Words in and 76,800 out per LITERAL pass; 76,800 each way under RATE_PRESERVING. -/
theorem test_pass_counts : Config.hardware.rowsIn * Config.hardware.wpr = 76640
    ∧ Config.hardware.rowsOut * Config.hardware.wpr = 76800
    ∧ ({ Config.hardware with schedule := .ratePreserving } : Config).rowsIn * 160 = 76800
    ∧ ({ Config.hardware with schedule := .ratePreserving } : Config).rowsOut * 160 = 76800 := by decide

/-! ## Steps -/

theorem test_step_waits : step { State.resetOf cfg8 with chanA := [1, 2, 3] }
    = .next { State.resetOf cfg8 with chanA := [1, 2, 3] } := by rfl
theorem test_step_full_channel_waits :
    (nextOf (step { at8 cfg8rp .emit 2 0 [] with chanB := [1, 2, 3, 4, 5] })).map (fun t => (t.c, t.chanB))
    = some (0, [1, 2, 3, 4, 5]) := by decide
/-- 95 2.8. -/
theorem test_reset_event : (nextOf (step { at8 cfg8 .load 2 1 [21, 22, 23, 24] with
      moves := [.reset [21, 22, 23, 24] []], nRow := 2 })).map (fun t => (t.j, t.c, t.nRow, t.ring, t.chanA))
    = some (0, 0, 0, ⟨z8, z8, z8⟩, [21, 22, 23, 24]) := by decide
theorem test_fetch_word : (nextOf (step (State.reset.withFetchWord 32 0x281E140A))).map
    (fun t => (t.c, t.ring.slot1.take 5, t.chanA, t.moves)) = some (1, [10, 20, 30, 40, 0], [], []) := by decide
/-- R140: step 0 of a RATE_PRESERVING pass sends nothing. -/
theorem test_rate_preserving_step0 : (nextOf (step (at8 cfg8rp .load 0 1 [5, 6, 7, 8]))).map
    (fun t => (t.phase, t.j, t.c, t.nRow)) = some (.load, 1, 0, 1) := by decide

/-- 95 P5: a program is the Words offered on port A (R69). -/
theorem test_program_first_word : ((nextOf (loadProgram cfg8 [0x04030201, 0x08070605, 0x0C0B0A09])).bind fun s => nextOf (step s)).map
    (fun t => (t.c, t.ring.slot1, t.chanA.length)) = some (1, [1, 2, 3, 4, 0, 0, 0, 0], 8) := by decide

/-- R69, 95 P1: port B of a program is always ready, whatever the depths of the configuration: the first Row of P1 is
answered by the first expected Row, and MF3 then waits for the second. -/
theorem test_program_ends : ((nextOf (loadProgram { cfg4 with depthB := some 0 } [0x281E140A])).bind fun s => nextOf (turns 2 s)).map
    (fun t => (programWords t, t.chanA, t.phase, t.j, mf3Enabled t)) = some ([0x00000000], [], .load, 1, false) := by
  decide

/-! ## The environment: worked examples of 44_environment.md R151, R152, and its other rules -/

theorem test_sendExact : sendExact [1, 2, 3, 4, 5, 6, 7, 8] [.moved 3, .interrupted, .moved 5]
    = ([1, 2, 3, 4, 5, 6, 7, 8], [], false) := by decide
theorem test_receiveExact : receiveExact 4 [1, 2, 3, 4, 5] [.moved 1, .moved 1, .interrupted, .moved 9]
    = ([1, 2, 3, 4], [5], false) := by decide
theorem test_receive_zero_is_fatal : receiveExact 4 [1, 2, 3, 4, 5] [.moved 1, .moved 0]
    = ([1], [2, 3, 4, 5], true) := by decide
/-- R151, R152: `while done < N` makes no call at N = 0. -/
theorem test_nothing_to_transfer : sendExact [] [.failed] = ([], [], false)
    ∧ receiveExact 0 [1] [.moved 0, .failed] = ([], [1], false)
    ∧ receiveExact 1 [1, 2] [.moved 1, .failed] = ([1], [2], false) := by decide
/-- R63, R154: a Frame of W = 4, H = 3 is three planes of three Rows of four Pixels. -/
theorem test_isFrame : isFrame cfg4 ⟨[p4, p4, p4], [p4, p4, p4], [p4, p4, p4]⟩ = true
    ∧ isFrame cfg4 ⟨[p4, p4], [p4, p4, p4], [p4, p4, p4]⟩ = false
    ∧ isFrame cfg4 ⟨[p4, p4, [1, 2, 3, 4, 5]], [p4, p4, p4], [p4, p4, p4]⟩ = false := by decide
/-- R153: a Row of five Pixels at W = 4 never reaches channel A (log 19). -/
theorem test_no_frame_is_not_sent : (nextOf (step { State.resetOf cfg4 with
      producer := ⟨.running, [⟨[p4, p4, [1, 2, 3, 4, 5]], [p4, p4, p4], [p4, p4, p4]⟩], [], []⟩
      moves := [.producer (.moved 4)] })).map (fun t => (t.chanA, t.producer.outbox)) = some ([], []) := by decide
/-- R201: one context alone torn down (log 8). -/
theorem test_tearDown_one : (nextOf (step (hostState [.tearDown true false]))).map
    (fun t => (t.producer.status, t.consumer.status, t.consumer.got, t.chanB))
    = some (.tornDown, .running, [1, 2], [3, 4, 5]) := by decide
/-- R160: a byte in a channel is not lost while the host streams or before MF3 is reset again. -/
theorem test_emptyChannels_keeps : (nextOf (step (hostState [.emptyChannels]))).map State.chanB = some [3, 4, 5]
    ∧ (nextOf (step { at8 cfg8 .load 2 1 [21, 22] with
      resetSinceRun := false, moves := [.emptyChannels] })).map State.chanA = some [21, 22] := by
  decide
/-- 95 2.8, U7: after the reset the host removes the Word still in channel A. -/
theorem test_emptyChannels_after_reset : (nextOf (step { State.resetOf cfg8 with
      chanA := [21, 22, 23, 24], moves := [.emptyChannels] })).map State.chanA = some [] := by decide
/-- R194: a reset under a running context does not let the host empty the channels once it is torn down. -/
theorem test_reset_while_running : (nextOf (step (hostState [.reset [7] []]))).map State.resetSinceRun = some false := by
  decide
/-- R138, R182: which slot is called 0 and what the ring holds decide nothing of a move of the host. -/
theorem test_emptyChannels_reads_no_engine : (nextOf (step { start8 with nRow := 2, moves := [.emptyChannels] })).map
    State.chanA = some [] := by decide
/-- R186: no instance, so no reset event; R175: the host's own check still reports its error. -/
theorem test_no_instance_moves : refusalOf (step { State.resetOf { cfg8 with h := 1 } with moves := [.reset [] []] })
      = some .noInstance
    ∧ refusalOf (step { State.resetOf { cfg8 with h := 1 } with moves := [.start true] }) = some .noInstance
    ∧ refusalOf (buildInstance { cfg8 with w := 6 }) = some .noInstance
    ∧ (nextOf (step { State.resetOf { cfg8 with w := 6 } with moves := [.start true] })).map
      (fun t => t.producer.status) = some (.ended .configurationError) := by decide
/-- R139: a Producer torn down with Frames left will send again if a start is to come. -/
theorem test_producer_not_done : (hostState []).producer.frames ≠ []
    ∧ ¬ State.ProducerIsDone { hostState [.start true] with
      producer := { (hostState []).producer with status := .tornDown } } := by
  refine ⟨by decide, ?_⟩
  rintro (h | ⟨-, h⟩)
  · exact absurd h (by decide)
  · exact absurd (List.mem_cons_self ..) h

/-! ## WellFormed: a term for each check that the check refuses -/

theorem test_wf_ringWrite : (Instr.ringWrite 0 [1, 2, 3]).wf cfg8 = false ∧ (Instr.ringWrite 0 a8).wf cfg8 = true := by
  decide
theorem test_wf_sample : (Instr.sample 0 .zero 8 .minus).wf cfg8 = false := by decide
theorem test_wf_filtPix : (Instr.filtPix 0 8).wf cfg8 = false ∧ (Instr.filtPix 0 7).wf cfg8 = true := by decide
theorem test_wf_rowstep : (Instr.rowstep (0 :: a8)).wf cfg8 = false := by decide
theorem test_wf_pass_count : (Instr.pass [a8, b8]).wf cfg8 = false ∧ (Instr.pass [a8, b8, c8]).wf cfg8 = true := by decide
theorem test_wf_pass_row : (Instr.pass [a8, [], c8]).wf cfg8 = false := by decide
theorem test_refused_operand : refusalOf (exec (.filtPix 0 8) start8) = some (.illFormed "FILTPIX") := by decide
theorem test_refused_config : refusalOf (step (State.resetOf { cfg8 with w := 6 })) = some .noInstance := by decide

/-! ## Witnesses: states that meet the hypotheses of the statements, at the edges of their clauses -/

theorem legal8 (p : Phase) (j c : Nat) (bs : List Byte) (hj : j ≤ 3) (hc : c < 2)
    (hz : p = .load → j = 3 → c = 0) : (at8 cfg8 p j c bs).Legal :=
  ⟨show cfg8.legal = true by decide, show Ring.wf cfg8 ⟨a8, b8, c8⟩ = true by decide, hj,
    show c < cfg8.wpr from hc, hz, fun _ => rfl⟩

theorem legal8rp (p : Phase) (j c : Nat) (bs : List Byte) (hj : j ≤ 4) (hc : c < 2)
    (hz : p = .load → j = 4 → c = 0) (he : p = .emit → 1 ≤ j) : (at8 cfg8rp p j c bs).Legal :=
  ⟨show cfg8rp.legal = true by decide, show Ring.wf cfg8rp ⟨a8, b8, c8⟩ = true by decide, hj,
    show c < cfg8rp.wpr from hc, hz, fun h => show decide (1 ≤ j) = true from decide_eq_true (he h)⟩

/-- The hypothesis of the statements about the operations that answer, and of DisabledOperationsWait,
OperandsOutOfRangeAreRefused, StepRunsTheSelectedOperation and EveryStepCompletesAndWaitsOnlyForAPort. -/
theorem witness_legal_config : start8.cfg.legal = true ∧ State.reset.cfg.legal = true := by decide

theorem witness_RowCodecRoundTrips : a8.length % 4 = 0 ∧ ([] : Row).length % 4 = 0 := by decide
theorem witness_RowWordsCarryTheirColumns : b8.length % 4 = 0 ∧ 0 < b8.length / 4 ∧ 1 < b8.length / 4
    ∧ 1 < ([0x04030201, 0x08070605] : List Word).length := by decide
theorem witness_LowByteTravelsFirst : a8.length % 4 = 0 ∧ 3 < 4 ∧ 1 < ([0x04030201, 0x08070605] : List Word).length := by
  decide
theorem witness_PortStreamDecodesToItsBeats : encode (.recvw 0xFFFFFFFF) = some [255, 255, 255, 255]
    ∧ ([1, 2, 3] : List Byte).length < 4 := by decide
theorem witness_RingWriteReplacesOneSlot : start8.cfg.legal = true ∧ c8.length = start8.cfg.w ∧ (0 : Slot) ≠ 2 := by decide
theorem witness_RingReadReturnsTheStoredRow : ∃ t, c8.length = start8.cfg.w ∧ exec (.ringWrite 1 c8) start8 = .next t :=
  ⟨_, by decide, rfl⟩
theorem witness_BeatWritesMakeOneRow : cfg8.legal = true ∧ start8.ring.wf cfg8 = true
    ∧ ([0x04030201, 0x08070605] : List Word).length = cfg8.wpr := by decide
theorem witness_SampleReadsOrPads : start8.cfg.legal = true ∧ 0 < start8.cfg.w ∧ 7 < start8.cfg.w ∧ 7 + 1 = start8.cfg.w := by decide
theorem witness_MedianIsTheFifthSmallest : start8.cfg.legal = true ∧ ([1, 2, 3, 4, 5, 6, 7, 8, 9] : List Pixel).Perm [9, 8, 7, 6, 5, 4, 3, 2, 1]
    ∧ ([1, 2, 3, 4, 5, 6, 7, 8, 9] : List Pixel).Pairwise (fun a b => a.toNat ≤ b.toNat) := by decide
theorem witness_MedianSelectsWhateverTheOrder : ([1, 2, 3, 4, 5, 6, 7, 8, 9] : List Pixel).length = 9
    ∧ ([1, 2, 3] : List Pixel).Perm [3, 1, 2] := by decide
theorem witness_MedianByCounting : ([0, 0, 0, 0, 255, 0, 0, 0, 0] : List Pixel).length = 9 := by decide
theorem witness_MedianIsMonotone : ([5, 5, 5, 5, 5, 5, 5, 5, 5] : List Pixel).length = 9
    ∧ List.Forall₂ (fun a b : Pixel => a.toNat ≤ b.toNat) [5, 5, 5, 5, 5, 5, 5, 5, 5] [5, 9, 5, 5, 5, 5, 5, 255, 6] := by
  refine ⟨rfl, ?_⟩
  repeat' constructor
theorem witness_FiltPixIsTheMedianOfItsWindow : start8.cfg.legal = true ∧ 0 < start8.cfg.w ∧ 7 < start8.cfg.w := by decide
theorem witness_SpecialRowsOfTheFilter : cfg8.legal = true ∧ cfg4.legal = true ∧ 0 < cfg8.w ∧ 7 < cfg8.w
    ∧ ([pad cfg8.w a8 (((7 : Nat) : Int) - 1), pad cfg8.w a8 (7 : Nat), pad cfg8.w a8 (((7 : Nat) : Int) + 1),
        pad cfg8.w b8 (((7 : Nat) : Int) - 1), pad cfg8.w b8 (7 : Nat), pad cfg8.w b8 (((7 : Nat) : Int) + 1)] :
          List Pixel).countP (fun p => decide (p ≠ 0)) < 5 := by decide
theorem witness_FewBrightPixelsAreRemoved :
    (z8 ++ [0, 0, 0, 255, 0, 0, 0, 0] ++ z8 : Row).countP (fun p => decide (p ≠ 0)) ≤ 4 := by decide
theorem witness_AnsweringOperationsChangeNothingElse : ∃ t, exec (.filtRow 0) start8 = .next t := ⟨_, rfl⟩

theorem witness_RecvwTakesOneWord_more : (at8 cfg8 .load 0 0 a8).Legal ∧ (at8 cfg8 .load 0 0 a8).phase = .load
    ∧ (at8 cfg8 .load 0 0 a8).j < cfg8.jLast ∧ bytesOfWord 0x04030201 <+: (at8 cfg8 .load 0 0 a8).chanA
    ∧ (at8 cfg8 .load 0 0 a8).c < cfg8.wpr - 1 :=
  ⟨legal8 _ _ _ _ (by decide) (by decide) (by decide), by decide, by decide, by decide, by decide⟩
theorem witness_RecvwTakesOneWord_empty : (at8 cfg8 .load 0 0 [1, 2, 3]).cfg.legal = true
    ∧ (at8 cfg8 .load 0 0 [1, 2, 3]).chanA.length < 4 := by decide
theorem witness_RecvwTakesOneWord_last : (at8 cfg8 .load 2 1 a8).Legal ∧ (at8 cfg8 .load 2 1 a8).phase = .load ∧ (at8 cfg8 .load 2 1 a8).j < cfg8.jLast
    ∧ bytesOfWord 0x04030201 <+: (at8 cfg8 .load 2 1 a8).chanA ∧ (at8 cfg8 .load 2 1 a8).c = cfg8.wpr - 1
    ∧ stepEmits cfg8 (at8 cfg8 .load 2 1 a8).j = true :=
  ⟨legal8 _ _ _ _ (by decide) (by decide) (by decide), rfl, by decide, by decide, by decide, by decide⟩
theorem witness_RecvwTakesOneWord_silent : (at8 cfg8rp .load 0 1 a8).Legal ∧ (at8 cfg8rp .load 0 1 a8).phase = .load ∧ (at8 cfg8rp .load 0 1 a8).j < cfg8rp.jLast
    ∧ bytesOfWord 0x04030201 <+: (at8 cfg8rp .load 0 1 a8).chanA ∧ (at8 cfg8rp .load 0 1 a8).c = cfg8rp.wpr - 1
    ∧ stepEmits cfg8rp (at8 cfg8rp .load 0 1 a8).j = false :=
  ⟨legal8rp _ _ _ _ (by decide) (by decide) (by decide) (by decide), rfl, by decide, by decide, by decide, by decide⟩
theorem witness_HalfLoadedRowIsNewBelowFourC : start8.Legal ∧ start8.phase = .load ∧ start8.j < start8.cfg.jLast
    ∧ start8.c = 0 ∧ 1 < start8.cfg.wpr ∧ 4 * 1 ≤ start8.chanA.length :=
  ⟨legal8 _ _ _ _ (by decide) (by decide) (by decide), by decide, by decide, by decide, by decide, by decide⟩
theorem witness_ClearedRingAtEveryPassStart : ∃ t,
    (at8 { cfg8 with resetRingPerPass := true } .emit 3 1 []).Legal
    ∧ step (at8 { cfg8 with resetRingPerPass := true } .emit 3 1 []) = .next t
    ∧ t.phase = .load ∧ t.j = 0 ∧ t.c = 0 :=
  ⟨_, ⟨by decide, by decide, by decide, by decide, by decide, by decide⟩, rfl, rfl, rfl, rfl⟩
theorem witness_ZerorowClearsTheTargetSlot : (at8 cfg8 .load 3 0 []).Legal ∧ (at8 cfg8 .load 3 0 []).phase = .load
    ∧ (at8 cfg8 .load 3 0 []).j = cfg8.jLast :=
  ⟨legal8 _ _ _ _ (by decide) (by decide) (by decide), by decide, by decide⟩
theorem witness_EmitwSendsOneWord : (at8 cfg8rp .emit 4 1 []).Legal ∧ (at8 cfg8rp .emit 4 1 []).phase = .emit ∧ (at8 cfg8rp .emit 4 1 []).HasRoomForWord
    ∧ (at8 cfg8rp .emit 4 1 []).c = cfg8rp.wpr - 1 ∧ (at8 cfg8rp .emit 4 1 []).j = cfg8rp.jLast :=
  ⟨legal8rp _ _ _ _ (by decide) (by decide) (by decide) (by decide), rfl, .inr (.inl ⟨2, by decide, by decide⟩),
    by decide, by decide⟩
/-- A channel of depth 0 with the Consumer waiting has room for one Word (log 10). -/
theorem witness_EmitwSendsOneWord_rendezvous : ({ at8 { cfg8 with depthB := some 0 } .emit 2 0 [] with
      consumer := ⟨.running, [], [], []⟩ }).HasRoomForWord := .inr (.inr ⟨rfl, rfl, rfl, rfl⟩)
theorem witness_EmitwSendsOneWord_more : (at8 cfg8 .emit 2 0 []).Legal ∧ (at8 cfg8 .emit 2 0 []).phase = .emit ∧ (at8 cfg8 .emit 2 0 []).HasRoomForWord
    ∧ (at8 cfg8 .emit 2 0 []).c < cfg8.wpr - 1 ∧ (at8 cfg8 .emit 2 0 []).j < cfg8.jLast :=
  ⟨legal8 _ _ _ _ (by decide) (by decide) (by decide), rfl, .inl rfl, by decide, by decide⟩
theorem witness_EmitwSendsOneWord_clears : (at8 { cfg8 with resetRingPerPass := true } .emit 3 1 []).Legal
    ∧ (at8 { cfg8 with resetRingPerPass := true } .emit 3 1 []).HasRoomForWord :=
  ⟨⟨by decide, by decide, by decide, by decide, by decide, by decide⟩, .inl rfl⟩
theorem witness_DisabledOperationsWait : ¬ bytesOfWord 0x04030201 <+: (at8 cfg8 .load 0 0 []).chanA
    ∧ ¬ ({ at8 cfg8rp .emit 1 0 [] with chanB := a8 }).HasRoomForWord ∧ ¬ (at8 cfg8 .load 0 0 []).StepRowIs a8 := by
  refine ⟨by decide, ?_, ?_⟩
  · rintro (h | ⟨d, h, h'⟩ | ⟨h, -⟩)
    · cases h
    · cases h
      exact absurd h' (by decide)
    · cases h
  · rintro (⟨-, h⟩ | ⟨h, -⟩)
    · exact absurd h (by decide)
    · exact absurd h (by decide)

theorem witness_RowstepFiltersTheLastThreeRows : (at8 cfg8 .load 2 0 a8).Legal ∧ (at8 cfg8 .load 2 0 a8).phase = .load
    ∧ (at8 cfg8 .load 2 0 a8).c = 0 ∧ a8.length = cfg8.w ∧ (at8 cfg8 .load 2 0 a8).StepRowIs a8
    ∧ (at8 cfg8 .load 2 0 a8).HasRoomForWords cfg8.wpr ∧ (at8 cfg8 .load 2 0 a8).moves = [] :=
  ⟨legal8 _ _ _ _ (by decide) (by decide) (by decide), by decide, by decide, by decide,
    .inl ⟨by decide, by decide⟩, .inl rfl, rfl⟩
theorem witness_RowstepFiltersTheLastThreeRows_zero : (at8 cfg8rp .load 4 0 a8).Legal
    ∧ (at8 cfg8rp .load 4 0 a8).StepRowIs z8 ∧ (at8 cfg8rp .load 4 0 a8).HasRoomForWords cfg8rp.wpr :=
  ⟨legal8rp _ _ _ _ (by decide) (by decide) (by decide) (by decide), .inr ⟨by decide, by decide⟩,
    .inr (.inl ⟨2, by decide, by decide⟩)⟩
/-- Also of PassIsTheRunOfItsBeats. -/
theorem witness_LiteralPassOutput : start8.Legal ∧ start8.cfg.schedule = .literal ∧ start8.phase = .load ∧ start8.j = 0
    ∧ start8.c = 0 ∧ [a8, b8, c8].length = start8.cfg.h - 1 ∧ [a8, b8, c8].length = start8.cfg.rowsIn
    ∧ (∀ r ∈ [a8, b8, c8], r.length = start8.cfg.w) ∧ [a8, b8, c8].flatMap rowBytes <+: start8.chanA
    ∧ start8.HasRoomForWords (start8.cfg.h * start8.cfg.wpr)
    ∧ start8.HasRoomForWords (start8.cfg.rowsOut * start8.cfg.wpr) ∧ start8.moves = [] :=
  ⟨legal8 _ _ _ _ (by decide) (by decide) (by decide), by decide, by decide, by decide, by decide, by decide, by decide,
    by decide, by decide, .inl rfl, .inl rfl, rfl⟩
def startRp : State := at8 { cfg8rp with depthB := some 8 } .load 0 0 (a8 ++ b8 ++ c8 ++ a8)
theorem witness_RatePreservingPassOutput : startRp.Legal ∧ startRp.cfg.schedule = .ratePreserving
    ∧ startRp.phase = .load ∧ startRp.j = 0 ∧ startRp.c = 0 ∧ [a8, b8, c8, a8].length = startRp.cfg.h ∧ (∀ r ∈ [a8, b8, c8, a8], r.length = startRp.cfg.w)
    ∧ [a8, b8, c8, a8].flatMap rowBytes <+: startRp.chanA
    ∧ startRp.HasRoomForWords (startRp.cfg.h * startRp.cfg.wpr) :=
  ⟨⟨by decide, by decide, by decide, by decide, by decide, by decide⟩, by decide, rfl, rfl, rfl, by decide, by decide, by decide,
    .inr (.inl ⟨8, by decide, by decide⟩)⟩
theorem witness_WholeStreamClosedForm : start8.Legal ∧ start8.cfg.schedule = .literal ∧ start8.phase = .load
    ∧ start8.j = 0 ∧ start8.c = 0 ∧ start8.cfg.resetRingPerPass = false ∧ start8.cfg.depthB = none
    ∧ start8.moves = [] ∧ (∀ rows ∈ [[a8, b8, c8]], rows.length = start8.cfg.h - 1 ∧ ∀ r ∈ rows, r.length = start8.cfg.w)
    ∧ start8.chanA = [[a8, b8, c8]].flatMap (fun rows => rows.flatMap rowBytes) :=
  ⟨legal8 _ _ _ _ (by decide) (by decide) (by decide), rfl, rfl, rfl, rfl, by decide, by decide, by decide, by decide, by decide⟩
theorem witness_StepRunsTheSelectedOperation : decode start8.chanA = .ok (.recvw 0x04030201, start8.chanA.drop 4)
    ∧ start8.phase = .load ∧ start8.j < start8.cfg.jLast ∧ (at8 cfg8 .load 3 0 []).j = cfg8.jLast := by decide
/-- Also of EveryStepCompletesAndWaitsOnlyForAPort and EveryStepKeepsTheStateLegal. -/
theorem witness_LiteralSequencerTable : start8.Legal ∧ start8.cfg.schedule = .literal ∧ start8.moves = []
    ∧ 4 ≤ start8.chanA.length ∧ (at8 cfg8 .load 2 1 [1, 2, 3]).Legal ∧ (at8 cfg8 .emit 3 1 []).Legal
    ∧ (at8 cfg8 .emit 3 1 []).HasRoomForWord :=
  ⟨legal8 _ _ _ _ (by decide) (by decide) (by decide), by decide, by decide, by decide,
    legal8 _ _ _ _ (by decide) (by decide) (by decide), legal8 _ _ _ _ (by decide) (by decide) (by decide), .inl rfl⟩
theorem witness_RatePreservingSequencerTable : startRp.Legal ∧ startRp.cfg.schedule = .ratePreserving
    ∧ startRp.moves = [] ∧ (at8 cfg8rp .load 4 0 []).Legal ∧ (at8 cfg8rp .emit 1 1 []).Legal :=
  ⟨⟨by decide, by decide, by decide, by decide, by decide, by decide⟩, by decide, by decide,
    legal8rp _ _ _ _ (by decide) (by decide) (by decide) (by decide),
    legal8rp _ _ _ _ (by decide) (by decide) (by decide) (by decide)⟩
theorem witness_NoInstanceIsRefused : (State.resetOf { cfg8 with w := 6 }).cfg.w % 4 ≠ 0
    ∧ (State.resetOf { cfg8 with w := 0 }).cfg.w < 4 ∧ (State.resetOf { cfg8 with h := 1 }).cfg.h < 2
    ∧ (State.resetOf { cfg8 with w := 6 }).moves = [] ∧ (∀ available, Move.reset [] [] ≠ .start available) := by decide
theorem witness_OperandsOutOfRangeAreRefused : ([] : Row).length ≠ start8.cfg.w ∧ start8.cfg.w ≤ 8
    ∧ [a8, b8].length ≠ start8.cfg.rowsIn := by decide
theorem witness_EveryStepKeepsTheStateLegal : start8.Legal ∧ (∃ t, step start8 = .next t)
    ∧ ∃ t, exec (.ringWrite 0 b8) start8 = .next t :=
  ⟨legal8 _ _ _ _ (by decide) (by decide) (by decide), ⟨_, rfl⟩, ⟨_, rfl⟩⟩
/-- The host's side in order, with a Frame to send and a Row half received. Also of ProducerLosesNoByte. -/
theorem witness_EveryStepKeepsTheStateLegal_host : (hostState [.consumer (.moved 3)]).Legal
    ∧ (hostState [.consumer (.moved 3)]).HostLegal ∧ ∃ t, step (hostState [.consumer (.moved 3)]) = .next t :=
  ⟨⟨by decide, by decide, by decide, by decide, by decide, by decide⟩,
    ⟨by decide, by decide, by decide, by decide, by decide, by decide, by decide⟩, ⟨_, rfl⟩⟩
theorem witness_ResetEventRestoresTheEngine :
    ({ start8 with moves := [.reset [1] [2, 3]] }).moves = .reset [1] [2, 3] :: [] ∧ start8.cfg.legal = true := by decide
theorem witness_SlotNamesCannotBeObserved :
    Rotated 1 start8 { start8 with nRow := 1, ring := ⟨c8, a8, b8⟩ } ∧ ∃ t, step start8 = .next t :=
  ⟨⟨by decide, by decide, by decide, by decide, by decide, by decide, by decide, by decide, by decide⟩, ⟨_, rfl⟩⟩
theorem witness_BeatsDependOnTheEngineAndTheWordOnly :
    start8.cfg = ({ start8 with chanB := [1], chanA := a8 }).cfg ∧ SameEngine start8 { start8 with chanB := [1], chanA := a8 }
    ∧ start8.chanA.take 4 = ({ start8 with chanB := [1], chanA := a8 }).chanA.take 4 ∧ mf3Enabled start8 = true
    ∧ mf3Enabled { start8 with chanB := [1], chanA := a8 } = true ∧ start8.cfg.legal = true ∧ start8.moves = []
    ∧ ({ start8 with chanB := [1], chanA := a8 }).moves = [] :=
  ⟨rfl, ⟨rfl, rfl, rfl, rfl, rfl⟩, by decide, by decide, by decide, by decide, rfl, rfl⟩
theorem witness_LaterInputNeverChangesEarlierOutput : ∃ t, turns 3 start8 = .next t := ⟨_, rfl⟩
theorem witness_PortsMoveWholeWords : start8.moves = [] ∧ (∃ t, step start8 = .next t)
    ∧ (∃ t, step (at8 cfg8 .emit 0 0 []) = .next t)
    ∧ WithinDepth (at8 cfg8rp .emit 1 0 []).cfg.depthB (at8 cfg8rp .emit 1 0 []).chanB :=
  ⟨rfl, ⟨_, rfl⟩, ⟨_, rfl⟩, fun _ _ => Nat.zero_le _⟩
theorem witness_AllZeroInputGivesAllZeroOutput : ∃ s t : State, s.moves = [] ∧ step s = .next t
    ∧ (∀ (slot : Slot) (x : Nat), s.ring.pixel slot x = 0) ∧ (∀ b ∈ s.chanA, b = 0) ∧ (∀ b ∈ s.chanB, b = 0) := by
  refine ⟨{ State.resetOf cfg8 with chanA := z8 }, _, rfl, rfl, fun slot x => ?_, by decide, by decide⟩
  have hr : (State.resetOf cfg8).ring.read slot = List.replicate 8 0 := by fin_cases slot <;> rfl
  show ((State.resetOf cfg8).ring.read slot).getD x 0 = 0
  rw [hr, List.getD_eq_getElem?_getD, List.getElem?_replicate]
  split <;> rfl
theorem witness_FiniteRunEndsWaitingForARow : (State.resetOf cfg8).Legal ∧ (State.resetOf cfg8).cfg.schedule = .literal
    ∧ (State.resetOf cfg8).RunEnded ∧ (State.resetOf cfg8).cfg.depthB ≠ some 0 :=
  ⟨⟨by decide, by decide, by decide, by decide, by decide, by decide⟩, by decide,
    ⟨by decide, .inl (by decide), by decide, by unfold State.Waits; decide⟩, by decide⟩
/-- The end of a run whose Producer was torn down with a Frame left, no start to come. -/
theorem witness_FiniteRunEndsWaitingForARow_tornDown : ({ State.resetOf cfg8 with
    producer := ⟨.tornDown, [⟨[], [], []⟩], [], []⟩ }).RunEnded ∧ cfg4.legal = true :=
  ⟨⟨by decide, .inr ⟨by decide, by decide⟩, by decide, by unfold State.Waits; decide⟩, by decide⟩
theorem witness_FedEngineSendsAWordSoon : start8.Legal ∧ start8.cfg.schedule = .literal ∧ start8.cfg.w ≤ start8.chanA.length ∧ start8.HasRoomForWord :=
  ⟨legal8 _ _ _ _ (by decide) (by decide) (by decide), rfl, by decide, .inl rfl⟩

/-! ### The environment -/

theorem witness_EnvironmentCannotReachTheEngine : ∃ t, (hostState [.tearDown true true]).moves = [.tearDown true true]
    ∧ (Move.tearDown true true ≠ .mf3) ∧ (∀ a b, Move.tearDown true true ≠ .reset a b)
    ∧ step (hostState [.tearDown true true]) = .next t :=
  ⟨_, rfl, by decide, by simp, rfl⟩
theorem witness_EnvironmentCannotReachTheEngine_empty : ({ State.resetOf cfg8 with
      chanA := [1], moves := [.emptyChannels] }).moves = [.emptyChannels]
    ∧ (State.resetOf cfg8).producer.status ≠ .running ∧ (State.resetOf cfg8).consumer.status ≠ .running
    ∧ (State.resetOf cfg8).resetSinceRun = true ∧ (hostState []).cfg.legal = true
    ∧ (hostState [.emptyChannels]).moves = [.emptyChannels] ∧ (hostState []).producer.status = .running := by decide
theorem witness_ProducerLosesNoByte : ∃ t, step (hostState [.producer (.moved 3)]) = .next t
    ∧ WithinDepth cfg8rp.depthA (hostState []).chanA ∧ t.chanA = [1, 2, 3]
    ∧ (∀ f ∈ (hostState []).producer.frames, isFrame cfg8rp f = true) ∧ isFrame cfg8rp ⟨[a8], [b8], [c8]⟩ = false :=
  ⟨_, rfl, fun _ _ => Nat.zero_le _, by decide, by decide, by decide⟩
theorem witness_ConsumerLosesNoByte : ∃ t, step (hostState [.consumer (.moved 9)]) = .next t
    ∧ (hostState []).cfg.legal = true ∧ (hostState []).consumer.got.length < cfg8rp.w
    ∧ (hostState []).consumer.rows.length < 3 * cfg8rp.h ∧ t.consumer.got = [1, 2, 3, 4, 5] :=
  ⟨_, rfl, by decide, by decide, by decide, by decide⟩
theorem witness_ExactTransfersSurviveSplitting : .failed ∉ ([.moved 3, .interrupted, .moved 5] : List CallResult)
    ∧ .moved 0 ∉ ([.moved 3, .interrupted, .moved 5] : List CallResult)
    ∧ a8.length ≤ movedTotal [.moved 3, .interrupted, .moved 5]
    ∧ (sendExact a8 [.moved 3, .failed]).2.2 = true ∧ (receiveExact 4 a8 [.moved 3, .moved 0]).2.2 = true := by decide
theorem witness_TransportErrorEndsItsContext : (hostState []).producer.status = .running
    ∧ ((hostState []).producer.refill cfg8rp).outbox ≠ [] ∧ (hostState []).consumer.status = .running
    ∧ (hostState []).consumer.got.length < cfg8rp.w
    ∧ (State.resetOf cfg8).producer.status ≠ .running ∧ (State.resetOf cfg8).consumer.status ≠ .running := by decide
theorem witness_HostStartChecksTheConfiguration :
    ({ State.resetOf cfg8 with moves := [.start true] }).moves = .start true :: [] ∧ (State.resetOf cfg8).producer.status ≠ .running
    ∧ (State.resetOf cfg8).consumer.status ≠ .running ∧ (State.resetOf { cfg8 with w := 6 }).cfg.w % 4 ≠ 0
    ∧ (State.resetOf cfg8).cfg.w % 4 = 0 ∧ (hostState [.start true]).moves = [.start true]
    ∧ (hostState [.start true]).consumer.status = .running ∧ cfg8.legal = true := by decide
theorem witness_AHostMoveLiftsTheWait_feed :
    (hostState [.producer (.moved 4)]).moves = .producer (.moved 4) :: [] ∧ (hostState []).producer.status = .running
    ∧ (hostState []).cfg.legal = true ∧ (hostState []).phase = .load
    ∧ (hostState []).j < cfg8rp.jLast ∧ (hostState []).chanA.length < 4
    ∧ 4 ≤ ((hostState []).producer.refill cfg8rp).outbox.length := by decide
/-- Channel B full at a depth above WPR, where no one Row takes all that it holds. -/
theorem witness_AHostMoveLiftsTheWait_drain : ∃ s : State, s.cfg.legal = true ∧ s.phase = .emit ∧ ¬ s.HasRoomForWord
    ∧ WithinDepth s.cfg.depthB s.chanB ∧ s.moves = [.consumer (.moved 4)] ∧ s.consumer.status = .running
    ∧ 4 ≤ s.cfg.w - s.consumer.got.length ∧ s.cfg.depthB = some 3 ∧ s.cfg.wpr = 2 := by
  refine ⟨{ hostState [.consumer (.moved 4)] with
    cfg := { cfg8rp with depthB := some 3 }, phase := .emit, j := 1, chanB := a8 ++ p4 },
    by decide, rfl, ?_, ?_, rfl, rfl, by decide, rfl, by decide⟩
  · rintro (h | ⟨d, h, h'⟩ | ⟨h, -⟩)
    · cases h
    · cases h
      exact absurd h' (by decide)
    · cases h
  · rintro d h
    cases h
    decide
/-- The same at depth 0, where the one Word in hand waits for the Consumer (log 10). -/
theorem witness_AHostMoveLiftsTheWait_rendezvous : ∃ s : State, s.cfg.legal = true ∧ s.phase = .emit
    ∧ ¬ s.HasRoomForWord ∧ s.cfg.depthB = some 0 ∧ WithinDepth s.cfg.depthB s.chanB ∧ s.consumer.status = .running := by
  refine ⟨{ hostState [] with
    cfg := { cfg8rp with depthB := some 0 }, phase := .emit, j := 1, chanB := p4 }, by decide, rfl, ?_, rfl, ?_, rfl⟩
  · rintro (h | ⟨d, h, h'⟩ | ⟨-, -, h, -⟩)
    · cases h
    · cases h
      exact absurd h' (by decide)
    · exact absurd h (by decide)
  · rintro d h
    cases h
    decide

end Sys2Proof.Tests
end

section
/-! The PixelCodec (40_pixelcodec.md): the value of `pack`, and PACK and UNPACK run on an instance that exists. -/

namespace Sys2Proof.Machine

/-! ## The Word of four Pixels -/

/-- R80, R64: the shifted fields of `pack` do not overlap, so joining them by OR is concatenation. -/
theorem pack_eq_wordOfBytes (p0 p1 p2 p3 : Pixel) : pack p0 p1 p2 p3 = wordOfBytes p0 p1 p2 p3 := by
  apply BitVec.eq_of_getLsbD_eq
  intro i hi
  have beyond (p : Pixel) (k : Nat) (hk : 8 ≤ k) : p.getLsbD k = false := BitVec.getLsbD_of_ge p k hk
  simp only [pack, wordOfBytes, BitVec.getLsbD_or, BitVec.getLsbD_append, BitVec.getLsbD_shiftLeft,
    BitVec.getLsbD_setWidth]
  obtain h0 | h1 | h2 | h3 : i < 8 ∨ (8 ≤ i ∧ i < 16) ∨ (16 ≤ i ∧ i < 24) ∨ 24 ≤ i := by omega
  all_goals grind

/-- A byte appended on the right is the lowest base-256 digit. -/
theorem toNat_append_byte {n : Nat} (x : BitVec n) (b : Byte) : (x ++ b).toNat = 256 * x.toNat + b.toNat := by
  rw [BitVec.toNat_append, ← Nat.shiftLeft_add_eq_or_of_lt b.isLt, Nat.shiftLeft_eq, Nat.mul_comm]

/-- R48, R80: the four bytes are the base-256 digits of their Word, so nothing is lost or carried. -/
theorem toNat_wordOfBytes (b0 b1 b2 b3 : Byte) : (wordOfBytes b0 b1 b2 b3).toNat =
    b0.toNat + 256 * b1.toNat + 65536 * b2.toNat + 16777216 * b3.toNat := by
  simp only [wordOfBytes, toNat_append_byte]
  omega

/-! ## The operations on an instance that exists (R186) -/

theorem exec_pack {s : State} (p0 p1 p2 p3 : Pixel) (hs : s.cfg.legal = true) :
    exec (.pack p0 p1 p2 p3) s = .next (s.setAnswer (.word (pack p0 p1 p2 p3))) :=
  completes_of_ok _ _ hs rfl

theorem exec_unpack {s : State} (w : Word) (hs : s.cfg.legal = true) : exec (.unpack w) s =
    .next (s.setAnswer (.pixels (unpack w).1 (unpack w).2.1 (unpack w).2.2.1 (unpack w).2.2.2)) :=
  completes_of_ok _ _ hs rfl

/-! ## The obligations -/

/-- Settles O1: the Word is `pack` of the Pixels, and its value is read off the concatenation of the four fields. -/
theorem packMakesTheWord : Obligations.PackMakesTheWord := by
  intro s p0 p1 p2 p3 hs
  refine ⟨pack p0 p1 p2 p3, exec_pack p0 p1 p2 p3 hs, rfl, ?_⟩
  rw [pack_eq_wordOfBytes, toNat_wordOfBytes]

/-- Settles O2: the Pixels of `unpack` are the four fields, and the answer is all that is set. -/
theorem unpackGivesTheFields : Obligations.UnpackGivesTheFields :=
  fun _ w hs => exec_unpack w hs

end Sys2Proof.Machine
end


section
/-! The RowRing (41_rowring.md): RING.WRITE and RESOLVESLOT run on an instance that exists, and the remainder R92 names. -/

namespace Sys2Proof.Machine

/-! ## The operations on an instance that exists (R186) -/

/-- R90: of the operands only the Row's length can be out of range. -/
theorem exec_ringWrite {s : State} (slot : Slot) {row : Row} (hs : s.cfg.legal = true) (hrow : row.length = s.cfg.w) :
    exec (.ringWrite slot row) s = .next (s.setRing (s.ring.write slot row)) :=
  completes_of_ok _ _ hs ((isRow_iff s.cfg row).2 hrow)

theorem exec_resolveSlot {s : State} (center : Slot) (k : Offset) (hs : s.cfg.legal = true) :
    exec (.resolveSlot center k) s = .next (s.setAnswer (.slot (resolveSlot center k))) :=
  completes_of_ok _ _ hs rfl

/-! ## Pixels and slots -/

/-- R41, R90: the Pixels of a slot just written are those of its Row. -/
@[simp] theorem Ring.pixel_write_same (r : Ring) (slot : Slot) (row : Row) (x : Nat) :
    (r.write slot row).pixel slot x = row.getD x 0 := by
  rw [Ring.pixel, Ring.read_write_same]

/-- R92: one row up is two rows down modulo three, so (0, -1) gives 2. -/
theorem val_resolveSlot_minus (center : Slot) : (resolveSlot center .minus).val = (center.val + 2) % 3 := by
  rw [resolveSlot_minus, Fin.val_add, Fin.val_two]

theorem val_resolveSlot_plus (center : Slot) : (resolveSlot center .plus).val = (center.val + 1) % 3 := by
  rw [resolveSlot_plus, Fin.val_add, Fin.val_one]

/-! ## The obligations -/

/-- Settles O8: the next state is the old one with the written ring, read back in the slot and in the others. -/
theorem ringWriteReplacesOneSlot : Obligations.RingWriteReplacesOneSlot := by
  intro s slot row hs hrow
  refine ⟨s.setRing (s.ring.write slot row), exec_ringWrite slot hs hrow, rfl, ?_, ?_, ?_⟩
  · exact Ring.read_write_same s.ring slot row
  · exact fun _ hne => Ring.read_write_of_ne s.ring row hne
  · exact Ring.pixel_write_same s.ring slot row

/-- Settles O10: the slot is `resolveSlot` of the operands, one clause for each offset. -/
theorem resolveSlotIsModThree : Obligations.ResolveSlotIsModThree := by
  intro s center k hs
  refine ⟨resolveSlot center k, exec_resolveSlot center k hs, ?_, ?_, ?_⟩
  · rintro rfl
    exact val_resolveSlot_minus center
  · rintro rfl
    exact resolveSlot_zero center
  · rintro rfl
    exact val_resolveSlot_plus center

end Sys2Proof.Machine
end


section
/-! The MedianWindow (42_medianwindow.md): its four operations run on an instance that exists, the window's padding at the
row ends, and the uniqueness of the sorted list that R103 rests on. -/

namespace Sys2Proof.Machine

/-! ## The operations on an instance that exists (R186) -/

/-- R101: of the operands only the column can be out of range. -/
theorem exec_sample {s : State} (center : Slot) (k : Offset) {i : Nat} (l : Offset) (hs : s.cfg.legal = true)
    (hi : i < s.cfg.w) :
    exec (.sample center k i l) s = .next (s.setAnswer (.pixel (sampleAt s.cfg s.ring center k i l))) :=
  completes_of_ok _ _ hs (decide_eq_true hi)

theorem exec_med9 {s : State} (s0 s1 s2 s3 s4 s5 s6 s7 s8 : Pixel) (hs : s.cfg.legal = true) :
    exec (.med9 s0 s1 s2 s3 s4 s5 s6 s7 s8) s =
      .next (s.setAnswer (.pixel (med9 s0 s1 s2 s3 s4 s5 s6 s7 s8))) :=
  completes_of_ok _ _ hs rfl

/-- R105: of the operands only the column can be out of range. -/
theorem exec_filtPix {s : State} (center : Slot) {i : Nat} (hs : s.cfg.legal = true) (hi : i < s.cfg.w) :
    exec (.filtPix center i) s = .next (s.setAnswer (.pixel (filtPixAt s.cfg s.ring center i))) :=
  completes_of_ok _ _ hs (decide_eq_true hi)

theorem exec_filtRow {s : State} (center : Slot) (hs : s.cfg.legal = true) :
    exec (.filtRow center) s = .next (s.setAnswer (.row (filtRowAt s.cfg s.ring center))) :=
  completes_of_ok _ _ hs rfl

/-! ## Padding -/

/-- R101: inside the row the padded Row is the Row. -/
theorem pad_natCast {w x : Nat} (r : Row) (hx : x < w) : pad w r x = r.getD x 0 := by
  simp [pad, hx]

/-- R101: the column left of column 0 is negative, not column W - 1. -/
theorem pad_of_neg (w : Nat) (r : Row) {x : Int} (hx : x < 0) : pad w r x = 0 :=
  if_neg fun h => absurd h.1 (by omega)

/-- R101: the columns from W on are padding. -/
theorem pad_of_width_le (r : Row) {w : Nat} {x : Int} (hx : (w : Int) ≤ x) : pad w r x = 0 :=
  if_neg fun h => absurd h.2 (by omega)

theorem sampleAt_minus {cfg : Config} (ring : Ring) (center : Slot) (k : Offset) {i : Nat} (hi : i < cfg.w) :
    sampleAt cfg ring center k i .minus = if i = 0 then 0 else ring.pixel (resolveSlot center k) (i - 1) := by
  split
  case isTrue h0 => exact pad_of_neg _ _ (by simp [h0, offsetInt])
  case isFalse h0 =>
    have hx : (i : Int) + offsetInt .minus = (i - 1 : Nat) := by simp only [offsetInt]; omega
    rw [sampleAt, hx, pad_natCast _ (by omega), Ring.pixel]

theorem sampleAt_zero {cfg : Config} (ring : Ring) (center : Slot) (k : Offset) {i : Nat} (hi : i < cfg.w) :
    sampleAt cfg ring center k i .zero = ring.pixel (resolveSlot center k) i := by
  rw [sampleAt, offsetInt, Int.add_zero, pad_natCast _ hi, Ring.pixel]

theorem sampleAt_plus {cfg : Config} (ring : Ring) (center : Slot) (k : Offset) {i : Nat} (hi : i < cfg.w) :
    sampleAt cfg ring center k i .plus =
      if i + 1 = cfg.w then 0 else ring.pixel (resolveSlot center k) (i + 1) := by
  have hx : (i : Int) + offsetInt .plus = (i + 1 : Nat) := rfl
  rw [sampleAt, hx]
  split
  case isTrue hw => exact pad_of_width_le _ (by omega)
  case isFalse hw => rw [pad_natCast _ (by omega), Ring.pixel]

/-! ## The sorted samples -/

/-- R103, U2: the ascending order of a list is unique, so any sort gives the list that `sortAsc` gives. -/
theorem eq_sortAsc_of_perm {t l : List Pixel} (hp : t.Perm l) (ht : t.Pairwise fun a b => a.toNat ≤ b.toNat) :
    t = sortAsc l :=
  (hp.trans (sortAsc_perm l).symm).eq_of_pairwise
    (fun _ _ _ _ hab hba => BitVec.eq_of_toNat_eq (Nat.le_antisymm hab hba)) ht (sortAsc_sorted l)

/-- R103: of five samples or more, place 4 of the sorted list is the median. -/
theorem getElem?_sortAsc_four {l : List Pixel} (hl : 4 < l.length) : (sortAsc l)[4]? = some (medianOf l) := by
  have h4 : 4 < (sortAsc l).length := by rwa [sortAsc_length]
  rw [medianOf, List.getD_eq_getElem _ _ h4, List.getElem?_eq_getElem h4]

/-! ## Filtered Rows -/

@[simp] theorem filtRowAt_length (cfg : Config) (ring : Ring) (center : Slot) :
    (filtRowAt cfg ring center).length = cfg.w := by
  rw [filtRowAt, List.length_map, List.length_range]

theorem filtRowAt_getD {cfg : Config} (ring : Ring) (center : Slot) {i : Nat} (hi : i < cfg.w) :
    (filtRowAt cfg ring center).getD i 0 = filtPixAt cfg ring center i := by
  simp [filtRowAt, hi]

/-! ## The obligations -/

/-- Settles O13: the sample is `sampleAt` of the operands, one clause for each horizontal offset. -/
theorem sampleReadsOrPads : Obligations.SampleReadsOrPads := by
  intro s center k i l hs hi
  refine ⟨sampleAt s.cfg s.ring center k i l, exec_sample center k l hs hi, ?_, ?_, ?_⟩
  · rintro rfl
    exact sampleAt_minus s.ring center k hi
  · rintro rfl
    exact sampleAt_zero s.ring center k hi
  · rintro rfl
    exact sampleAt_plus s.ring center k hi

/-- Settles O14: a sorted permutation of the samples is the list the model sorts them to. -/
theorem medianIsTheFifthSmallest : Obligations.MedianIsTheFifthSmallest := by
  intro s s0 s1 s2 s3 s4 s5 s6 s7 s8 hs
  refine ⟨_, exec_med9 s0 s1 s2 s3 s4 s5 s6 s7 s8 hs, fun t hp ht => ?_⟩
  rw [eq_sortAsc_of_perm hp ht]
  exact getElem?_sortAsc_four (by simp)

/-- Settles O19: the nine samples of `filtPixAt` are those that SAMPLE answers. -/
theorem filtPixIsTheMedianOfItsWindow : Obligations.FiltPixIsTheMedianOfItsWindow := by
  intro s center i hs hi
  exact ⟨fun k l => sampleAt s.cfg s.ring center k i l, fun k l => exec_sample center k l hs hi,
    exec_filtPix center hs hi⟩

/-- Settles O20: the Row is `filtRowAt`, whose Pixel at each column is the one FILTPIX answers. -/
theorem filtRowIsFiltPixPerColumn : Obligations.FiltRowIsFiltPixPerColumn := by
  intro s center hs
  refine ⟨filtRowAt s.cfg s.ring center, exec_filtRow center hs, filtRowAt_length _ _ _, fun i hi => ?_⟩
  rw [filtRowAt_getD s.ring center hi]
  exact exec_filtPix center hs hi

end Sys2Proof.Machine
end


section
/-! The FilterEngine (43_filterengine.md): when RECVW and ZEROROW are enabled, what they do then, and the four Pixels a beat
writes. -/

namespace Sys2Proof.Machine

/-! ## The operations on an instance that exists (R186) -/

theorem recvwEnabled_iff (w : Word) (s : State) :
    recvwEnabled w s = true ↔ s.phase = .load ∧ s.j < s.cfg.jLast ∧ bytesOfWord w <+: s.chanA := by
  simp [recvwEnabled, and_assoc]

theorem zerorowEnabled_iff (s : State) : zerorowEnabled s = true ↔ s.phase = .load ∧ s.j = s.cfg.jLast := by
  simp [zerorowEnabled]

theorem exec_recvw {s : State} (w : Word) (hs : s.cfg.legal = true) :
    exec (.recvw w) s = .next (whenEnabled (recvwEnabled w s) s (recvwNext w s)) :=
  completes_of_ok _ _ hs rfl

theorem exec_zerorow {s : State} (hs : s.cfg.legal = true) :
    exec .zerorow s = .next (whenEnabled (zerorowEnabled s) s (zerorowNext s)) :=
  completes_of_ok _ _ hs rfl

theorem exec_recvw_of_enabled {s : State} {w : Word} (hs : s.cfg.legal = true) (he : recvwEnabled w s = true) :
    exec (.recvw w) s = .next (recvwNext w s) := by
  rw [exec_recvw w hs, he, whenEnabled_true]

/-- R45, R142: RECVW waits when it is not enabled. -/
theorem exec_recvw_of_not_enabled {s : State} {w : Word} (hs : s.cfg.legal = true) (he : ¬ recvwEnabled w s = true) :
    exec (.recvw w) s = .next s := by
  rw [exec_recvw w hs, Bool.eq_false_of_not_eq_true he, whenEnabled_false]

theorem exec_zerorow_of_enabled {s : State} (hs : s.cfg.legal = true) (he : zerorowEnabled s = true) :
    exec .zerorow s = .next (zerorowNext s) := by
  rw [exec_zerorow hs, he, whenEnabled_true]

/-- R45, R49: fewer than four bytes are no Word yet. -/
theorem not_bytesOfWord_prefix_of_short {bs : List Byte} (w : Word) (h : bs.length < 4) : ¬ bytesOfWord w <+: bs :=
  fun hp => absurd hp.length_le (by rw [length_bytesOfWord]; omega)

/-! ## The Pixels of a beat -/

/-- R21, R26: the four columns of a beat lie in the Row it is written to. -/
theorem State.Legal.beat_in_row {s : State} (hs : s.Legal) (slot : Slot) :
    4 * s.c + 4 ≤ (s.ring.read slot).length := by
  have hc := hs.c
  rw [(Ring.wf_iff s.cfg s.ring).1 hs.ring slot, ← four_mul_wpr hs.config]
  omega

/-- R93, R81: Pixel `4 * m + n` of the slot is the Word's field `n`. -/
theorem Ring.pixel_writePixels4_unpack (r : Ring) {slot : Slot} {m n : Nat} (w : Word)
    (hm : 4 * m + 4 ≤ (r.read slot).length) (hn : n < 4) :
    (r.writePixels4 slot m (unpack w)).pixel slot (4 * m + n) = w.extractLsb' (8 * n) 8 := by
  have hx : 4 * m + n < (r.read slot).length := by omega
  rw [Ring.writePixels4, Ring.pixel_write_same, List.getD_eq_getElem _ _ (by simpa using hx)]
  simp only [List.getElem_set]
  interval_cases n <;> simp [unpack]

/-! ## What one beat does -/

/-- R93, R125: of the ring a beat writes four Pixels of the target slot. -/
theorem recvwNext_ring (w : Word) (s : State) :
    (recvwNext w s).ring = s.ring.writePixels4 (targetSlot s.nRow) s.c (unpack w) := by
  rw [recvwNext_spec, targetSlot_eq]

/-- R50, R125: a beat takes four bytes of channel A and touches nothing else outside MF3. -/
theorem recvwNext_frame (w : Word) (s : State) :
    (recvwNext w s).chanA = s.chanA.drop 4 ∧ (recvwNext w s).chanB = s.chanB ∧ SameRest s (recvwNext w s) := by
  rw [recvwNext_spec]
  exact ⟨rfl, rfl, rfl, rfl, rfl, rfl, rfl, rfl⟩

/-- R125: a beat before the row's last goes on to the next Word. -/
theorem recvwNext_of_more {s : State} (w : Word) (h : s.c < s.cfg.wpr - 1) :
    (recvwNext w s).c = s.c + 1 ∧ (recvwNext w s).nRow = s.nRow ∧ (recvwNext w s).j = s.j ∧
      (recvwNext w s).phase = s.phase := by
  simp [recvwNext_spec, h]

/-- R125, R140: the row's last beat ends the load. -/
theorem recvwNext_of_last {s : State} (w : Word) (h : s.c = s.cfg.wpr - 1) :
    (recvwNext w s).c = 0 ∧ (recvwNext w s).nRow = targetSlot s.nRow ∧
      (stepEmits s.cfg s.j = true → (recvwNext w s).phase = .emit ∧ (recvwNext w s).j = s.j) ∧
      (stepEmits s.cfg s.j = false → (recvwNext w s).phase = .load ∧ (recvwNext w s).j = s.j + 1) := by
  have hlast : ¬ s.c < s.cfg.wpr - 1 := by omega
  rw [recvwNext_spec, targetSlot_eq]
  refine ⟨if_neg hlast, if_neg hlast, fun he => ?_, fun he => ?_⟩ <;> simp [hlast, he]

/-! ## The obligations -/

/-- Settles O25: an enabled beat is `recvwNext`, its ring a write of the Word's four fields; on fewer than four bytes no
beat is enabled. -/
theorem recvwTakesOneWord : Obligations.RecvwTakesOneWord := by
  constructor
  · intro s w hs hshort
    refine exec_recvw_of_not_enabled hs fun he => ?_
    obtain ⟨-, -, hw⟩ := (recvwEnabled_iff w s).1 he
    exact not_bytesOfWord_prefix_of_short w hshort hw
  · intro s w hs hload hj hw
    obtain ⟨hA, hB, hrest⟩ := recvwNext_frame w s
    refine ⟨recvwNext w s, exec_recvw_of_enabled hs.config ((recvwEnabled_iff w s).2 ⟨hload, hj, hw⟩), hA, hB, hrest,
      val_resolveSlot_plus s.nRow, ?_, ?_, ?_, recvwNext_of_last w⟩
    · intro n hn
      rw [recvwNext_ring]
      exact Ring.pixel_writePixels4_unpack s.ring w (hs.beat_in_row _) hn
    · intro slot x hout
      rw [recvwNext_ring]
      exact Ring.pixel_writePixels4_of_outside _ _ _ _ _ _ hout
    · intro hmore
      rw [← hload]
      exact recvwNext_of_more w hmore

/-- Settles O27: ZEROROW's position is all it asks for, and its step sends a Row under both schedules. -/
theorem zerorowClearsTheTargetSlot : Obligations.ZerorowClearsTheTargetSlot := by
  intro s hs hload hj
  have hemit : stepEmits s.cfg s.j = true := hj ▸ stepEmits_jLast hs.config
  refine ⟨zerorowNext s, exec_zerorow_of_enabled hs.config ((zerorowEnabled_iff s).2 ⟨hload, hj⟩), ?_⟩
  rw [zerorowNext_spec, targetSlot_eq]
  refine ⟨rfl, rfl, ⟨rfl, rfl, rfl, rfl, rfl, rfl⟩, ?_, ?_, rfl, rfl, if_pos hemit, if_pos hemit⟩
  · exact Ring.read_write_same s.ring _ _
  · exact fun _ hne => Ring.read_write_of_ne s.ring _ hne

end Sys2Proof.Machine
end


section
/-! Rows, Words and the bytes of a channel (40_pixelcodec.md, 30_encoding.md): every codec of the model reads as the one
pair `bytesOfWords` and `wordsOfBytes`, which are inverse on whole Words. -/

namespace Sys2Proof.Machine

/-! ## Words and their bytes -/

/-- R44, R48: the whole Words at the head of a channel are the Words that were sent. -/
theorem wordsOfBytes_bytesOfWords_append (ws : List Word) {tail : List Byte} (ht : tail.length < 4) :
    wordsOfBytes (bytesOfWords ws ++ tail) = ws := by
  induction ws with
  | nil => exact List.length_eq_zero_iff.1 (by rw [length_wordsOfBytes, bytesOfWords_nil, List.nil_append]; omega)
  | cons w ws ih =>
    rw [bytesOfWords_cons, List.append_assoc, bytesOfWord, List.cons_append, List.cons_append, List.cons_append,
      List.cons_append, List.nil_append, wordsOfBytes, wordOfBytes_of_bytes, ih]

@[simp] theorem wordsOfBytes_bytesOfWords (ws : List Word) : wordsOfBytes (bytesOfWords ws) = ws := by
  simpa using wordsOfBytes_bytesOfWords_append ws (tail := []) (by simp)

/-- R49: what no whole Word covers is the remainder of the division by four. -/
theorem bytesOfWords_wordsOfBytes_append (bs : List Byte) :
    bytesOfWords (wordsOfBytes bs) ++ bs.drop (4 * (bs.length / 4)) = bs := by
  fun_induction wordsOfBytes bs with
  | case1 b0 b1 b2 b3 rest ih =>
    have hd : 4 * ((b0 :: b1 :: b2 :: b3 :: rest).length / 4) = 4 * (rest.length / 4) + 4 := by
      simp only [List.length_cons]; omega
    rw [hd, bytesOfWords_cons, bytesOfWord_wordOfBytes, List.append_assoc]
    simpa using ih
  | case2 bs hshort =>
    have hlt : bs.length < 4 := by
      match bs, hshort with
      | [], _ | [_], _ | [_, _], _ | [_, _, _], _ => simp
      | b0 :: b1 :: b2 :: b3 :: rest, h => exact absurd rfl (h b0 b1 b2 b3 rest)
    simp [Nat.div_eq_of_lt hlt]

theorem bytesOfWords_wordsOfBytes {bs : List Byte} (h : bs.length % 4 = 0) : bytesOfWords (wordsOfBytes bs) = bs := by
  have hd : bs.drop (4 * (bs.length / 4)) = [] := List.drop_eq_nil_of_le (by omega)
  simpa [hd] using bytesOfWords_wordsOfBytes_append bs

/-- R48: a byte of Words on a channel is a field of its Word. -/
theorem getElem?_bytesOfWords {ws : List Word} {m n : Nat} (hn : n < 4) (hm : m < ws.length) :
    (bytesOfWords ws)[4 * m + n]? = some ((ws.getD m 0).extractLsb' (8 * n) 8) := by
  induction ws generalizing m with
  | nil => simp at hm
  | cons w ws ih =>
    rw [bytesOfWords_cons]
    cases m with
    | zero => interval_cases n <;> simp [bytesOfWord]
    | succ m =>
      rw [List.getElem?_append_right (by rw [length_bytesOfWord]; omega), length_bytesOfWord,
        show 4 * (m + 1) + n - 4 = 4 * m + n by omega, ih (by simpa using hm), List.getD_cons_succ]

/-! ## Rows -/

/-- R48, R80: the Word of four Pixels travels as these four Pixels. -/
@[simp] theorem bytesOfWord_pack (p0 p1 p2 p3 : Pixel) : bytesOfWord (pack p0 p1 p2 p3) = [p0, p1, p2, p3] := by
  rw [pack_eq_wordOfBytes, bytesOfWord_wordOfBytes]

/-- R48, R83: unpacking Words gives the Pixels in the order in which their bytes travel. -/
theorem unpackRow_eq_bytesOfWords (ws : List Word) : unpackRow ws = bytesOfWords ws := rfl

/-- R48, R82: packing a Row reads its Pixels as the bytes of a channel. -/
theorem packRow_eq_wordsOfBytes (r : Row) : packRow r = wordsOfBytes r := by
  fun_induction packRow r with
  | case1 p0 p1 p2 p3 rest ih => rw [wordsOfBytes, ih, pack_eq_wordOfBytes]
  | case2 r hshort =>
    refine (List.length_eq_zero_iff.1 ?_).symm
    match r, hshort with
    | [], _ | [_], _ | [_, _], _ | [_, _, _], _ => rfl
    | p0 :: p1 :: p2 :: p3 :: rest, h => exact absurd rfl (h p0 p1 p2 p3 rest)

/-- R48: a whole Row on a channel is its Pixels in column order. -/
theorem rowBytes_eq_self {r : Row} (h : r.length % 4 = 0) : rowBytes r = r := by
  rw [rowBytes, packRow_eq_wordsOfBytes, bytesOfWords_wordsOfBytes h]

/-- R62: the Rows of a legal instance have whole Words. -/
theorem rowBytes_of_isRow {cfg : Config} {r : Row} (hl : cfg.legal = true) (h : r.length = cfg.w) : rowBytes r = r :=
  rowBytes_eq_self (by have := (legal_iff cfg).1 hl; omega)

@[simp] theorem packRow_unpackRow (ws : List Word) : packRow (unpackRow ws) = ws := by
  rw [unpackRow_eq_bytesOfWords, packRow_eq_wordsOfBytes, wordsOfBytes_bytesOfWords]

theorem unpackRow_packRow {r : Row} (h : r.length % 4 = 0) : unpackRow (packRow r) = r := rowBytes_eq_self h

/-- R82: Word `m` of a packed Row holds columns `4 * m` to `4 * m + 3`. -/
theorem getElem?_packRow {r : Row} {m : Nat} (hm : m < r.length / 4) : (packRow r)[m]? =
    some (pack (r.getD (4 * m) 0) (r.getD (4 * m + 1) 0) (r.getD (4 * m + 2) 0) (r.getD (4 * m + 3) 0)) := by
  induction m generalizing r with
  | zero =>
    match r, hm with
    | p0 :: p1 :: p2 :: p3 :: rest, _ => rfl
    | [], h | [_], h | [_, _], h | [_, _, _], h => simp at h
  | succ m ih =>
    match r, hm with
    | p0 :: p1 :: p2 :: p3 :: rest, hm =>
      have hm : m < rest.length / 4 := by simp only [List.length_cons] at hm; omega
      simpa [packRow, show 4 * (m + 1) = 4 * m + 4 by omega] using ih hm
    | [], h | [_], h | [_, _], h | [_, _, _], h => simp at h

/-! ## The beats of port A -/

/-- R66: only RECVW has bits at port A, those of its Word. -/
theorem encode_eq_some {i : Instr} {bs : List Byte} (h : encode i = some bs) : ∃ w, i = .recvw w ∧ bs = bytesOfWord w := by
  cases i with
  | recvw w => exact ⟨w, rfl, (Option.some.inj h).symm⟩
  | _ => cases h

/-- R66, R67: a stream of whole Words and an unfinished one is the beats of the Words, the rest left. -/
theorem decodeStream_bytesOfWords_append (ws : List Word) {tail : List Byte} (ht : tail.length < 4) :
    decodeStream (bytesOfWords ws ++ tail) = (ws.map Instr.recvw, tail) := by
  induction ws with
  | nil =>
    match tail, ht with
    | [], _ | [_], _ | [_, _], _ | [_, _, _], _ => rfl
    | b0 :: b1 :: b2 :: b3 :: rest, h => simp at h; omega
  | cons w ws ih =>
    rw [bytesOfWords_cons, List.append_assoc, bytesOfWord, List.cons_append, List.cons_append, List.cons_append,
      List.cons_append, List.nil_append, decodeStream, wordOfBytes_of_bytes, ih, List.map_cons]

/-! ## The obligations -/

/-- Settles O6: an operation with bits is a RECVW, a stream is read Word by Word, and any stream is its whole Words
followed by the remainder of its division by four. -/
theorem portStreamDecodesToItsBeats : Obligations.PortStreamDecodesToItsBeats := by
  refine ⟨fun i bs rest h => ?_, fun ws tail ht => decodeStream_bytesOfWords_append ws ht, fun bs => ?_⟩
  · obtain ⟨w, rfl, rfl⟩ := encode_eq_some h
    exact decode_bytesOfWord w rest
  · exact ⟨wordsOfBytes bs, bs.drop (4 * (bs.length / 4)), by rw [List.length_drop]; omega,
      (bytesOfWords_wordsOfBytes_append bs).symm⟩

/-- Settles O3: both codecs are the pair `bytesOfWords`, `wordsOfBytes`. -/
theorem rowCodecRoundTrips : Obligations.RowCodecRoundTrips :=
  ⟨fun r h => ⟨unpackRow_packRow h, length_packRow r⟩, fun ws => ⟨packRow_unpackRow ws, length_unpackRow ws⟩⟩

/-- Settles O4: by induction on the Word's place, and by the place of a byte in its Word. -/
theorem rowWordsCarryTheirColumns : Obligations.RowWordsCarryTheirColumns :=
  ⟨fun _ _ _ hm => getElem?_packRow hm, fun _ _ _ hn hm => getElem?_bytesOfWords hn hm⟩

/-- Settles O5: a Row's Words travel as its Pixels. -/
theorem lowByteTravelsFirst : Obligations.LowByteTravelsFirst :=
  ⟨fun _ h => rowBytes_eq_self h, fun _ _ _ hn hm => getElem?_bytesOfWords hn hm⟩

/-- Settles O7: five closed instances of the decoder. -/
theorem sampleWordsDecode : Obligations.SampleWordsDecode :=
  ⟨by decide, by decide, by decide, by decide, by decide⟩

end Sys2Proof.Machine
end


section
/-! The safe states (10_state.md section 7): what each move touches, and that every move and every operation keeps
`State.Legal` and, on the host's side, `State.HostLegal`. -/

namespace Sys2Proof.Machine

/-! ## What each move touches -/

/-- R12: a step is MF3's turn or a move of another agent, its move taken away first. -/
theorem step_turn_or_move {s t : State} (h : step s = .next t) :
    (∃ ms, mf3Turn (s.setMoves ms) = .next t) ∨ ∃ m ms, m ≠ .mf3 ∧ t = envMove m (s.setMoves ms) := by
  rcases step_cases h with ⟨-, h⟩ | ⟨ms, -, h⟩ | ⟨m, ms, -, hm, -, h⟩
  · exact .inl ⟨s.moves, h⟩
  · exact .inl ⟨ms, h⟩
  · exact .inr ⟨m, ms, hm, h⟩

@[refl] theorem SameRest.refl (s : State) : SameRest s s := ⟨rfl, rfl, rfl, rfl, rfl, rfl⟩

theorem SameRest.trans {s t u : State} (h : SameRest s t) (h' : SameRest t u) : SameRest s u := by
  obtain ⟨h1, h2, h3, h4, h5, h6⟩ := h
  obtain ⟨k1, k2, k3, k4, k5, k6⟩ := h'
  exact ⟨k1.trans h1, k2.trans h2, k3.trans h3, k4.trans h4, k5.trans h5, k6.trans h6⟩

theorem SameRest.cfg {s t : State} (h : SameRest s t) : t.cfg = s.cfg := h.1

theorem SameRest.consumer {s t : State} : SameRest s t → t.consumer = s.consumer
  | ⟨_, _, _, hk, _, _⟩ => hk

theorem SameRest.moves {s t : State} : SameRest s t → t.moves = s.moves
  | ⟨_, _, _, _, _, hm⟩ => hm

theorem SameEngine.phase {s t : State} : SameEngine s t → t.phase = s.phase
  | ⟨_, _, _, _, hp⟩ => hp

theorem recvwNext_sameRest (w : Word) (s : State) : SameRest s (recvwNext w s) := (recvwNext_frame w s).2.2

theorem zerorowNext_sameRest (s : State) : SameRest s (zerorowNext s) := by
  rw [zerorowNext_spec]
  exact ⟨rfl, rfl, rfl, rfl, rfl, rfl⟩

theorem emitwNext_sameRest (s : State) : SameRest s (emitwNext s) := by
  rw [emitwNext_spec]
  exact ⟨rfl, rfl, rfl, rfl, rfl, rfl⟩

/-- R22: MF3's turn touches nothing but MF3 and the channels. -/
theorem mf3Turn_sameRest {s t : State} (h : mf3Turn s = .next t) : SameRest s t := by
  obtain ⟨-, ⟨w, -, rfl⟩ | ⟨-, rfl⟩ | ⟨-, rfl⟩ | rfl⟩ := mf3Turn_cases h
  · exact recvwNext_sameRest w s
  · exact zerorowNext_sameRest s
  · exact emitwNext_sameRest s
  · exact .refl _

theorem producerTurn_frame (r : CallResult) (s : State) :
    producerTurn r s = { s with chanA := (producerTurn r s).chanA, producer := (producerTurn r s).producer } := by
  obtain ⟨-, h⟩ | ⟨-, -, h⟩ | ⟨-, -, n, -, h⟩ := producerTurn_cases r s
  · rw [h]
  · rw [h]; rfl
  · rw [h]; rfl

theorem consumerTurn_frame (r : CallResult) (s : State) :
    consumerTurn r s = { s with chanB := (consumerTurn r s).chanB, consumer := (consumerTurn r s).consumer } := by
  obtain ⟨-, h⟩ | ⟨-, n, -, h⟩ := consumerTurn_cases r s
  · rw [h]
  · rw [h]; rfl

/-- R22, R156: a move of the environment but the reset touches the channels, the host's contexts and the host's record
only. -/
theorem envMove_frame {m : Move} (hm : ∀ a b, m ≠ .reset a b) (s : State) :
    envMove m s = { s with
      chanA := (envMove m s).chanA
      chanB := (envMove m s).chanB
      producer := (envMove m s).producer
      consumer := (envMove m s).consumer
      resetSinceRun := (envMove m s).resetSinceRun } := by
  cases m with
  | mf3 => rfl
  | producer r => simp only [envMove]; rw [producerTurn_frame r s]
  | consumer r => simp only [envMove]; rw [consumerTurn_frame r s]
  | reset a b => exact absurd rfl (hm a b)
  | emptyChannels =>
    simp only [envMove, hostEmptyChannels]
    split <;> rfl
  | start available =>
    simp only [envMove, hostStart]
    split <;> rfl
  | tearDown p k => rfl

/-- R22: MF3's own state and the configuration stay in every move of the environment but the reset. -/
theorem envMove_sameEngine {m : Move} (hm : ∀ a b, m ≠ .reset a b) (s : State) :
    SameEngine s (envMove m s) ∧ (envMove m s).cfg = s.cfg := by
  rw [envMove_frame hm s]
  exact ⟨⟨rfl, rfl, rfl, rfl, rfl⟩, rfl⟩

@[simp] theorem envMove_cfg (m : Move) (s : State) : (envMove m s).cfg = s.cfg := by
  cases m with
  | reset a b => rfl
  | _ => exact (envMove_sameEngine (by simp) s).2

/-! ## MF3's own state -/

/-- R20: legality is of the configuration and MF3's own state. -/
theorem State.Legal.of_sameEngine {s t : State} (hs : s.Legal) (he : SameEngine s t) (hc : t.cfg = s.cfg) : t.Legal := by
  obtain ⟨hr, -, hj, hcc, hp⟩ := he
  obtain ⟨h1, h2, h3, h4, h5, h6⟩ := hs
  constructor <;> simpa only [hr, hj, hcc, hp, hc]

theorem State.Legal.setMoves {s : State} (hs : s.Legal) (ms : List Move) : (s.setMoves ms).Legal :=
  hs.of_sameEngine ⟨rfl, rfl, rfl, rfl, rfl⟩ rfl

/-- R140: only step 0 sends nothing, and it is not the last. -/
theorem lt_jLast_of_not_stepEmits {cfg : Config} {j : Nat} (hl : cfg.legal = true) (h : ¬ stepEmits cfg j = true) :
    j < cfg.jLast := by
  have hj : ¬ 1 ≤ j := fun hj => h (stepEmits_of_pos cfg hj)
  have := jLast_pos hl
  omega

/-- R125, R130: a beat of a real Row stays within the positions of the table. -/
theorem recvwNext_legal {s : State} {w : Word} (hs : s.Legal) (he : recvwEnabled w s = true) : (recvwNext w s).Legal := by
  obtain ⟨hp, hj, -⟩ := (recvwEnabled_iff w s).1 he
  have hc := hs.c
  rw [recvwNext_spec]
  refine ⟨hs.config, Ring.wf_writePixels4 _ _ _ hs.ring, ?_, ?_, ?_, ?_⟩
  · dsimp only; split <;> omega
  · dsimp only; split <;> omega
  · by_cases hm : s.c < s.cfg.wpr - 1
    · simp only [hm, if_true, true_or]; omega
    · simp [hm]
  · by_cases hm : s.c < s.cfg.wpr - 1
    · simp [hm, hp]
    · by_cases hem : stepEmits s.cfg s.j = true <;> simp [hm, hem]

/-- R127, R130: ZEROROW leads to the sending half of its step. -/
theorem zerorowNext_legal {s : State} (hs : s.Legal) (he : zerorowEnabled s = true) : (zerorowNext s).Legal := by
  obtain ⟨-, hj⟩ := (zerorowEnabled_iff s).1 he
  have hem : stepEmits s.cfg s.j = true := hj ▸ stepEmits_jLast hs.config
  have hw := wpr_pos hs.config
  rw [zerorowNext_spec]
  refine ⟨hs.config, Ring.wf_write _ hs.ring (zeroRow_length _), ?_, ?_, fun _ _ => rfl, ?_⟩
  · simpa [hem] using hs.j
  · exact hw
  · simp [hem]

/-- R128, R130: EMITW stays in the row, or begins the next step or pass. -/
theorem emitwNext_legal {s : State} (hs : s.Legal) (he : s.phase = .emit) : (emitwNext s).Legal := by
  have hc := hs.c
  have hj := hs.j
  rw [emitwNext_spec]
  refine ⟨hs.config, ?_, ?_, ?_, ?_, ?_⟩
  · dsimp only; split
    · exact hs.ring
    · exact Ring.wf_zero _
  · dsimp only; split
    · exact hj
    · split <;> omega
  · dsimp only; split <;> omega
  · by_cases hm : s.c < s.cfg.wpr - 1 <;> simp [hm, he]
  · by_cases hm : s.c < s.cfg.wpr - 1 <;> simp [hm, hs.emits he]

theorem emitwEnabled_iff (s : State) : emitwEnabled s = true ↔ s.phase = .emit ∧ s.HasRoomForWord := by
  simp only [emitwEnabled, Bool.and_eq_true, decide_eq_true_eq, roomB_iff Nat.le.refl]
  rfl

theorem mf3Turn_legal {s t : State} (hs : s.Legal) (h : mf3Turn s = .next t) : t.Legal := by
  obtain ⟨-, ⟨w, he, rfl⟩ | ⟨he, rfl⟩ | ⟨he, rfl⟩ | rfl⟩ := mf3Turn_cases h
  · exact recvwNext_legal hs he
  · exact zerorowNext_legal hs he
  · exact emitwNext_legal hs ((emitwEnabled_iff s).1 he).1
  · exact hs

theorem resetOf_legal {cfg : Config} (h : cfg.legal = true) : (State.resetOf cfg).Legal :=
  ⟨h, Ring.wf_zero cfg, Nat.zero_le _, wpr_pos h, fun _ _ => rfl, fun hp => by cases hp⟩

theorem envMove_legal {s : State} (hs : s.Legal) (m : Move) : (envMove m s).Legal := by
  cases m with
  | reset a b => exact (resetOf_legal hs.config).of_sameEngine ⟨rfl, rfl, rfl, rfl, rfl⟩ rfl
  | _ => exact hs.of_sameEngine (envMove_sameEngine (by simp) s).1 (envMove_cfg _ s)

/-! ## Steps and passes seen whole -/

/-- R129, R136, R140: everything a step seen whole does, at a step that sends or is not the last. -/
theorem rowstepNext_spec (x : Row) {s : State} (h : stepEmits s.cfg s.j = true ∨ s.j < s.cfg.jLast) :
    rowstepNext x s = { s with
      chanA := if s.j < s.cfg.jLast then s.chanA.drop (4 * s.cfg.wpr) else s.chanA
      chanB := s.chanB ++ if stepEmits s.cfg s.j then
        rowBytes (filtRowAt s.cfg (s.ring.write (s.nRow + 1) x) (s.nRow + 1)) else []
      ring := if s.j < s.cfg.jLast ∨ s.cfg.resetRingPerPass = false then s.ring.write (s.nRow + 1) x
        else Ring.zero s.cfg
      nRow := s.nRow + 1
      c := 0
      phase := .load
      j := if s.j < s.cfg.jLast then s.j + 1 else 0 } := by
  by_cases hj : s.j < s.cfg.jLast <;> by_cases hem : stepEmits s.cfg s.j = true
  · simp [rowstepNext, endLoad_spec, endStep_spec, portRead, portWrite, State.setRing, State.setChanA, State.setChanB,
      stepIsReal, hj, hem, rowBytes]
  · simp [rowstepNext, endLoad_spec, portRead, State.setRing, State.setChanA, stepIsReal, hj, hem]
  · simp [rowstepNext, endLoad_spec, endStep_spec, portWrite, State.setRing, State.setChanB, stepIsReal, hj, hem, rowBytes]
  · exact (h.elim hem hj).elim

/-- R140: a legal step sends or is not the last, since only step 0 sends nothing. -/
theorem stepEmits_or_lt_jLast {cfg : Config} (hl : cfg.legal = true) (j : Nat) :
    stepEmits cfg j = true ∨ j < cfg.jLast :=
  or_iff_not_imp_left.2 (lt_jLast_of_not_stepEmits hl)

/-- R22, R129: a step seen whole touches nothing but MF3 and the channels. -/
theorem rowstepNext_sameRest {s : State} (x : Row) (hl : s.cfg.legal = true) : SameRest s (rowstepNext x s) := by
  rw [rowstepNext_spec x (stepEmits_or_lt_jLast hl s.j)]
  exact ⟨rfl, rfl, rfl, rfl, rfl, rfl⟩

/-- R21, R129: a step seen whole keeps the state legal, whatever Row of W Pixels it loads. -/
theorem rowstepNext_legal {s : State} {x : Row} (hs : s.Legal) (hx : x.length = s.cfg.w) : (rowstepNext x s).Legal := by
  have hj := hs.j
  rw [rowstepNext_spec x (stepEmits_or_lt_jLast hs.config s.j)]
  refine ⟨hs.config, ?_, ?_, wpr_pos hs.config, fun _ _ => rfl, fun hp => by cases hp⟩
  · dsimp only; split
    · exact Ring.wf_write _ hs.ring hx
    · exact Ring.wf_zero _
  · dsimp only; split <;> omega

/-- R131: so does a run of steps seen whole. -/
theorem foldl_rowstepNext_legal (rows : List Row) {s : State} (hs : s.Legal) (hrows : ∀ r ∈ rows, r.length = s.cfg.w) :
    (rows.foldl (fun t x => rowstepNext x t) s).Legal ∧ SameRest s (rows.foldl (fun t x => rowstepNext x t) s) := by
  induction rows generalizing s with
  | nil => exact ⟨hs, .refl s⟩
  | cons x rows ih =>
    obtain ⟨hx, hrows⟩ := List.forall_mem_cons.1 hrows
    have hrest := rowstepNext_sameRest x hs.config
    have hcfg := hrest.1
    obtain ⟨hlegal, hrest'⟩ := ih (rowstepNext_legal hs hx) (by rwa [hcfg])
    exact ⟨hlegal, hrest.trans hrest'⟩

/-- R131, R140: a pass seen whole keeps the state legal. -/
theorem passNext_legal {rows : List Row} {s : State} (hs : s.Legal) (hrows : ∀ r ∈ rows, r.length = s.cfg.w) :
    (passNext rows s).Legal ∧ SameRest s (passNext rows s) := by
  refine foldl_rowstepNext_legal (rows ++ [s.cfg.zeroRow]) hs fun r hr => ?_
  rcases List.mem_append.1 hr with hr | hr
  · exact hrows r hr
  · rw [List.mem_singleton.1 hr, zeroRow_length]

/-! ## The operations run on their own -/

/-- R20: an operation's outcome is legal if its next state, on operands in range, is. -/
theorem completes_legal {s t u : State} {i : Instr} {m : String} (h : completes s i m t = .next u)
    (ht : i.wf s.cfg = true → t.Legal ∧ t.cfg = s.cfg) : u.Legal ∧ u.cfg = s.cfg := by
  obtain ⟨-, hw, rfl⟩ := (completes_eq_next s i m t u).1 h
  exact ht hw

/-- R142: an operation of the sequencer keeps the state legal if its effect does where it is enabled. -/
theorem whenEnabled_legal {b : Bool} {s t : State} (hs : s.Legal) (ht : b = true → t.Legal ∧ t.cfg = s.cfg) :
    (whenEnabled b s t).Legal ∧ (whenEnabled b s t).cfg = s.cfg := by
  cases b
  · exact ⟨hs, rfl⟩
  · exact ht rfl

theorem State.Legal.setAnswer {s : State} (hs : s.Legal) (v : Answer) : (s.setAnswer v).Legal :=
  hs.of_sameEngine ⟨rfl, rfl, rfl, rfl, rfl⟩ rfl

/-- R90: writing a whole slot keeps the state legal. -/
theorem State.Legal.setRing {s : State} (hs : s.Legal) {v : Ring} (hv : v.wf s.cfg = true) : (s.setRing v).Legal :=
  ⟨hs.config, hv, hs.j, hs.c, hs.zeroStep, hs.emits⟩

/-- Settles O43: an answer is no part of legality, and every other operation writes Rows of W Pixels and a position of the
table. -/
theorem everyOperationKeepsTheStateLegal : Obligations.EveryOperationKeepsTheStateLegal := by
  intro i s t hs h
  cases i with
  | ringWrite slot row =>
    refine completes_legal h fun hw => ⟨hs.setRing (Ring.wf_write slot hs.ring ?_), rfl⟩
    exact (isRow_iff s.cfg row).1 hw
  | recvw w =>
    refine completes_legal h fun _ => whenEnabled_legal hs fun he => ?_
    exact ⟨recvwNext_legal hs he, (recvwNext_sameRest w s).cfg⟩
  | zerorow =>
    exact completes_legal h fun _ => whenEnabled_legal hs fun he => ⟨zerorowNext_legal hs he, (zerorowNext_sameRest s).cfg⟩
  | emitw =>
    refine completes_legal h fun _ => whenEnabled_legal hs fun he => ?_
    exact ⟨emitwNext_legal hs ((emitwEnabled_iff s).1 he).1, (emitwNext_sameRest s).cfg⟩
  | rowstep x =>
    refine completes_legal h fun hw => whenEnabled_legal hs fun _ => ?_
    exact ⟨rowstepNext_legal hs ((isRow_iff s.cfg x).1 hw), (rowstepNext_sameRest x hs.config).cfg⟩
  | pass rows =>
    refine completes_legal h fun hw => whenEnabled_legal hs fun _ => ?_
    obtain ⟨hlegal, hcfg, -⟩ := passNext_legal (rows := rows) hs (by simp_all [Instr.wf])
    exact ⟨hlegal, hcfg⟩
  | _ => exact completes_legal h fun _ => ⟨hs.setAnswer _, rfl⟩

/-! ## The host's side -/

/-- R63: the Producer's side of `State.HostLegal`. -/
structure Producer.Legal (cfg : Config) (p : Producer) : Prop where
  frames   : ∀ f ∈ p.frames, isFrame cfg f = true
  rowsLeft : ∀ r ∈ p.rowsLeft, cfg.isRow r = true
  outbox   : p.outbox.length ≤ cfg.w

/-- R152, R155: the Consumer's side of `State.HostLegal`. -/
structure Consumer.Legal (cfg : Config) (k : Consumer) : Prop where
  got       : k.got.length < cfg.w
  rows      : k.rows.length < 3 * cfg.h ∧ ∀ r ∈ k.rows, cfg.isRow r = true
  presented : ∀ f ∈ k.presented, isFrame cfg f = true

/-- The host's side is in order where both contexts and the record are. -/
theorem hostLegal_iff (s : State) : s.HostLegal ↔ s.producer.Legal s.cfg ∧ s.consumer.Legal s.cfg ∧
    (s.resetSinceRun = true → s.producer.status ≠ .running ∧ s.consumer.status ≠ .running) :=
  ⟨fun ⟨h1, h2, h3, h4, h5, h6, h7⟩ => ⟨⟨h1, h2, h3⟩, ⟨h4, h5, h6⟩, h7⟩,
    fun ⟨⟨h1, h2, h3⟩, ⟨h4, h5, h6⟩, h7⟩ => ⟨h1, h2, h3, h4, h5, h6, h7⟩⟩

/-- R22: MF3's turns do not reach the host's side. -/
theorem State.HostLegal.of_sameRest {s t : State} (hs : s.HostLegal) (h : SameRest s t) : t.HostLegal := by
  obtain ⟨hc, -, hp, hk, hr, -⟩ := h
  rw [hostLegal_iff] at hs ⊢
  rwa [hc, hp, hk, hr]

theorem State.HostLegal.setMoves {s : State} (hs : s.HostLegal) (ms : List Move) : (s.setMoves ms).HostLegal :=
  (hostLegal_iff _).2 ((hostLegal_iff s).1 hs)

/-- R153, R154: packing the next Row keeps the Producer in order. -/
theorem Producer.Legal.refill {cfg : Config} {p : Producer} (hp : p.Legal cfg) : (p.refill cfg).Legal cfg := by
  have hlen {r : Row} (hr : cfg.isRow r = true) : (rowBytes r).length ≤ cfg.w := by
    rw [length_rowBytes, (isRow_iff cfg r).1 hr]; omega
  obtain ⟨hf, hl, ho⟩ := hp
  obtain h | ⟨r, rs, -, hrows, h⟩ | ⟨f, fs, -, -, hfr, hw, ⟨r, rs, hrows, h⟩ | ⟨-, h⟩⟩ := refill_cases cfg p <;> rw [h]
  · exact ⟨hf, hl, ho⟩
  · obtain ⟨hr, hrs⟩ := List.forall_mem_cons.1 (hrows ▸ hl)
    exact ⟨hf, hrs, hlen hr⟩
  · have hall : ∀ x ∈ frameRows f, cfg.isRow x = true := fun x hx => (isRow_iff cfg x).2 ((frameRows_spec hw).2 x hx)
    obtain ⟨hr, hrs⟩ := List.forall_mem_cons.1 (hrows ▸ hall)
    exact ⟨(List.forall_mem_cons.1 (hfr ▸ hf)).2, hrs, hlen hr⟩
  · exact ⟨(List.forall_mem_cons.1 (hfr ▸ hf)).2, hl, ho⟩

/-- R152, R155: taking bytes that do not go beyond its Row keeps the Consumer in order. -/
theorem Consumer.Legal.accept {cfg : Config} {k : Consumer} {bs : List Byte} (hl : cfg.legal = true)
    (hk : k.Legal cfg) (hbs : bs.length ≤ cfg.w - k.got.length) : (k.accept cfg bs).Legal cfg := by
  have hcfg := (legal_iff cfg).1 hl
  obtain ⟨hg, ⟨hn, hrows⟩, hp⟩ := hk
  obtain ⟨hlt, h⟩ | ⟨hw, hor⟩ := accept_cases cfg bs k
  · rw [h]
    exact ⟨hlt, ⟨hn, hrows⟩, hp⟩
  have hfull : (k.got ++ bs).length = cfg.w := by rw [List.length_append] at hw ⊢; omega
  have hrow : (unpackRow (wordsOfBytes (k.got ++ bs))).length = cfg.w := by
    rw [length_unpackRow, length_wordsOfBytes, hfull]; omega
  have hall : ∀ r ∈ k.rows ++ [unpackRow (wordsOfBytes (k.got ++ bs))], r.length = cfg.w := by
    intro r hr
    rcases List.mem_append.1 hr with hr | hr
    · exact (isRow_iff cfg r).1 (hrows r hr)
    · rwa [List.mem_singleton.1 hr]
  obtain ⟨hmore, h⟩ | ⟨hlast, h⟩ := hor <;> rw [h]
  · refine ⟨?_, ⟨?_, fun r hr => (isRow_iff cfg r).2 (hall r hr)⟩, hp⟩
    · simp only [List.length_nil]; omega
    · simpa using hmore
  · refine ⟨?_, ⟨?_, by simp⟩, fun f hf => ?_⟩
    · simp only [List.length_nil]; omega
    · simp only [List.length_nil]; omega
    · rcases List.mem_append.1 hf with hf | hf
      · exact hp f hf
      · rw [List.mem_singleton.1 hf]
        refine isFrame_assembleFrame ?_ hall
        simp only [List.length_append, List.length_singleton]; omega

theorem producerTurn_hostLegal {s : State} (hs : s.HostLegal) (r : CallResult) : (producerTurn r s).HostLegal := by
  have ⟨hp, hk, hrec⟩ := (hostLegal_iff s).1 hs
  have hp' := hp.refill
  obtain ⟨-, h⟩ | ⟨-, -, h⟩ | ⟨hrun, -, n, -, h⟩ := producerTurn_cases r s
  · rwa [h]
  · rw [h, hostLegal_iff]
    exact ⟨hp', hk, by simpa using hrec⟩
  · rw [h, hostLegal_iff]
    refine ⟨⟨hp'.frames, hp'.rowsLeft, ?_⟩, hk, fun hres => absurd hrun (hrec hres).1⟩
    exact (List.drop_sublist _ _).length_le.trans hp'.outbox

theorem consumerTurn_hostLegal {s : State} (hl : s.cfg.legal = true) (hs : s.HostLegal) (r : CallResult) :
    (consumerTurn r s).HostLegal := by
  have ⟨hp, hk, hrec⟩ := (hostLegal_iff s).1 hs
  obtain ⟨-, h⟩ | ⟨hrun, n, hn, h⟩ := consumerTurn_cases r s
  · rwa [h]
  · have hk' := hk.accept (bs := s.chanB.take n) hl (by rw [List.length_take]; omega)
    rw [h, hostLegal_iff]
    exact ⟨hp, ⟨hk'.got, hk'.rows, hk'.presented⟩, fun hres => absurd hrun (hrec hres).2⟩

/-- R201: a context that begins or ends with empty scratch buffers is in order where the rest of it is. -/
theorem Producer.Legal.cleared {cfg : Config} {p : Producer} (hp : p.Legal cfg) (st : HostStatus) :
    Producer.Legal cfg { p with status := st, rowsLeft := [], outbox := [] } :=
  ⟨hp.frames, by simp, by simp⟩

theorem Consumer.Legal.cleared {cfg : Config} {k : Consumer} (hl : cfg.legal = true) (hk : k.Legal cfg)
    (st : HostStatus) : Consumer.Legal cfg { k with status := st, got := [], rows := [] } := by
  have hcfg := (legal_iff cfg).1 hl
  exact ⟨show 0 < cfg.w by omega, ⟨show 0 < 3 * cfg.h by omega, by simp⟩, hk.presented⟩

theorem envMove_hostLegal {s : State} (hl : s.cfg.legal = true) (hs : s.HostLegal) (m : Move) :
    (envMove m s).HostLegal := by
  have ⟨hp, hk, hrec⟩ := (hostLegal_iff s).1 hs
  cases m with
  | mf3 => exact hs
  | producer r => exact producerTurn_hostLegal hs r
  | consumer r => exact consumerTurn_hostLegal hl hs r
  | reset a b => exact (hostLegal_iff _).2 ⟨hp, hk, of_decide_eq_true⟩
  | emptyChannels =>
    simp only [envMove, hostEmptyChannels]
    split
    · exact (hostLegal_iff _).2 ⟨hp, hk, hrec⟩
    · exact hs
  | start available =>
    simp only [envMove, hostStart]
    split
    · exact hs
    · refine (hostLegal_iff _).2 ⟨hp.cleared _, hk.cleared hl _, fun hres => ?_⟩
      have hok : ¬ (hostConfigOk s.cfg && available) = true := fun hok => by simp [hok] at hres
      simp [hok]
  | tearDown p k =>
    refine (hostLegal_iff _).2 ⟨?_, ?_, fun hres => ?_⟩
    · cases p
      exacts [hp, hp.cleared _]
    · cases k
      exacts [hk, hk.cleared hl _]
    · obtain ⟨h1, h2⟩ := hrec hres
      cases p <;> cases k <;> simp_all [envMove, hostTearDown, Producer.tearDown, Consumer.tearDown]

/-! ## Every step -/

/-- Settles O42: MF3's turn keeps its positions and its ring in order and does not reach the host; a move of another agent
leaves MF3 alone or resets it, and keeps the contexts in order. -/
theorem everyStepKeepsTheStateLegal : Obligations.EveryStepKeepsTheStateLegal := by
  intro s t hs h
  obtain ⟨ms, h⟩ | ⟨m, ms, -, rfl⟩ := step_turn_or_move h
  · have hrest := mf3Turn_sameRest h
    refine ⟨mf3Turn_legal (hs.setMoves ms) h, hrest.cfg, fun hh => ?_⟩
    exact (hh.setMoves ms).of_sameRest hrest
  · refine ⟨envMove_legal (hs.setMoves ms) m, envMove_cfg m _, fun hh => ?_⟩
    exact envMove_hostLegal (hs.setMoves ms).config (hh.setMoves ms) m

/-- R136: the ring of an instance with clearing is zero at a pass start. -/
def ClearAtStart (s : State) : Prop :=
  s.phase = .load → s.j = 0 → s.c = 0 → s.ring = Ring.zero s.cfg

theorem ClearAtStart.of_sameEngine {s t : State} (hs : ClearAtStart s) (he : SameEngine s t) (hcfg : t.cfg = s.cfg) :
    ClearAtStart t := by
  obtain ⟨hr, -, hj, hc, hp⟩ := he
  rw [ClearAtStart, hr, hj, hc, hp, hcfg]
  exact hs

/-- R136: MF3 comes to a pass start only by the last EMITW of a pass, which clears the ring. -/
theorem mf3Turn_clearAtStart {s t : State} (hs : s.Legal) (hclear : s.cfg.resetRingPerPass = true)
    (hinv : ClearAtStart s) (h : mf3Turn s = .next t) : ClearAtStart t := by
  obtain ⟨-, ⟨w, -, rfl⟩ | ⟨he, rfl⟩ | ⟨-, rfl⟩ | rfl⟩ := mf3Turn_cases h
  · intro hp hj hc
    rw [recvwNext_spec] at hp hj hc
    by_cases hm : s.c < s.cfg.wpr - 1
    · simp [hm] at hc
    · by_cases hem : stepEmits s.cfg s.j = true
      · simp [hm, hem] at hp
      · simp [hm, hem] at hj
  · intro hp
    have hj : s.j = s.cfg.jLast := ((zerorowEnabled_iff s).1 he).2
    simp [zerorowNext_spec, hj, stepEmits_jLast hs.config] at hp
  · intro hp hj hc
    rw [emitwNext_spec] at hp hj hc ⊢
    by_cases hm : s.c < s.cfg.wpr - 1
    · simp [hm] at hc
    · by_cases hlast : s.j < s.cfg.jLast
      · simp [hm, hlast] at hj
      · simp [hm, hlast, hclear]
  · exact hinv

/-- Settles O44: MF3's turn clears as it ends a pass, the reset event clears, and no other move reaches MF3. -/
theorem clearedRingAtEveryPassStart : Obligations.ClearedRingAtEveryPassStart := by
  intro s t hs hclear hinv h
  obtain ⟨ms, h⟩ | ⟨m, ms, -, rfl⟩ := step_turn_or_move h
  · exact mf3Turn_clearAtStart (hs.setMoves ms) hclear hinv h
  · cases m with
    | reset a b => exact fun _ _ _ => rfl
    | _ => exact ClearAtStart.of_sameEngine hinv (envMove_sameEngine (by simp) (s.setMoves ms)).1 (envMove_cfg _ _)

end Sys2Proof.Machine
end


section
/-! The sequencer (43_filterengine.md section 4): which operation a position selects, what MF3's turn does there, and the
tables of both schedules. -/

namespace Sys2Proof.Machine

/-! ## Whose turn it is -/

theorem step_of_no_moves {s : State} (h : s.moves = []) : step s = mf3Turn s := by
  simp [step, nextMove, h]

theorem step_of_mf3 {s : State} {ms : List Move} (h : s.moves = .mf3 :: ms) : step s = mf3Turn (s.setMoves ms) := by
  simp [step, nextMove, h]

/-! ## The operation of a position -/

/-- R44: four bytes at the head of a channel are a Word. -/
theorem exists_word_of_four_le {bs : List Byte} (h : 4 ≤ bs.length) : ∃ w, bytesOfWord w <+: bs := by
  match bs, h with
  | b0 :: b1 :: b2 :: b3 :: rest, _ => exact ⟨wordOfBytes b0 b1 b2 b3, rest, by rw [bytesOfWord_wordOfBytes]; rfl⟩

theorem decode_of_prefix {bs : List Byte} {w : Word} (h : bytesOfWord w <+: bs) : ∃ rest, decode bs = .ok (.recvw w, rest) := by
  obtain ⟨rest, rfl⟩ := h
  exact ⟨rest, decode_bytesOfWord w rest⟩

theorem decode_of_short {bs : List Byte} (h : bs.length < 4) : decode bs = .error (.incompleteWord bs.length) := by
  match bs, h with
  | [], _ | [_], _ | [_, _], _ | [_, _, _], _ => rfl
  | _ :: _ :: _ :: _ :: _, h => simp only [List.length_cons] at h; omega

section selectOp
variable {s : State}

theorem selectOp_of_emit (hp : s.phase = .emit) : selectOp s = some .emitw := by simp [selectOp, hp]

theorem selectOp_of_real {i : Instr} {rest : List Byte} (hp : s.phase = .load) (hj : s.j < s.cfg.jLast)
    (hd : decode s.chanA = .ok (i, rest)) : selectOp s = some i := by simp [selectOp, hp, stepIsReal, hj, hd]

theorem selectOp_of_short (hp : s.phase = .load) (hj : s.j < s.cfg.jLast) (h : s.chanA.length < 4) :
    selectOp s = none := by simp [selectOp, hp, stepIsReal, hj, decode_of_short h]

theorem selectOp_of_last (hp : s.phase = .load) (hj : s.j = s.cfg.jLast) : selectOp s = some .zerorow := by
  simp [selectOp, hp, stepIsReal, stepIsZero, hj]

theorem selectOp_of_beyond (hp : s.phase = .load) (hj : s.cfg.jLast < s.j) : selectOp s = none := by
  simp [selectOp, hp, stepIsReal, stepIsZero, hj.not_gt, hj.ne']

theorem mf3Turn_of_some {i : Instr} (hl : s.cfg.legal = true) (h : selectOp s = some i) : mf3Turn s = exec i s := by
  simp [mf3Turn, hl, h]

theorem mf3Turn_of_none (hl : s.cfg.legal = true) (h : selectOp s = none) : mf3Turn s = .next s := by
  simp [mf3Turn, hl, h]

end selectOp

/-! ## When an operation is enabled -/

theorem exec_emitw {s : State} (hs : s.cfg.legal = true) :
    exec .emitw s = .next (whenEnabled (emitwEnabled s) s (emitwNext s)) :=
  completes_of_ok _ _ hs rfl

theorem exec_emitw_of_enabled {s : State} (hs : s.cfg.legal = true) (he : emitwEnabled s = true) :
    exec .emitw s = .next (emitwNext s) := by
  rw [exec_emitw hs, he, whenEnabled_true]

theorem exec_emitw_of_not_enabled {s : State} (hs : s.cfg.legal = true) (he : ¬ emitwEnabled s = true) :
    exec .emitw s = .next s := by
  rw [exec_emitw hs, Bool.eq_false_of_not_eq_true he, whenEnabled_false]

theorem mf3Enabled_of_emitw {s : State} (he : emitwEnabled s = true) : mf3Enabled s = true := by
  simp_all [mf3Enabled, emitwEnabled]

/-- R45, R186: MF3 waits for a Word, or for room, or outside the table. -/
theorem waits_iff (s : State) : s.Waits ↔ (s.phase = .load ∧ s.j < s.cfg.jLast ∧ s.chanA.length < 4) ∨
    (s.phase = .load ∧ s.cfg.jLast < s.j) ∨ (s.phase = .emit ∧ ¬ s.HasRoomForWord) := by
  unfold State.Waits mf3Enabled
  cases hp : s.phase with
  | emit => simp [State.HasRoomForWord, ← roomB_iff (s := s) Nat.le.refl]
  | load =>
    obtain hj | hj | hj := Nat.lt_trichotomy s.j s.cfg.jLast
    · simp [stepIsReal, hj, hj.not_gt]
    · simp [stepIsReal, stepIsZero, hj]
    · simp [stepIsReal, stepIsZero, hj, hj.not_gt, hj.ne']

/-- R45: what waits for a position of the table waits at a port. -/
theorem waits_iff_of_legal {s : State} (hs : s.Legal) : s.Waits ↔
    (s.phase = .load ∧ s.j < s.cfg.jLast ∧ s.chanA.length < 4) ∨ (s.phase = .emit ∧ ¬ s.HasRoomForWord) := by
  have hj : ¬ s.cfg.jLast < s.j := hs.j.not_gt
  simp only [waits_iff, hj, and_false, false_or]

/-! ## MF3's turn -/

section turn
variable {s : State}

theorem mf3Turn_of_recvw {w : Word} (hl : s.cfg.legal = true) (he : recvwEnabled w s = true) :
    mf3Turn s = .next (recvwNext w s) := by
  obtain ⟨hp, hj, hw⟩ := (recvwEnabled_iff w s).1 he
  obtain ⟨rest, hd⟩ := decode_of_prefix hw
  rw [mf3Turn_of_some hl (selectOp_of_real hp hj hd), exec_recvw_of_enabled hl he]

theorem mf3Turn_of_zerorow (hl : s.cfg.legal = true) (he : zerorowEnabled s = true) :
    mf3Turn s = .next (zerorowNext s) := by
  obtain ⟨hp, hj⟩ := (zerorowEnabled_iff s).1 he
  rw [mf3Turn_of_some hl (selectOp_of_last hp hj), exec_zerorow_of_enabled hl he]

theorem mf3Turn_of_emitw (hl : s.cfg.legal = true) (he : emitwEnabled s = true) :
    mf3Turn s = .next (emitwNext s) := by
  rw [mf3Turn_of_some hl (selectOp_of_emit ((emitwEnabled_iff s).1 he).1), exec_emitw_of_enabled hl he]

theorem mf3Turn_of_waits (hl : s.cfg.legal = true) (h : s.Waits) : mf3Turn s = .next s := by
  obtain ⟨hp, hj, hA⟩ | ⟨hp, hj⟩ | ⟨hp, hroom⟩ := (waits_iff s).1 h
  · exact mf3Turn_of_none hl (selectOp_of_short hp hj hA)
  · exact mf3Turn_of_none hl (selectOp_of_beyond hp hj)
  · rw [mf3Turn_of_some hl (selectOp_of_emit hp), exec_emitw_of_not_enabled hl]
    exact fun he => hroom ((emitwEnabled_iff s).1 he).2

/-- R130: an operation is enabled, or MF3 waits. -/
theorem enabled_or_waits (s : State) :
    (∃ w, recvwEnabled w s = true) ∨ zerorowEnabled s = true ∨ emitwEnabled s = true ∨ s.Waits := by
  cases hp : s.phase with
  | emit =>
    by_cases hroom : s.HasRoomForWord
    · exact .inr (.inr (.inl ((emitwEnabled_iff s).2 ⟨hp, hroom⟩)))
    · exact .inr (.inr (.inr ((waits_iff s).2 (.inr (.inr ⟨hp, hroom⟩)))))
  | load =>
    obtain hj | hj | hj := Nat.lt_trichotomy s.j s.cfg.jLast
    · by_cases hA : 4 ≤ s.chanA.length
      · obtain ⟨w, hw⟩ := exists_word_of_four_le hA
        exact .inl ⟨w, (recvwEnabled_iff w s).2 ⟨hp, hj, hw⟩⟩
      · exact .inr (.inr (.inr ((waits_iff s).2 (.inl ⟨hp, hj, by omega⟩))))
    · exact .inr (.inl ((zerorowEnabled_iff s).2 ⟨hp, hj⟩))
    · exact .inr (.inr (.inr ((waits_iff s).2 (.inr (.inl ⟨hp, hj⟩)))))

/-- R130: on an instance that exists MF3's turn is the operation that is enabled, or it waits. -/
theorem mf3Turn_outcome (hl : s.cfg.legal = true) :
    (∃ w, recvwEnabled w s = true ∧ mf3Turn s = .next (recvwNext w s)) ∨
    (zerorowEnabled s = true ∧ mf3Turn s = .next (zerorowNext s)) ∨
    (emitwEnabled s = true ∧ mf3Turn s = .next (emitwNext s)) ∨ (s.Waits ∧ mf3Turn s = .next s) := by
  obtain ⟨w, he⟩ | he | he | h := enabled_or_waits s
  · exact .inl ⟨w, he, mf3Turn_of_recvw hl he⟩
  · exact .inr (.inl ⟨he, mf3Turn_of_zerorow hl he⟩)
  · exact .inr (.inr (.inl ⟨he, mf3Turn_of_emitw hl he⟩))
  · exact .inr (.inr (.inr ⟨h, mf3Turn_of_waits hl h⟩))

/-- R130: a turn that is not refused is the operation that is enabled, or MF3 waits. -/
theorem mf3Turn_next_cases {t : State} (h : mf3Turn s = .next t) :
    (∃ w, recvwEnabled w s = true ∧ t = recvwNext w s) ∨ (zerorowEnabled s = true ∧ t = zerorowNext s) ∨
    (emitwEnabled s = true ∧ t = emitwNext s) ∨ (s.Waits ∧ t = s) := by
  obtain ⟨w, he, h'⟩ | ⟨he, h'⟩ | ⟨he, h'⟩ | ⟨he, h'⟩ := mf3Turn_outcome (mf3Turn_cases h).1 <;>
    cases h'.symm.trans h
  · exact .inl ⟨w, he, rfl⟩
  · exact .inr (.inl ⟨he, rfl⟩)
  · exact .inr (.inr (.inl ⟨he, rfl⟩))
  · exact .inr (.inr (.inr ⟨he, rfl⟩))

end turn

/-! ## What one beat does -/

/-- R128: an EMITW before the row's last goes on to the next Word. -/
theorem emitwNext_of_more {s : State} (h : s.c < s.cfg.wpr - 1) :
    (emitwNext s).c = s.c + 1 ∧ (emitwNext s).j = s.j ∧ (emitwNext s).phase = s.phase ∧
      (emitwNext s).ring = s.ring := by
  simp [emitwNext_spec, h]

/-- R128, R136: the row's last EMITW ends the step. -/
theorem emitwNext_of_last {s : State} (h : s.c = s.cfg.wpr - 1) :
    (emitwNext s).c = 0 ∧ (emitwNext s).phase = .load ∧
      (emitwNext s).j = (if s.j < s.cfg.jLast then s.j + 1 else 0) ∧
      (emitwNext s).ring =
        if s.j < s.cfg.jLast ∨ s.cfg.resetRingPerPass = false then s.ring else Ring.zero s.cfg := by
  have hlast : ¬ s.c < s.cfg.wpr - 1 := by omega
  simp [emitwNext_spec, hlast]

/-- R128: an EMITW sends one Word and touches nothing else outside the position and the ring. -/
theorem emitwNext_frame (s : State) : (emitwNext s).chanB = s.chanB ++ bytesOfWord (emitWord s) ∧
    (emitwNext s).chanA = s.chanA ∧ SameRest s (emitwNext s) ∧ (emitwNext s).nRow = s.nRow := by
  refine ⟨?_, ?_, emitwNext_sameRest s, ?_⟩ <;> rw [emitwNext_spec]

/-- R127, R130: the position after ZEROROW. -/
theorem zerorowNext_position {s : State} (hl : s.cfg.legal = true) (hj : s.j = s.cfg.jLast) :
    (zerorowNext s).phase = .emit ∧ (zerorowNext s).j = s.cfg.jLast ∧ (zerorowNext s).c = 0 ∧
      (zerorowNext s).nRow = s.nRow + 1 := by
  have hem : stepEmits s.cfg s.cfg.jLast = true := stepEmits_jLast hl
  simp [zerorowNext_spec, hj, hem]

/-- R26: the counter is at the row's last Word or before it. -/
theorem State.Legal.c_lt_or_eq {s : State} (hs : s.Legal) : s.c < s.cfg.wpr - 1 ∨ s.c = s.cfg.wpr - 1 := by
  have := hs.c
  omega

/-! ## The obligations -/

/-- Settles O28: an enabled EMITW is `emitwNext`, within the row or at its end. -/
theorem emitwSendsOneWord : Obligations.EmitwSendsOneWord := by
  intro s hs hp hroom
  obtain ⟨hB, hA, hrest, hn⟩ := emitwNext_frame s
  refine ⟨emitwNext s, exec_emitw_of_enabled hs.config ((emitwEnabled_iff s).2 ⟨hp, hroom⟩), hB, hA, hrest, hn,
    ?_, ?_, ?_, ?_⟩
  · intro hm
    obtain ⟨hc, hj, hp', -⟩ := emitwNext_of_more hm
    exact ⟨hc, hj, hp'.trans hp⟩
  · intro hlast
    obtain ⟨hc, hp', hj, -⟩ := emitwNext_of_last hlast
    exact ⟨hc, hp', hj⟩
  · intro h
    rw [emitwNext_spec]
    exact if_pos h
  · intro hlast hj hclear slot
    obtain ⟨-, -, -, hring⟩ := emitwNext_of_last hlast
    rw [hring, if_neg (by simp [hj, hclear]), Ring.read_zero]

/-- Settles O36: the operation is the one `selectOp` names, and a placed Word is at a position that takes one. -/
theorem stepRunsTheSelectedOperation : Obligations.StepRunsTheSelectedOperation := by
  intro s hl
  refine ⟨step_of_no_moves, fun ms h => step_of_mf3 h,
    fun i rest hp hj hd => mf3Turn_of_some hl (selectOp_of_real hp hj hd),
    fun hp hj => mf3Turn_of_some hl (selectOp_of_last hp hj),
    fun hp => mf3Turn_of_some hl (selectOp_of_emit hp), fun w => ?_⟩
  have hj : (if stepIsReal s.cfg s.j then s.j else 0) < s.cfg.jLast := by
    split
    next h => exact (stepIsReal_iff _ _).1 h
    next => exact jLast_pos hl
  exact (step_of_mf3 rfl).trans (mf3Turn_of_some hl (selectOp_of_real rfl hj (decode_bytesOfWord _ s.chanA)))

/-- Settles O37: the position selects the operation, and its effect names the next position. -/
theorem literalSequencerTable : Obligations.LiteralSequencerTable := by
  intro s hs hlit hm
  have hl := hs.config
  have hem : stepEmits s.cfg s.j = true := by simp [stepEmits, hlit]
  rw [step_of_no_moves hm, ← jLast_literal hlit]
  refine ⟨fun hp hj hA => mf3Turn_of_none hl (selectOp_of_short hp hj hA), ?_, ?_, ?_, ?_⟩
  · intro hp hj hA
    obtain ⟨w, hw⟩ := exists_word_of_four_le hA
    have he := (recvwEnabled_iff w s).2 ⟨hp, hj, hw⟩
    refine ⟨w, recvwNext w s, hw, ?_, mf3Turn_of_recvw hl he, fun hmore => ?_, fun hlast => ?_⟩
    · rw [mf3Turn_of_recvw hl he, exec_recvw_of_enabled hl he]
    · obtain ⟨hc, hn, hj', hp'⟩ := recvwNext_of_more w hmore
      exact ⟨hp'.trans hp, hj', hc, hn⟩
    · obtain ⟨hc, hn, hemits, -⟩ := recvwNext_of_last w hlast
      exact ⟨(hemits hem).1, (hemits hem).2, hc, by rw [hn, targetSlot_eq]⟩
  · intro hp hj
    have he := (zerorowEnabled_iff s).2 ⟨hp, hj⟩
    refine ⟨hs.zeroStep hp hj, zerorowNext s, ?_, mf3Turn_of_zerorow hl he, zerorowNext_position hl hj⟩
    rw [mf3Turn_of_zerorow hl he, exec_zerorow_of_enabled hl he]
  · exact fun hp hroom => mf3Turn_of_waits hl ((waits_iff s).2 (.inr (.inr ⟨hp, hroom⟩)))
  · intro hp hroom
    have he := (emitwEnabled_iff s).2 ⟨hp, hroom⟩
    obtain ⟨-, -, -, hn⟩ := emitwNext_frame s
    refine ⟨emitwNext s, ?_, mf3Turn_of_emitw hl he, hn, fun hmore => ?_, fun hlast hj => ?_, fun hlast hj => ?_⟩
    · rw [mf3Turn_of_emitw hl he, exec_emitw_of_enabled hl he]
    · obtain ⟨hc, hj', hp', hr⟩ := emitwNext_of_more hmore
      exact ⟨hp'.trans hp, hj', hc, hr⟩
    · obtain ⟨hc, hp', hj', hr⟩ := emitwNext_of_last hlast
      exact ⟨hp', by rw [hj', if_pos hj], hc, by rw [hr, if_pos (.inl hj)]⟩
    · obtain ⟨hc, hp', hj', hr⟩ := emitwNext_of_last hlast
      refine ⟨hp', by rw [hj', if_neg (by omega)], hc, ?_⟩
      rw [hr]
      cases s.cfg.resetRingPerPass <;> simp [hj]

/-- Settles O38: the table of LITERAL with its last step at H, and step 0 without a sending half. -/
theorem ratePreservingSequencerTable : Obligations.RatePreservingSequencerTable := by
  intro s hs hrp hm
  have hl := hs.config
  have hem (j : Nat) : stepEmits s.cfg j = true ↔ 1 ≤ j := by simp [stepEmits, hrp]
  rw [step_of_no_moves hm, ← jLast_ratePreserving hrp]
  refine ⟨fun hp => (hem s.j).1 (hs.emits hp), ?_, ?_, ?_⟩
  · intro hp hj hA
    obtain ⟨w, hw⟩ := exists_word_of_four_le hA
    have he := (recvwEnabled_iff w s).2 ⟨hp, hj, hw⟩
    refine ⟨w, recvwNext w s, ?_, mf3Turn_of_recvw hl he, fun hmore => ?_, fun hlast hj0 => ?_, fun hlast hj1 => ?_⟩
    · rw [mf3Turn_of_recvw hl he, exec_recvw_of_enabled hl he]
    · obtain ⟨hc, -, hj', hp'⟩ := recvwNext_of_more w hmore
      exact ⟨hp'.trans hp, hj', hc⟩
    · obtain ⟨hc, hn, -, hsilent⟩ := recvwNext_of_last w hlast
      obtain ⟨hp', hj'⟩ := hsilent (by simp [hj0, stepEmits, hrp])
      exact ⟨hp', by rw [hj', hj0], hc, by rw [hn, targetSlot_eq]⟩
    · obtain ⟨hc, hn, hemits, -⟩ := recvwNext_of_last w hlast
      obtain ⟨hp', hj'⟩ := hemits ((hem s.j).2 hj1)
      exact ⟨hp', hj', hc, by rw [hn, targetSlot_eq]⟩
  · intro hp hj
    have he := (zerorowEnabled_iff s).2 ⟨hp, hj⟩
    obtain ⟨hp', hj', hc, -⟩ := zerorowNext_position hl hj
    refine ⟨zerorowNext s, ?_, mf3Turn_of_zerorow hl he, hp', hj', hc⟩
    rw [mf3Turn_of_zerorow hl he, exec_zerorow_of_enabled hl he]
  · intro hp hroom
    have he := (emitwEnabled_iff s).2 ⟨hp, hroom⟩
    refine ⟨emitwNext s, ?_, mf3Turn_of_emitw hl he, fun hmore => ?_, fun hlast => ?_⟩
    · rw [mf3Turn_of_emitw hl he, exec_emitw_of_enabled hl he]
    · obtain ⟨hc, hj', hp', -⟩ := emitwNext_of_more hmore
      exact ⟨hp'.trans hp, hj', hc⟩
    · obtain ⟨hc, hp', hj', -⟩ := emitwNext_of_last hlast
      exact ⟨hp', hc, hj'⟩

/-- R45: an enabled operation changes the state: it moves a Word or leaves the loading half of its step. -/
theorem mf3Turn_ne_self_of_enabled {s : State} (hs : s.Legal) (h : ¬ s.Waits) : mf3Turn s ≠ .next s := by
  intro hself
  obtain ⟨w, he, ht⟩ | ⟨he, ht⟩ | ⟨-, ht⟩ | ⟨hw, -⟩ := mf3Turn_next_cases hself
  · have hA : s.chanA = s.chanA.drop 4 := (congrArg State.chanA ht).trans (recvwNext_frame w s).1
    have hlen := congrArg List.length hA
    have hfour : 4 ≤ s.chanA.length := ((recvwEnabled_iff w s).1 he).2.2.length_le
    rw [List.length_drop] at hlen
    omega
  · obtain ⟨hp, hj⟩ := (zerorowEnabled_iff s).1 he
    have hemit : s.phase = .emit := (congrArg State.phase ht).trans (zerorowNext_position hs.config hj).1
    rw [hp] at hemit
    cases hemit
  · have hB : s.chanB = s.chanB ++ bytesOfWord (emitWord s) := (congrArg State.chanB ht).trans (emitwNext_frame s).1
    have hlen := congrArg List.length hB
    rw [List.length_append, length_bytesOfWord] at hlen
    omega
  · exact h hw

/-- R170: on an instance that exists every step has a next state. -/
theorem exists_step_eq_next {s : State} (hl : s.cfg.legal = true) : ∃ t, step s = .next t := by
  have turn (ms : List Move) : ∃ t, mf3Turn (s.setMoves ms) = .next t := by
    obtain ⟨w, -, h⟩ | ⟨-, h⟩ | ⟨-, h⟩ | ⟨-, h⟩ := mf3Turn_outcome (s := s.setMoves ms) hl <;> exact ⟨_, h⟩
  cases hm : s.moves with
  | nil => exact (step_of_no_moves hm) ▸ turn s.moves
  | cons m ms =>
    by_cases hmf3 : m = .mf3
    · exact (step_of_mf3 (hmf3 ▸ hm)) ▸ turn ms
    · exact ⟨_, step_of_move hl hm hmf3⟩

/-- Settles O39: every turn is an operation or a wait, and an enabled operation changes the state. -/
theorem everyStepCompletesAndWaitsOnlyForAPort : Obligations.EveryStepCompletesAndWaitsOnlyForAPort := by
  refine ⟨fun s hl => exists_step_eq_next hl, fun s hs hm => ⟨?_, waits_iff_of_legal hs⟩⟩
  rw [step_of_no_moves hm]
  exact ⟨fun h => by_contra fun hw => mf3Turn_ne_self_of_enabled hs hw h, mf3Turn_of_waits hs.config⟩

end Sys2Proof.Machine
end


section
/-! Which slot is called 0 (43_filterengine.md section 5, R138): the ring and its counter moved round together are a
simulation of every move. -/

namespace Sys2Proof.Machine

/-! ## The ring moved round -/

/-- R138: the ring `r'` is `r` with every slot's name moved round by `d`. -/
def Ring.RotatedBy (d : Slot) (r r' : Ring) : Prop := ∀ slot : Slot, r'.read (slot + d) = r.read slot

theorem Ring.RotatedBy.write {d : Slot} {r r' : Ring} (h : Ring.RotatedBy d r r') (slot : Slot) (row : Row) :
    Ring.RotatedBy d (r.write slot row) (r'.write (slot + d) row) := by
  intro slot'
  by_cases hs : slot' = slot
  · rw [hs, Ring.read_write_same, Ring.read_write_same]
  · rw [Ring.read_write_of_ne _ _ hs, Ring.read_write_of_ne _ _ (fun he => hs (add_right_cancel he)), h slot']

theorem Ring.RotatedBy.writePixels4 {d : Slot} {r r' : Ring} (h : Ring.RotatedBy d r r') (slot : Slot) (m : Nat)
    (px : Pixel × Pixel × Pixel × Pixel) :
    Ring.RotatedBy d (r.writePixels4 slot m px) (r'.writePixels4 (slot + d) m px) := by
  rw [Ring.writePixels4, Ring.writePixels4, h slot]
  exact h.write slot _

theorem Ring.RotatedBy.zero (d : Slot) (cfg : Config) : Ring.RotatedBy d (Ring.zero cfg) (Ring.zero cfg) := by
  intro slot
  rw [Ring.read_zero, Ring.read_zero]

theorem resolveSlot_add (center d : Slot) (k : Offset) : resolveSlot (center + d) k = resolveSlot center k + d := by
  cases k <;> simp [add_right_comm]

/-- R138: the window around a slot moves round with the slot. -/
theorem Ring.RotatedBy.filtPixAt {d : Slot} {r r' : Ring} (h : Ring.RotatedBy d r r') (cfg : Config) (center : Slot)
    (i : Nat) : filtPixAt cfg r' (center + d) i = filtPixAt cfg r center i := by
  have hs (k l : Offset) : sampleAt cfg r' (center + d) k i l = sampleAt cfg r center k i l := by
    rw [sampleAt, sampleAt, resolveSlot_add, h]
  simp only [Machine.filtPixAt, hs]

/-! ## The state moved round -/

/-- R138: the state with the ring's slots and the counter renamed. -/
def State.renamed (s : State) (d : Slot) (r : Ring) : State := (s.setRing r).setNRow (s.nRow + d)

/-- R124, R138: the target slot is renamed with the others. -/
theorem renamed_target (s : State) (d : Slot) (r : Ring) : (s.renamed d r).nRow + 1 = s.nRow + 1 + d :=
  add_right_comm _ _ _

/-- R138: the relation of the statement is the renaming of the slots. -/
theorem rotated_iff (d : Slot) (s t : State) : Rotated d s t ↔ ∃ r, Ring.RotatedBy d s.ring r ∧ t = s.renamed d r := by
  constructor
  · rintro ⟨hn, hr, ⟨hj, hc, hp⟩, ⟨hA, hB⟩, hcfg, ha, hprod, hcons, hres, hm⟩
    refine ⟨t.ring, hr, ?_⟩
    cases t
    simp_all [State.renamed, State.setRing, State.setNRow]
  · rintro ⟨r, hr, rfl⟩
    exact ⟨rfl, hr, ⟨rfl, rfl, rfl⟩, ⟨rfl, rfl⟩, rfl, rfl, rfl, rfl, rfl, rfl⟩

section beats
variable {s : State} {d : Slot} {r : Ring} (hr : Ring.RotatedBy d s.ring r)
include hr

theorem recvwNext_rotated (w : Word) : Rotated d (recvwNext w s) (recvwNext w (s.renamed d r)) := by
  rw [recvwNext_spec, recvwNext_spec]
  refine ⟨?_, ?_, ⟨rfl, rfl, rfl⟩, ⟨rfl, rfl⟩, rfl, rfl, rfl, rfl, rfl, rfl⟩
  · by_cases hm : s.c < s.cfg.wpr - 1 <;> simp [State.renamed, hm, add_right_comm]
  · rw [renamed_target]
    exact hr.writePixels4 (s.nRow + 1) s.c (unpack w)

theorem zerorowNext_rotated : Rotated d (zerorowNext s) (zerorowNext (s.renamed d r)) := by
  rw [zerorowNext_spec, zerorowNext_spec]
  refine ⟨add_right_comm _ _ _, ?_, ⟨rfl, rfl, rfl⟩, ⟨rfl, rfl⟩, rfl, rfl, rfl, rfl, rfl, rfl⟩
  rw [renamed_target]
  exact hr.write (s.nRow + 1) s.cfg.zeroRow

/-- R138: the Word sent does not tell where the ring begins. -/
theorem emitWord_renamed : emitWord (s.renamed d r) = emitWord s := by
  simp only [emitWord, State.renamed, State.setNRow_cfg, State.setRing_cfg, State.setNRow_ring, State.setRing_ring,
    State.setNRow_nRow, State.setNRow_c, State.setRing_c, hr.filtPixAt]

theorem emitwNext_rotated : Rotated d (emitwNext s) (emitwNext (s.renamed d r)) := by
  rw [emitwNext_spec, emitwNext_spec, emitWord_renamed hr]
  refine ⟨rfl, ?_, ⟨rfl, rfl, rfl⟩, ⟨rfl, rfl⟩, rfl, rfl, rfl, rfl, rfl, rfl⟩
  by_cases hkeep : s.c < s.cfg.wpr - 1 ∨ s.j < s.cfg.jLast ∨ s.cfg.resetRingPerPass = false
  · simpa [State.renamed, Ring.RotatedBy, hkeep] using hr
  · simp [State.renamed, hkeep]

/-- R138: MF3's turn on the renamed state is the renamed turn. -/
theorem mf3Turn_rotated {t : State} (h : mf3Turn s = .next t) :
    ∃ t', mf3Turn (s.renamed d r) = .next t' ∧ Rotated d t t' := by
  have hl : (s.renamed d r).cfg.legal = true := (mf3Turn_cases h).1
  obtain ⟨w, he, rfl⟩ | ⟨he, rfl⟩ | ⟨he, rfl⟩ | ⟨hw, rfl⟩ := mf3Turn_next_cases h
  · exact ⟨_, mf3Turn_of_recvw hl he, recvwNext_rotated hr w⟩
  · exact ⟨_, mf3Turn_of_zerorow hl he, zerorowNext_rotated hr⟩
  · exact ⟨_, mf3Turn_of_emitw hl he, emitwNext_rotated hr⟩
  · exact ⟨_, mf3Turn_of_waits hl hw, (rotated_iff d _ _).2 ⟨r, hr, rfl⟩⟩

end beats

/-- R22: a move of the environment but the reset does not read the ring or its counter. -/
theorem envMove_renamed {m : Move} (hm : ∀ a b, m ≠ .reset a b) (s : State) (d : Slot) (r : Ring) :
    envMove m (s.renamed d r) = (envMove m s).renamed d r := by
  have hite (p : Prop) [Decidable p] (a b : State) :
      (if p then a else b).renamed d r = if p then a.renamed d r else b.renamed d r :=
    apply_ite (State.renamed · d r) p a b
  cases m with
  | mf3 => rfl
  | producer c => simp only [envMove, producerTurn, hite]; rfl
  | consumer c => simp only [envMove, consumerTurn, hite]; rfl
  | reset a b => exact absurd rfl (hm a b)
  | emptyChannels => simp only [envMove, hostEmptyChannels, hite]; rfl
  | start available => simp only [envMove, hostStart, hite]; rfl
  | tearDown p k => rfl

/-- R138: whatever another agent does, what differs stays the slots' names; a reset gives both the same names. -/
theorem envMove_rotated (m : Move) {s : State} {d : Slot} {r : Ring} (hr : Ring.RotatedBy d s.ring r) :
    ∃ d', Rotated d' (envMove m s) (envMove m (s.renamed d r)) := by
  by_cases hm : ∀ a b, m ≠ .reset a b
  · refine ⟨d, (rotated_iff _ _ _).2 ⟨r, ?_, envMove_renamed hm s d r⟩⟩
    rwa [(envMove_sameEngine hm s).1.1]
  · push Not at hm
    obtain ⟨a, b, rfl⟩ := hm
    exact ⟨0, rfl, Ring.RotatedBy.zero 0 s.cfg, ⟨rfl, rfl, rfl⟩, ⟨rfl, rfl⟩, rfl, rfl, rfl, rfl, rfl, rfl⟩

/-- R12: the agent whose move is next makes it on an instance that exists, or makes one that needs none. -/
theorem step_of_env {s : State} {m : Move} {ms : List Move} (h : s.moves = m :: ms) (hm : m ≠ .mf3)
    (hl : s.cfg.legal = true ∨ needsInstance s.cfg m = false) : step s = .next (envMove m (s.setMoves ms)) := by
  rcases hl with hl | hn
  · exact step_of_move hl h hm
  · cases m <;> simp_all [step, nextMove]

/-- Settles O47: the renaming of the slots is a simulation of MF3's turn and of every other move. -/
theorem slotNamesCannotBeObserved : Obligations.SlotNamesCannotBeObserved := by
  intro d s t s' hrot h
  obtain ⟨r, hr, rfl⟩ := (rotated_iff d s t).1 hrot
  obtain ⟨hm, h⟩ | ⟨ms, hm, h⟩ | ⟨m, ms, hm, hmf3, hl, rfl⟩ := step_cases h
  · obtain ⟨t', ht, hrot⟩ := mf3Turn_rotated hr h
    exact ⟨d, t', (step_of_no_moves (s := s.renamed d r) hm).trans ht, hrot⟩
  · obtain ⟨t', ht, hrot⟩ := mf3Turn_rotated (s := s.setMoves ms) hr h
    exact ⟨d, t', (step_of_mf3 (s := s.renamed d r) hm).trans ht, hrot⟩
  · obtain ⟨d', hrot⟩ := envMove_rotated m (s := s.setMoves ms) hr
    exact ⟨d', _, step_of_env (s := s.renamed d r) hm hmf3 hl, hrot⟩

end Sys2Proof.Machine
end


section
/-! The median and the filter (42_medianwindow.md sections 2 and 3): the median by counting, the 0/1 principle behind
the network of 93 G1, and the filter as a median of three windows. -/

namespace Sys2Proof.Machine

/-! ## The median by counting (R104) -/

/-- A predicate that holds below every value it holds of. -/
def IsLower (p : Pixel → Bool) : Prop := ∀ a b : Pixel, a.toNat ≤ b.toNat → p b = true → p a = true

theorem isLower_le (v : Nat) : IsLower fun p => decide (p.toNat ≤ v) := by
  intro a b hab hb
  simp only [decide_eq_true_eq] at hb ⊢
  omega

theorem isLower_lt (v : Nat) : IsLower fun p => decide (p.toNat < v) := by
  intro a b hab hb
  simp only [decide_eq_true_eq] at hb ⊢
  omega

/-- In an ascending list a lower predicate holds of exactly the first places. -/
theorem lower_getElem_iff_lt_countP {p : Pixel → Bool} (hp : IsLower p) {l : List Pixel}
    (hl : l.Pairwise fun a b => a.toNat ≤ b.toNat) {i : Nat} (hi : i < l.length) :
    p l[i] = true ↔ i < l.countP p := by
  induction l generalizing i with
  | nil => simp at hi
  | cons a l ih =>
    obtain ⟨hmin, hsorted⟩ := List.pairwise_cons.1 hl
    by_cases ha : p a = true
    · rw [List.countP_cons_of_pos ha]
      cases i with
      | zero => simp [ha]
      | succ i => simpa using ih hsorted (by simpa using hi)
    · have hnone : ∀ b ∈ a :: l, ¬ p b = true := by
        intro b hb hpb
        rcases List.mem_cons.1 hb with rfl | hb
        · exact ha hpb
        · exact ha (hp a b (hmin b hb) hpb)
      rw [List.countP_eq_zero.2 hnone]
      simpa using hnone _ (List.getElem_mem hi)

theorem medianOf_eq_getElem {l : List Pixel} (hl : l.length = 9) :
    medianOf l = (sortAsc l)[4]'(by rw [sortAsc_length]; omega) :=
  List.getD_eq_getElem _ _ _

/-- R104 (c): the median of nine has a lower property exactly if five of the nine have it. -/
theorem lower_medianOf_iff {p : Pixel → Bool} (hp : IsLower p) {l : List Pixel} (hl : l.length = 9) :
    p (medianOf l) = true ↔ 5 ≤ l.countP p := by
  rw [medianOf_eq_getElem hl, lower_getElem_iff_lt_countP hp (sortAsc_sorted l), (sortAsc_perm l).countP_eq]
  rfl

theorem medianOf_le_iff {l : List Pixel} (hl : l.length = 9) (v : Nat) :
    (medianOf l).toNat ≤ v ↔ 5 ≤ l.countP fun p => decide (p.toNat ≤ v) := by
  rw [← lower_medianOf_iff (isLower_le v) hl, decide_eq_true_iff]

theorem le_medianOf_iff {l : List Pixel} (hl : l.length = 9) (v : Nat) :
    v ≤ (medianOf l).toNat ↔ 5 ≤ l.countP fun p => decide (v ≤ p.toNat) := by
  have hsplit := List.length_eq_countP_add_countP (fun p : Pixel => decide (p.toNat < v)) (l := l)
  have hlt := lower_medianOf_iff (isLower_lt v) hl
  simp only [decide_eq_true_eq, not_lt] at hsplit hlt
  rw [← not_lt, hlt]
  omega

theorem medianOf_mem {l : List Pixel} (hl : l.length = 9) : medianOf l ∈ l := by
  rw [← (sortAsc_perm l).mem_iff, medianOf_eq_getElem hl]
  exact List.getElem_mem _

/-- R104 (d): five samples on either side of a value make it the median. -/
theorem medianOf_eq_of_counts {l : List Pixel} {v : Pixel} (hl : l.length = 9)
    (hle : 5 ≤ l.countP fun p => decide (p.toNat ≤ v.toNat)) (hge : 5 ≤ l.countP fun p => decide (v.toNat ≤ p.toNat)) :
    medianOf l = v :=
  BitVec.eq_of_toNat_eq (Nat.le_antisymm ((medianOf_le_iff hl _).2 hle) ((le_medianOf_iff hl _).2 hge))

/-- R104 (d): five equal samples decide. -/
theorem medianOf_eq_of_five_le_count {l : List Pixel} {v : Pixel} (hl : l.length = 9) (h : 5 ≤ l.count v) :
    medianOf l = v := by
  refine medianOf_eq_of_counts hl ?_ ?_ <;>
    exact h.trans (List.countP_mono_left fun x _ hx => by simp [beq_iff_eq.1 hx])

/-- R111: the Pixel is other than 0. -/
def bright (p : Pixel) : Bool := decide (p ≠ 0)

theorem bright_zero : bright 0 = false := rfl
@[simp] theorem bright_zero_literal : bright 0#8 = false := rfl

theorem bright_iff (p : Pixel) : bright p = true ↔ p ≠ 0 := decide_eq_true_iff

/-- R104 (d): at most four samples other than 0 do not reach the median. -/
theorem medianOf_eq_zero {l : List Pixel} (hl : l.length = 9) (h : l.countP bright ≤ 4) :
    medianOf l = 0 := by
  refine medianOf_eq_of_five_le_count hl ?_
  have hsplit := List.length_eq_countP_add_countP bright (l := l)
  have hzero : l.count 0 = l.countP fun p => decide (¬ bright p = true) :=
    List.countP_congr fun p _ => by simp [bright_iff]
  omega

theorem medianOf_perm {l l' : List Pixel} (h : l.Perm l') : medianOf l = medianOf l' := by
  rw [medianOf, medianOf, eq_sortAsc_of_perm ((sortAsc_perm l).trans h) (sortAsc_sorted l)]

/-! ## The 0/1 principle (93 G1) -/

/-- The bit of a Pixel at a threshold. -/
def above (v : Nat) (p : Pixel) : Bool := decide (v < p.toNat)

/-- G1: an exchange on bits: afterwards place `a` holds the smaller and place `b` the larger. -/
def exchangeBits (l : List Bool) (ab : Nat × Nat) : List Bool :=
  if l.getD ab.1 false && !l.getD ab.2 false then (l.set ab.1 false).set ab.2 true else l

/-- The bits of a Pixel at all thresholds tell it from every other. -/
theorem eq_of_above_eq {p q : Pixel} (h : ∀ v, above v p = above v q) : p = q := by
  have hlt (v : Nat) : v < p.toNat ↔ v < q.toNat := decide_eq_decide.1 (h v)
  have h1 := hlt q.toNat
  have h2 := hlt p.toNat
  exact BitVec.eq_of_toNat_eq (by omega)

theorem getD_map_above (v : Nat) (l : List Pixel) (i : Nat) : (l.map (above v)).getD i false = above v (l.getD i 0) :=
  List.getD_map l 0 (above v)

theorem set_getD_self {α : Type} (l : List α) (i : Nat) (d : α) : l.set i (l.getD i d) = l := by
  by_cases hi : i < l.length
  · rw [List.getD_eq_getElem _ _ hi, List.set_getElem_self]
  · exact List.set_eq_of_length_le (by omega)

/-- G1: an exchange of Pixels is, at each threshold, the exchange of their bits. -/
theorem map_above_compareExchange (v : Nat) (l : List Pixel) (ab : Nat × Nat) :
    (compareExchange l ab).map (above v) = exchangeBits (l.map (above v)) ab := by
  obtain ⟨a, b⟩ := ab
  have hsame (x y : Bool) (h : x = y) (hx : (l.map (above v)).getD a false = x) (hy : (l.map (above v)).getD b false = y) :
      ((l.map (above v)).set a y).set b x = l.map (above v) := by
    rw [← h, ← hx, set_getD_self, hx, h, ← hy, set_getD_self]
  simp only [compareExchange, exchangeBits, getD_map_above]
  by_cases h : (l.getD b 0).toNat < (l.getD a 0).toNat
  · rw [if_pos h, List.map_set, List.map_set]
    cases ha : above v (l.getD a 0) <;> cases hb : above v (l.getD b 0)
    · exact hsame _ _ rfl ((getD_map_above ..).trans ha) ((getD_map_above ..).trans hb)
    · simp only [above, decide_eq_true_eq, decide_eq_false_iff_not] at ha hb
      omega
    · rfl
    · exact hsame _ _ rfl ((getD_map_above ..).trans ha) ((getD_map_above ..).trans hb)
  · rw [if_neg h, if_neg]
    simp only [above, Bool.and_eq_true, decide_eq_true_eq, Bool.not_eq_true', decide_eq_false_iff_not]
    omega

theorem above_networkMedian (v : Nat) (s0 s1 s2 s3 s4 s5 s6 s7 s8 : Pixel) :
    above v (networkMedian s0 s1 s2 s3 s4 s5 s6 s7 s8) =
      (networkExchanges.foldl exchangeBits ([s0, s1, s2, s3, s4, s5, s6, s7, s8].map (above v))).getD 4 false := by
  have hfold (abs : List (Nat × Nat)) (l : List Pixel) :
      (abs.foldl compareExchange l).map (above v) = abs.foldl exchangeBits (l.map (above v)) := by
    induction abs generalizing l with
    | nil => rfl
    | cons ab abs ih => rw [List.foldl_cons, List.foldl_cons, ih, map_above_compareExchange]
  rw [networkMedian, ← getD_map_above, hfold]

theorem above_medianOf (v : Nat) {l : List Pixel} (hl : l.length = 9) :
    above v (medianOf l) = decide (5 ≤ (l.map (above v)).count true) := by
  have hcount : (l.map (above v)).count true = l.countP fun p => decide (v + 1 ≤ p.toNat) := by
    rw [List.count, List.countP_map]
    exact List.countP_congr fun p _ => by simp [above]
  rw [above, hcount]
  exact decide_eq_decide.2 (le_medianOf_iff hl (v + 1))

/-- G1: on nine bits the network gives the one that five of them have. -/
theorem exchangeBits_network : ∀ b0 b1 b2 b3 b4 b5 b6 b7 b8 : Bool,
    (networkExchanges.foldl exchangeBits [b0, b1, b2, b3, b4, b5, b6, b7, b8]).getD 4 false =
      decide (5 ≤ [b0, b1, b2, b3, b4, b5, b6, b7, b8].count true) := by
  decide +kernel

/-! ## The filter as a median of three windows -/

/-- R100, R109: the three padded Pixels of a Row around column `i`. -/
def window (w : Nat) (r : Row) (i : Nat) : List Pixel :=
  [pad w r ((i : Int) - 1), pad w r i, pad w r ((i : Int) + 1)]

@[simp] theorem length_window (w : Nat) (r : Row) (i : Nat) : (window w r i).length = 3 := rfl

theorem filt3_eq_windows (cfg : Config) (a b c : Row) : filt3 cfg a b c =
    (List.range cfg.w).map fun i => medianOf (window cfg.w a i ++ window cfg.w b i ++ window cfg.w c i) := rfl

@[simp] theorem length_filt3 (cfg : Config) (a b c : Row) : (filt3 cfg a b c).length = cfg.w := by
  rw [filt3_eq_windows, List.length_map, List.length_range]

theorem filt3_getElem {cfg : Config} (a b c : Row) {i : Nat} (hi : i < (filt3 cfg a b c).length) :
    (filt3 cfg a b c)[i] = medianOf (window cfg.w a i ++ window cfg.w b i ++ window cfg.w c i) := by
  simp [filt3_eq_windows]

/-- R109: the filter is symmetric in its first two Rows. -/
theorem filt3_swap_first (cfg : Config) (a b c : Row) : filt3 cfg a b c = filt3 cfg b a c := by
  rw [filt3_eq_windows, filt3_eq_windows]
  exact List.map_congr_left fun i _ => medianOf_perm (List.perm_append_comm.append_right _)

/-- R109: the filter is symmetric in its last two Rows. -/
theorem filt3_swap_last (cfg : Config) (a b c : Row) : filt3 cfg a b c = filt3 cfg a c b := by
  rw [filt3_eq_windows, filt3_eq_windows]
  refine List.map_congr_left fun i _ => medianOf_perm ?_
  rw [List.append_assoc, List.append_assoc]
  exact List.perm_append_comm.append_left _

/-- R108: FILTROW filters the slots above, at and below its centre. -/
theorem filtRowAt_eq_filt3 (cfg : Config) (ring : Ring) (center : Slot) :
    filtRowAt cfg ring center = filt3 cfg (ring.read (center + 2)) (ring.read center) (ring.read (center + 1)) := by
  simp [filtRowAt, filt3, filtPixAt, sampleAt, offsetInt, sub_eq_add_neg]

/-! ## Windows of special Rows (R111) -/

theorem pad_zeroRow (cfg : Config) (x : Int) : pad cfg.w cfg.zeroRow x = 0 := by
  unfold pad Config.zeroRow
  split
  · rw [List.getD_eq_getElem?_getD, List.getElem?_replicate]
    split <;> rfl
  · rfl

@[simp] theorem window_zeroRow (cfg : Config) (i : Nat) : window cfg.w cfg.zeroRow i = [0, 0, 0] := by
  simp [window, pad_zeroRow]

theorem window_replicate {w i : Nat} (v : Pixel) (hi : i < w) :
    window w (List.replicate w v) i = [if i = 0 then 0 else v, v, if i + 1 = w then 0 else v] := by
  have inside {x : Nat} (hx : x < w) : pad w (List.replicate w v) x = v := by simp [pad_natCast _ hx, hx]
  have left : pad w (List.replicate w v) ((i : Int) - 1) = if i = 0 then 0 else v := by
    split
    next h0 => exact pad_of_neg _ _ (by omega)
    next h0 => rw [show (i : Int) - 1 = (i - 1 : Nat) by omega, inside (by omega)]
  have right : pad w (List.replicate w v) ((i : Int) + 1) = if i + 1 = w then 0 else v := by
    split
    next hw => exact pad_of_width_le _ (by omega)
    next hw => rw [show (i : Int) + 1 = (i + 1 : Nat) by omega, inside (by omega)]
  rw [window, left, inside hi, right]

theorem eq_zeroRow_of_getElem {cfg : Config} {r : Row} (hl : r.length = cfg.w)
    (h : ∀ (i : Nat) (hi : i < r.length), r[i] = 0) : r = cfg.zeroRow := by
  refine List.eq_replicate_iff.2 ⟨hl, fun b hb => ?_⟩
  obtain ⟨i, hi, rfl⟩ := List.getElem_of_mem hb
  exact h i hi

/-- R111 (f): columns around which at most four of the nine samples are other than 0 are 0. -/
theorem filt3_eq_zeroRow {cfg : Config} {a b c : Row} (h : ∀ i,
    (window cfg.w a i ++ window cfg.w b i ++ window cfg.w c i).countP bright ≤ 4) :
    filt3 cfg a b c = cfg.zeroRow :=
  eq_zeroRow_of_getElem (length_filt3 cfg a b c) fun i hi => by
    rw [filt3_getElem]
    exact medianOf_eq_zero rfl (h i)

/-- R111 (a): two ZERO_ROWs decide every column. -/
theorem filt3_of_two_zeroRows (cfg : Config) (r : Row) : filt3 cfg cfg.zeroRow cfg.zeroRow r = cfg.zeroRow :=
  filt3_eq_zeroRow fun i => by
    have hlen := List.countP_le_length (p := bright) (l := window cfg.w r i)
    rw [length_window] at hlen
    simp only [window_zeroRow, List.countP_append]
    exact le_trans (by simpa using hlen) (Nat.le_succ 3)

/-- R111 (c): three equal uniform Rows stay, their padded corners being too few. -/
theorem filt3_of_uniform {cfg : Config} (hl : cfg.legal = true) (v : Pixel) :
    filt3 cfg (List.replicate cfg.w v) (List.replicate cfg.w v) (List.replicate cfg.w v) = List.replicate cfg.w v := by
  have hw := ((legal_iff cfg).1 hl).2.1
  refine List.eq_replicate_iff.2 ⟨length_filt3 .., fun p hp => ?_⟩
  obtain ⟨i, hi, rfl⟩ := List.getElem_of_mem hp
  rw [length_filt3] at hi
  have htwo : 2 ≤ (window cfg.w (List.replicate cfg.w v) i).count v := by
    rw [window_replicate v hi]
    by_cases h0 : i = 0
    · have hlast : ¬ i + 1 = cfg.w := by omega
      simp [h0, show ¬ 1 = cfg.w by omega, List.count_cons]
    · simp [h0, List.count_cons]
  rw [filt3_getElem]
  refine medianOf_eq_of_five_le_count rfl ?_
  simp only [List.count_append]
  omega

/-- R111 (d): at an end column of a uniform Row the padding leaves two Pixels. -/
theorem countP_window_replicate_end {w i : Nat} (v : Pixel) (hi : i < w) (h : i = 0 ∨ i + 1 = w) :
    (window w (List.replicate w v) i).countP bright ≤ 2 := by
  have hb (p : Pixel) : (if bright p = true then 1 else 0) ≤ 1 := by split <;> omega
  have h1 := hb v
  rw [window_replicate v hi]
  rcases h with h | h
  · have h2 := hb (if i + 1 = w then 0 else v)
    simp only [List.countP_cons, List.countP_nil, if_pos h, bright_zero, Bool.false_eq_true, if_false]
    omega
  · have h2 := hb (if i = 0 then 0 else v)
    simp only [List.countP_cons, List.countP_nil, if_pos h, bright_zero, Bool.false_eq_true, if_false]
    omega

/-- R111 (d): one ZERO_ROW beside two uniform Rows tips the end columns, where the padding joins it. -/
theorem filt3_of_zeroRow_uniform {cfg : Config} (hl : cfg.legal = true) (v : Pixel) :
    filt3 cfg cfg.zeroRow (List.replicate cfg.w v) (List.replicate cfg.w v) =
      [0] ++ List.replicate (cfg.w - 2) v ++ [0] := by
  have hw := ((legal_iff cfg).1 hl).2.1
  have hR (i : Nat) (hi : i < ([0] ++ List.replicate (cfg.w - 2) v ++ [0]).length) :
      ([0] ++ List.replicate (cfg.w - 2) v ++ [0])[i] = if i = 0 ∨ i + 1 = cfg.w then 0 else v := by
    simp only [List.length_append, List.length_replicate, List.length_singleton] at hi
    cases i with
    | zero => simp
    | succ i =>
      by_cases hlast : i + 2 = cfg.w
      · simp [hlast]
      · simp [hlast, show i < cfg.w - 2 by omega]
  refine List.ext_getElem (by simp; omega) fun i hi hi' => ?_
  rw [length_filt3] at hi
  rw [filt3_getElem, hR]
  split
  next hend =>
    have htwo := countP_window_replicate_end v hi hend
    refine medianOf_eq_zero rfl ?_
    rw [List.countP_append, List.countP_append, window_zeroRow]
    exact Nat.add_le_add (Nat.add_le_add (by simp) htwo) htwo
  next hinner =>
    obtain ⟨h0, hlast⟩ := not_or.1 hinner
    refine medianOf_eq_of_five_le_count rfl ?_
    rw [window_replicate v hi, if_neg h0, if_neg hlast]
    simp only [List.count_append, List.count_cons_self, List.count_nil]
    omega

/-! ## Few bright Pixels (R111) -/

/-- Three neighbouring Pixels of a Row count at most as much as the Row. -/
theorem countP_three_le (r : Row) (n : Nat) :
    ([r.getD n 0, r.getD (n + 1) 0, r.getD (n + 1 + 1) 0] : List Pixel).countP bright ≤
      r.countP bright := by
  induction r generalizing n with
  | nil => simp
  | cons p r ih =>
    cases n with
    | zero =>
      match r with
      | [] | [_] => simp [List.countP_cons]
      | _ :: _ :: r => simp only [List.getD_cons_zero, List.getD_cons_succ, List.countP_cons, List.countP_nil]; omega
    | succ n =>
      simp only [List.getD_cons_succ]
      exact (ih n).trans (List.sublist_cons_self p r).countP_le

/-- R101: padding puts a 0 in the place of a Pixel, so it makes none bright. -/
theorem bright_of_bright_pad {w : Nat} {r : Row} {x : Nat} (h : bright (pad w r x) = true) : bright (r.getD x 0) = true := by
  unfold pad at h
  split at h
  · exact h
  · exact absurd h (by decide)

/-- R111 (f): a window shows no more Pixels other than 0 than its Row has. -/
theorem countP_window_le (w : Nat) (r : Row) (i : Nat) :
    (window w r i).countP bright ≤ r.countP bright := by
  have hone (x : Nat) : (if bright (pad w r x) = true then 1 else 0) ≤ if bright (r.getD x 0) = true then 1 else 0 := by
    split
    next h => rw [if_pos (bright_of_bright_pad h)]
    next => exact Nat.zero_le _
  have hnext : (if bright (pad w r ((i : Int) + 1)) = true then 1 else 0) ≤
      if bright (r.getD (i + 1) 0) = true then 1 else 0 := hone (i + 1)
  have hhere := hone i
  rw [window]
  cases i with
  | zero =>
    have hthree := countP_three_le r 0
    have hleft : pad w r (((0 : Nat) : Int) - 1) = 0 := pad_of_neg w r (by omega)
    simp only [List.countP_cons, List.countP_nil, hleft, bright_zero, Bool.false_eq_true, if_false] at hthree ⊢
    omega
  | succ i =>
    have hthree := countP_three_le r i
    have hprev := hone i
    have hcast : ((i + 1 : Nat) : Int) - 1 = (i : Nat) := by omega
    simp only [List.countP_cons, List.countP_nil, hcast] at hthree ⊢
    omega

/-! ## The obligations -/

/-- Settles O15: the sorted list of a permutation is the same, and its place 4 holds one of the samples. -/
theorem medianSelectsWhateverTheOrder : Obligations.MedianSelectsWhateverTheOrder :=
  ⟨fun _ _ h => medianOf_perm h, fun _ hl => medianOf_mem hl,
    fun _ => (List.mem_replicate.1 (medianOf_mem (List.length_replicate ..))).2⟩

/-- Settles O16: a lower property holds of place 4 of the sorted samples exactly if it holds of five of them. -/
theorem medianByCounting : Obligations.MedianByCounting := by
  intro l v hl
  refine ⟨medianOf_le_iff hl _, le_medianOf_iff hl _, ?_, fun ⟨_, hle, hge⟩ => medianOf_eq_of_counts hl hle hge⟩
  rintro rfl
  exact ⟨medianOf_mem hl, (medianOf_le_iff hl _).1 le_rfl, (le_medianOf_iff hl _).1 le_rfl⟩

/-- Settles O17: at least as many of the lower samples are at most the higher median. -/
theorem medianIsMonotone : Obligations.MedianIsMonotone := by
  intro l l' hl h
  have hcount (v : Nat) : (l'.countP fun p => decide (p.toNat ≤ v)) ≤ l.countP fun p => decide (p.toNat ≤ v) := by
    clear hl
    induction h with
    | nil => rfl
    | cons hab _ ih =>
      simp only [List.countP_cons, decide_eq_true_eq]
      split <;> split <;> omega
  have hl' : l'.length = 9 := h.length_eq ▸ hl
  exact (medianOf_le_iff hl _).2 (((medianOf_le_iff hl' _).1 le_rfl).trans (hcount _))

/-- Settles O18: by the 0/1 principle it is enough that the network gives the median of nine bits. -/
theorem networkGivesTheMedian : Obligations.NetworkGivesTheMedian := by
  intro s0 s1 s2 s3 s4 s5 s6 s7 s8
  refine eq_of_above_eq fun v => ?_
  rw [above_networkMedian, med9, above_medianOf v rfl]
  exact exchangeBits_network ..

/-- Settles O21: FILTROW is the filter of its centre's three slots, which are the same three for every centre. -/
theorem filterIgnoresTheCentre : Obligations.FilterIgnoresTheCentre := by
  refine ⟨fun cfg ring center => ?_, fun cfg a b c => ⟨filt3_swap_first cfg a b c, filt3_swap_last cfg a b c⟩⟩
  rw [filtRowAt_eq_filt3]
  match center with
  | 0 => exact (filt3_swap_first ..).trans (filt3_swap_last ..)
  | 1 => rfl
  | 2 => exact (filt3_swap_last ..).trans (filt3_swap_first ..)

/-- Settles O22: what decides each window is counted, column by column. -/
theorem specialRowsOfTheFilter : Obligations.SpecialRowsOfTheFilter := by
  intro cfg v r hl
  refine ⟨filt3_of_two_zeroRows cfg r, (filt3_swap_last ..).trans (filt3_of_two_zeroRows cfg r),
    filt3_of_uniform hl v, filt3_of_zeroRow_uniform hl v, fun a b i hi h => ?_⟩
  have hlen : i < (filt3 cfg cfg.zeroRow a b).length := by rwa [length_filt3]
  rw [List.getD_eq_getElem _ _ hlen, filt3_getElem]
  refine medianOf_eq_zero rfl ?_
  rw [window_zeroRow, List.append_assoc, List.countP_append]
  exact (Nat.zero_add _).trans_le (Nat.le_of_lt_succ h)

/-- Settles O23: each of the three windows shows no more bright Pixels than its Row has. -/
theorem fewBrightPixelsAreRemoved : Obligations.FewBrightPixelsAreRemoved := by
  intro cfg a b c hfour
  have h : (a ++ b ++ c).countP bright ≤ 4 := hfour
  refine filt3_eq_zeroRow fun i => ?_
  have ha := countP_window_le cfg.w a i
  have hb := countP_window_le cfg.w b i
  have hc := countP_window_le cfg.w c i
  rw [List.countP_append, List.countP_append] at h ⊢
  omega

end Sys2Proof.Machine
end


section
/-! The RowRing's remaining laws (41_rowring.md), the frame of the operations that answer, and what is refused: parameters
for which no instance exists and operands out of range. -/

namespace Sys2Proof.Machine

/-! ## A row loaded beat by beat (R93) -/

/-- R93: the ring after the first `k` beats of a row whose Words are `ws`. -/
def Ring.loadBeats (ring : Ring) (slot : Slot) (ws : List Word) (k : Nat) : Ring :=
  (List.range k).foldl (fun r m => r.writePixels4 slot m (unpack (ws.getD m 0))) ring

@[simp] theorem Ring.loadBeats_zero (ring : Ring) (slot : Slot) (ws : List Word) : ring.loadBeats slot ws 0 = ring := rfl

theorem Ring.loadBeats_succ (ring : Ring) (slot : Slot) (ws : List Word) (k : Nat) :
    ring.loadBeats slot ws (k + 1) = (ring.loadBeats slot ws k).writePixels4 slot k (unpack (ws.getD k 0)) := by
  rw [loadBeats, List.range_succ, List.foldl_append]
  rfl

theorem Ring.wf_loadBeats {cfg : Config} {ring : Ring} (hr : ring.wf cfg = true) (slot : Slot) (ws : List Word)
    (k : Nat) : (ring.loadBeats slot ws k).wf cfg = true := by
  induction k with
  | zero => exact hr
  | succ k ih => rw [loadBeats_succ]; exact Ring.wf_writePixels4 slot k _ ih

/-- R37, R93: after `k` beats the first `4 * k` Pixels of the slot are new, and no other of the ring. -/
theorem Ring.pixel_loadBeats {cfg : Config} {ring : Ring} (hr : ring.wf cfg = true) (slot : Slot) {ws : List Word}
    {k : Nat} (hk : k ≤ ws.length) (hw : 4 * k ≤ cfg.w) (slot' : Slot) (x : Nat) :
    (ring.loadBeats slot ws k).pixel slot' x =
      if slot' = slot ∧ x < 4 * k then (bytesOfWords ws).getD x 0 else ring.pixel slot' x := by
  induction k with
  | zero => simp
  | succ k ih =>
    have ih := ih (by omega) (by omega)
    rw [loadBeats_succ]
    by_cases hx : slot' = slot ∧ 4 * k ≤ x ∧ x < 4 * k + 4
    · obtain ⟨rfl, hlo, hhi⟩ := hx
      obtain ⟨n, rfl⟩ := Nat.exists_eq_add_of_le hlo
      have hlen := (Ring.wf_iff cfg _).1 (Ring.wf_loadBeats hr slot' ws k) slot'
      rw [Ring.pixel_writePixels4_unpack _ _ (by omega) (by omega), if_pos ⟨rfl, by omega⟩,
        List.getD_eq_getElem?_getD (l := bytesOfWords ws), getElem?_bytesOfWords (by omega) (by omega), Option.getD_some]
    · rw [Ring.pixel_writePixels4_of_outside _ _ _ _ _ _ hx, ih]
      have hiff : (slot' = slot ∧ x < 4 * k) ↔ (slot' = slot ∧ x < 4 * (k + 1)) :=
        and_congr_right fun hs => ⟨fun h => by omega, fun h => by
          by_contra hlo
          exact hx ⟨hs, by omega, by omega⟩⟩
      simp only [hiff]

/-- R21: rings of W Pixels a Row are equal where their Pixels are. -/
theorem Ring.ext_pixel {cfg : Config} {r r' : Ring} (hr : r.wf cfg = true) (hr' : r'.wf cfg = true)
    (h : ∀ (slot : Slot) (x : Nat), x < cfg.w → r.pixel slot x = r'.pixel slot x) : r = r' := by
  rw [Ring.wf_iff] at hr hr'
  refine Ring.ext_read fun slot => List.ext_getElem ((hr slot).trans (hr' slot).symm) fun x hx hx' => ?_
  have := h slot x (by rwa [hr slot] at hx)
  rwa [Ring.pixel, Ring.pixel, List.getD_eq_getElem _ _ hx, List.getD_eq_getElem _ _ hx'] at this

/-- R93: the beats of a row are together one RING.WRITE. -/
theorem Ring.loadBeats_wpr {cfg : Config} {ring : Ring} (hl : cfg.legal = true) (hr : ring.wf cfg = true) (slot : Slot)
    {ws : List Word} (hws : ws.length = cfg.wpr) : ring.loadBeats slot ws cfg.wpr = ring.write slot (unpackRow ws) := by
  have hw := four_mul_wpr hl
  have hrow : (unpackRow ws).length = cfg.w := by rw [length_unpackRow]; omega
  refine Ring.ext_pixel (Ring.wf_loadBeats hr slot ws _) (Ring.wf_write slot hr hrow) fun slot' x hx => ?_
  rw [Ring.pixel_loadBeats hr slot hws.ge hw.le]
  by_cases hs : slot' = slot
  · rw [if_pos ⟨hs, by omega⟩, hs, Ring.pixel_write_same, unpackRow_eq_bytesOfWords]
  · rw [if_neg (fun h => hs h.1), Ring.pixel, Ring.pixel, Ring.read_write_of_ne _ _ hs]

/-! ## The operations on an instance that exists (R186) -/

theorem exec_ringRead {s : State} (slot : Slot) (hs : s.cfg.legal = true) :
    exec (.ringRead slot) s = .next (s.setAnswer (.row (s.ring.read slot))) :=
  completes_of_ok _ _ hs rfl

/-! ## Refusals -/

theorem completes_of_illFormed {s : State} {i : Instr} {m : String} {t : State} (hl : s.cfg.legal = true)
    (hw : ¬ i.wf s.cfg = true) : completes s i m t = .refused (.illFormed m) := by
  rw [completes, if_neg (by simp [hl]), if_pos (Bool.eq_false_of_not_eq_true hw)]

theorem completes_of_noInstance {s : State} {i : Instr} {m : String} {t : State} (hl : s.cfg.legal = false) :
    completes s i m t = .refused .noInstance := if_pos hl

/-- R10, D15: when no instance exists. -/
theorem not_legal_of {cfg : Config} (h : cfg.w % 4 ≠ 0 ∨ cfg.w < 4 ∨ cfg.h < 2) : cfg.legal = false := by
  refine Bool.eq_false_of_not_eq_true fun hl => ?_
  have := (legal_iff cfg).1 hl
  omega

theorem mf3Turn_of_noInstance {s : State} (hl : s.cfg.legal = false) : mf3Turn s = .refused .noInstance := if_pos hl

/-- R186: without an instance a move that needs one is refused. -/
theorem step_of_noInstance {s : State} {m : Move} {ms : List Move} (hl : s.cfg.legal = false) (h : s.moves = m :: ms)
    (hn : needsInstance s.cfg m = true) : step s = .refused .noInstance := by
  cases m with
  | mf3 => exact (step_of_mf3 h).trans (mf3Turn_of_noInstance hl)
  | _ => simp_all [step, nextMove]

/-! ## The obligations -/

/-- Settles O9: the answer is the slot's Row, and after a write the slot's Row is the one written. -/
theorem ringReadReturnsTheStoredRow : Obligations.RingReadReturnsTheStoredRow := by
  intro s slot hs
  refine ⟨⟨s.ring.read slot, exec_ringRead slot hs, fun _ => rfl⟩, fun slot' row t hrow ht => ?_⟩
  rw [exec_ringWrite slot' hs hrow] at ht
  cases ht
  rw [exec_ringRead (s := s.setRing (s.ring.write slot' row)) slot hs, State.setRing_ring]
  by_cases h : slot = slot'
  · rw [if_pos h, h, Ring.read_write_same]
    rfl
  · rw [if_neg h, Ring.read_write_of_ne _ _ h]
    rfl

/-- Settles O11: the offset of a slot is its distance from the centre, of nine cases. -/
theorem offsetsReachAllSlots : Obligations.OffsetsReachAllSlots := by
  have hinj (center : Slot) (k k' : Offset) (h : resolveSlot center k' = resolveSlot center k) : k' = k := by
    revert center
    cases k <;> cases k' <;> decide
  intro center slot
  obtain ⟨k, hk⟩ : ∃ k, resolveSlot center k = slot := by
    obtain h | h | h : slot = center + 2 ∨ slot = center ∨ slot = center + 1 := by revert center slot; decide
    · exact ⟨.minus, (resolveSlot_minus center).trans h.symm⟩
    · exact ⟨.zero, (resolveSlot_zero center).trans h.symm⟩
    · exact ⟨.plus, (resolveSlot_plus center).trans h.symm⟩
  exact ⟨k, hk, fun k' hk' => hinj center k k' (hk'.trans hk.symm)⟩

/-- Settles O12: Pixel by Pixel, each beat writing its four. -/
theorem beatWritesMakeOneRow : Obligations.BeatWritesMakeOneRow :=
  fun _ _ slot _ hl hr hws => Ring.loadBeats_wpr hl hr slot hws

/-- Settles O24: each of the eight completes with its answer set. -/
theorem answeringOperationsChangeNothingElse : Obligations.AnsweringOperationsChangeNothingElse := by
  intro i s t hwrite hrecvw hzerorow hemitw hrowstep hpass h
  have answers {m : String} {v : Answer} (h : completes s i m (s.setAnswer v) = .next t) :
      t = { s with answer := t.answer } := by
    rw [((completes_eq_next _ _ _ _ _).1 h).2.2]
    rfl
  cases i with
  | ringWrite slot row => exact absurd rfl (hwrite slot row)
  | recvw w => exact absurd rfl (hrecvw w)
  | zerorow => exact absurd rfl hzerorow
  | emitw => exact absurd rfl hemitw
  | rowstep x => exact absurd rfl (hrowstep x)
  | pass rows => exact absurd rfl (hpass rows)
  | _ => exact answers h

/-- Settles O40: building, every operation and every move but a host start that fails its checks ask for a legal
configuration first. -/
theorem noInstanceIsRefused : Obligations.NoInstanceIsRefused := by
  intro s hcfg
  have hl := not_legal_of hcfg
  have hbuild (cfg : Config) (h : cfg.legal = false) : buildInstance cfg = .refused .noInstance := if_pos h
  refine ⟨fun i => ?_, fun hm => (step_of_no_moves hm).trans (mf3Turn_of_noInstance hl), fun m ms hm hstart => ?_,
    hbuild _ hl, fun ws => ?_⟩
  · cases i <;> exact completes_of_noInstance hl
  · refine step_of_noInstance hl hm ?_
    cases m with
    | start available =>
      obtain ⟨hw, rfl⟩ := hstart available rfl
      simp [needsInstance, hostConfigOk, hw]
    | _ => rfl
  · rw [loadProgram, hbuild { s.cfg with depthA := none, depthB := none } hl]

/-- Settles O41: each operand check fails. -/
theorem operandsOutOfRangeAreRefused : Obligations.OperandsOutOfRangeAreRefused := by
  intro s hl
  have hcol {i : Nat} (h : s.cfg.w ≤ i) : ¬ s.cfg.isColumn i = true := by simpa [Config.isColumn] using h
  refine ⟨fun slot row h => completes_of_illFormed hl fun hw => h ((isRow_iff _ _).1 hw),
    fun center k i l h => completes_of_illFormed hl (hcol h), fun center i h => completes_of_illFormed hl (hcol h),
    fun x h => completes_of_illFormed hl fun hw => h ((isRow_iff _ _).1 hw),
    fun rows h => completes_of_illFormed hl fun hw => ?_⟩
  simp only [Instr.wf, Bool.and_eq_true, decide_eq_true_eq, List.all_eq_true, isRow_iff] at hw
  obtain h | ⟨r, hr, h⟩ := h
  · exact h hw.1
  · exact h (hw.2 r hr)

end Sys2Proof.Machine
end


section
/-! The environment (44_environment.md, 60_exceptions.md section 2, 70_reset_and_hazards.md): the reset, the host's moves,
and the transfers of StreamEndpoint. -/

namespace Sys2Proof.Machine

/-! ## The moves of the other agents -/

/-- R12: a step whose next move is another agent's is that move. -/
theorem eq_envMove_of_step {s t : State} {m : Move} {ms : List Move} (hm : s.moves = m :: ms) (hmf3 : m ≠ .mf3)
    (h : step s = .next t) : t = envMove m (s.setMoves ms) := by
  obtain ⟨hnil, -⟩ | ⟨ms', hm', -⟩ | ⟨m', ms', hm', -, -, ht⟩ := step_cases h
  · simp [hm] at hnil
  · exact absurd (List.cons.inj (hm.symm.trans hm')).1 hmf3
  · obtain ⟨rfl, rfl⟩ := List.cons.inj (hm.symm.trans hm')
    exact ht

section contexts
variable {s : State} (r : CallResult)

theorem producerTurn_of_not_running (h : s.producer.status ≠ .running) : producerTurn r s = s := if_neg h

theorem consumerTurn_of_not_running (h : s.consumer.status ≠ .running) : consumerTurn r s = s := if_neg h

/-- R151, R154: the write call of a running Producer that has something to send. -/
theorem producerTurn_of_running (h : s.producer.status = .running) (ho : (s.producer.refill s.cfg).outbox ≠ []) :
    ∃ n, n = min (movedTotal [r])
        (accepts s.cfg.depthA s.chanA.length (wantedA s) (s.producer.refill s.cfg).outbox.length) ∧
      producerTurn r s = (s.setChanA (s.chanA ++ (s.producer.refill s.cfg).outbox.take n)).setProducer
        { s.producer.refill s.cfg with
          outbox := (s.producer.refill s.cfg).outbox.drop n
          status := if r = .failed then .ended .transportError else .running } := by
  obtain ⟨h', -⟩ | ⟨-, ho', -⟩ | ⟨-, -, hn⟩ := producerTurn_cases r s
  · exact absurd h h'
  · exact absurd ho' ho
  · exact hn

/-- R152, R155: the read call of a running Consumer. -/
theorem consumerTurn_of_running (h : s.consumer.status = .running) :
    ∃ n, n = min (movedTotal [r]) (s.cfg.w - s.consumer.got.length) ∧
      consumerTurn r s = (s.setChanB (s.chanB.drop n)).setConsumer
        { s.consumer.accept s.cfg (s.chanB.take n) with
          status := if s.consumer.got.length < s.cfg.w ∧ (r = .failed ∨ r = .moved 0) then .ended .transportError
            else .running } := by
  obtain ⟨h', -⟩ | ⟨-, hn⟩ := consumerTurn_cases r s
  · exact absurd h h'
  · exact hn

end contexts

/-! ## The reset (R35, R191) -/

theorem resetOf_hostLegal {cfg : Config} (h : cfg.legal = true) : (State.resetOf cfg).HostLegal := by
  have hcfg := (legal_iff cfg).1 h
  exact (hostLegal_iff _).2 ⟨⟨by simp [State.resetOf, Producer.idle], by simp [State.resetOf, Producer.idle], Nat.zero_le _⟩,
    ⟨show 0 < cfg.w by omega, ⟨show 0 < 3 * cfg.h by omega, by simp [State.resetOf, Consumer.idle]⟩,
      by simp [State.resetOf, Consumer.idle]⟩, fun _ => ⟨by simp [State.resetOf, Producer.idle], by simp [State.resetOf, Consumer.idle]⟩⟩

/-- Settles O45: the values of the reset state are read off its definition; it is legal because the hardware's
configuration is. -/
theorem resetStateIsTheSpecs : Obligations.ResetStateIsTheSpecs := by
  have hl : Config.hardware.legal = true := by decide
  exact ⟨rfl, rfl, rfl, rfl, rfl, rfl, fun slot => Ring.read_zero _ slot, rfl, rfl, rfl, rfl, rfl, rfl, rfl, rfl, rfl,
    rfl, rfl, resetOf_legal hl, resetOf_hostLegal hl, (buildInstance_eq_next _ _).2 ⟨hl, rfl⟩⟩

/-- Settles O46: the reset source's move, in any state. -/
theorem resetEventRestoresTheEngine : Obligations.ResetEventRestoresTheEngine := by
  intro s leftA leftB ms hl hm
  refine ⟨_, step_of_move hl hm (by simp), fun slot => Ring.read_zero _ slot, rfl, rfl, rfl, rfl, rfl, rfl, rfl, rfl, rfl,
    rfl, ?_, rfl⟩
  exact decide_eq_true_iff

/-! ## What the host can reach -/

/-- R191, R194: the host empties the channels exactly where its record lets it. -/
theorem hostEmptyChannels_of_allowed {s : State} (hp : s.producer.status ≠ .running) (hk : s.consumer.status ≠ .running)
    (hr : s.resetSinceRun = true) : hostEmptyChannels s = (s.setChanA []).setChanB [] := if_pos ⟨hp, hk, hr⟩

theorem hostEmptyChannels_of_not_allowed {s : State} (h : s.producer.status = .running ∨ s.consumer.status = .running ∨
    s.resetSinceRun = false) : hostEmptyChannels s = s :=
  if_neg fun ⟨hp, hk, hr⟩ => by simp_all

/-- Settles O54: a move but the reset sets the fields of the host and the channels only; a teardown and an emptying are
their definitions. -/
theorem environmentCannotReachTheEngine : Obligations.EnvironmentCannotReachTheEngine := by
  refine ⟨fun s t m ms hm hmf3 hreset h => ?_, fun s p k ms hl hm => ?_, fun s ms hl hm => ⟨?_, ?_⟩⟩
  · rw [eq_envMove_of_step hm hmf3 h, envMove_frame hreset]
    exact ⟨⟨rfl, rfl, rfl, rfl, rfl⟩, rfl, rfl, rfl⟩
  · rw [step_of_move hl hm (by simp)]
    cases p <;> cases k <;> rfl
  · intro hp hk hr
    rw [step_of_move hl hm (by simp), envMove, hostEmptyChannels_of_allowed (s := s.setMoves ms) hp hk hr]
    rfl
  · intro h
    rw [step_of_move hl hm (by simp), envMove, hostEmptyChannels_of_not_allowed (s := s.setMoves ms) h]
    rfl

/-! ## The Producer -/

/-- R47: what a channel accepts keeps it within its depth. -/
theorem accepts_withinDepth {depth : Option Nat} {chan bs : List Byte} {wanted k n : Nat} (hwanted : wanted ≤ 4)
    (hn : n ≤ accepts depth chan.length wanted k) (h : WithinDepth depth chan) :
    WithinDepth depth (chan ++ bs.take n) := by
  rintro d rfl
  have hlen := h d rfl
  have htake : (bs.take n).length ≤ n := List.length_take_le n bs
  rw [List.length_append]
  cases d with
  | zero => simp only [accepts] at hn; omega
  | succ d => simp only [accepts] at hn; omega

theorem wantedA_le (s : State) : wantedA s ≤ 4 := by
  unfold wantedA
  split <;> omega

/-- R46, R151, R154: however the write call returns, the Producer's bytes reach channel A in order, each once. -/
theorem producerTurn_conserves (r : CallResult) (s : State) :
    (producerTurn r s).chanA ++ (producerTurn r s).producer.pending s.cfg = s.chanA ++ s.producer.pending s.cfg ∧
      s.chanA <+: (producerTurn r s).chanA ∧
      (WithinDepth s.cfg.depthA s.chanA → WithinDepth s.cfg.depthA (producerTurn r s).chanA) := by
  obtain ⟨-, h⟩ | ⟨-, -, h⟩ | ⟨-, -, n, hn, h⟩ := producerTurn_cases r s <;> rw [h]
  · exact ⟨rfl, List.prefix_rfl, id⟩
  · exact ⟨by simp, List.prefix_rfl, id⟩
  · refine ⟨?_, List.prefix_append _ _, accepts_withinDepth (wantedA_le s) (hn ▸ Nat.min_le_right _ _)⟩
    rw [← refill_pending s.cfg s.producer]
    simp only [Producer.pending, State.setProducer_chanA, State.setChanA_chanA, State.setProducer_producer]
    rw [List.append_assoc, ← List.append_assoc (List.take ..), ← List.append_assoc (List.take ..), List.take_append_drop]

/-- R158: a Producer that has nothing to pack is blocked, whatever its call returns. -/
theorem producerTurn_of_blocked {s : State} (r : CallResult) (hp : s.producer.refill s.cfg = s.producer)
    (ho : s.producer.outbox = []) : producerTurn r s = s := by
  obtain ⟨-, h⟩ | ⟨-, -, h⟩ | ⟨-, ho', -⟩ := producerTurn_cases r s
  · exact h
  · rw [h, hp]
    rfl
  · exact absurd (hp.symm ▸ ho) ho'

/-- R62, R63: a Row travels as W bytes. -/
theorem length_rowBytes_of_isRow {cfg : Config} {r : Row} (hl : cfg.legal = true) (h : r.length = cfg.w) :
    (rowBytes r).length = cfg.w := by rw [rowBytes_of_isRow hl h, h]

/-- R63: the bytes of Rows of W Pixels. -/
theorem length_flatMap_rowBytes {cfg : Config} {rows : List Row} (hl : cfg.legal = true)
    (h : ∀ r ∈ rows, r.length = cfg.w) : (rows.flatMap rowBytes).length = rows.length * cfg.w := by
  rw [List.length_flatMap, List.map_congr_left fun r hr => length_rowBytes_of_isRow hl (h r hr), List.map_const',
    List.sum_replicate, smul_eq_mul]

/-- R63: the bytes of Frames of 3 x H Rows. -/
theorem length_flatMap_frameRows {cfg : Config} {frames : List Frame} (hl : cfg.legal = true)
    (h : ∀ f ∈ frames, isFrame cfg f = true) :
    (frames.flatMap fun f => (frameRows f).flatMap rowBytes).length = frames.length * (3 * cfg.h * cfg.w) := by
  have hone (f : Frame) (hf : f ∈ frames) : ((frameRows f).flatMap rowBytes).length = 3 * cfg.h * cfg.w := by
    obtain ⟨hlen, hrows⟩ := frameRows_spec (h f hf)
    rw [length_flatMap_rowBytes hl hrows, hlen]
  rw [List.length_flatMap, List.map_congr_left hone, List.map_const', List.sum_replicate, smul_eq_mul]

/-- Settles O55: a write call moves the first bytes of the scratch buffer, which packing filled from what was pending; what is no
Frame is never packed. -/
theorem producerLosesNoByte : Obligations.ProducerLosesNoByte := by
  refine ⟨fun s t r ms hm h => ?_, fun cfg f hl hf => ?_, fun s hl hh => ?_⟩
  · obtain rfl := eq_envMove_of_step hm (by simp) h
    obtain ⟨hsum, hpre, hdepth⟩ := producerTurn_conserves r (s.setMoves ms)
    have hcfg : (envMove (.producer r) (s.setMoves ms)).cfg = s.cfg := envMove_cfg _ _
    refine ⟨by rw [hcfg]; exact hsum, hpre, hdepth, fun f fs hf hp => ?_, producerTurn_frame r (s.setMoves ms)⟩
    have hblocked : s.producer.refill s.cfg = s.producer := by simp [hp, Producer.refill, hf]
    have hturn : envMove (.producer r) (s.setMoves ms) = s.setMoves ms :=
      producerTurn_of_blocked (s := s.setMoves ms) r hblocked (by simp [hp])
    rw [hturn]
    exact ⟨rfl, rfl⟩
  · obtain ⟨hlen, hrows⟩ := frameRows_spec hf
    exact ⟨hlen, fun r hr => length_rowBytes_of_isRow hl (hrows r hr)⟩
  · have hall : s.producer.frames.takeWhile (isFrame s.cfg) = s.producer.frames :=
      List.takeWhile_eq_self_iff.2 hh.frames
    rw [Producer.pending, hall, List.length_append, List.length_append, length_flatMap_frameRows hl hh.frames,
      length_flatMap_rowBytes hl fun r hr => (isRow_iff _ _).1 (hh.rowsLeft r hr)]

/-! ## The Consumer -/

theorem frameRows_assembleFrame (h : Nat) (rows : List Row) : frameRows (assembleFrame h rows) = rows := by
  rw [frameRows, assembleFrame, two_mul, ← List.drop_drop, List.append_assoc, List.take_append_drop, List.take_append_drop]

/-- R155: bytes that do not go beyond the Row are received behind those before. -/
theorem received_accept {cfg : Config} {bs : List Byte} {k : Consumer} (hl : cfg.legal = true)
    (hbs : (k.got ++ bs).length ≤ cfg.w) : (k.accept cfg bs).received = k.received ++ bs := by
  obtain ⟨-, h⟩ | ⟨hw, hor⟩ := accept_cases cfg bs k
  · rw [h]
    simp [Consumer.received]
  · have hrow : rowBytes (unpackRow (wordsOfBytes (k.got ++ bs))) = k.got ++ bs := by
      rw [rowBytes, packRow_unpackRow, bytesOfWords_wordsOfBytes]
      have := (legal_iff cfg).1 hl
      omega
    obtain ⟨-, h⟩ | ⟨-, h⟩ := hor <;> rw [h]
    · simp [Consumer.received, hrow]
    · simp [Consumer.received, hrow, frameRows_assembleFrame]

/-- R155: after each call less than a Row and less than a Frame wait. -/
theorem accept_bounds {cfg : Config} (hl : cfg.legal = true) (bs : List Byte) {k : Consumer}
    (hrows : k.rows.length < 3 * cfg.h) :
    (k.accept cfg bs).got.length < cfg.w ∧ (k.accept cfg bs).rows.length < 3 * cfg.h := by
  have hcfg := (legal_iff cfg).1 hl
  obtain ⟨hlt, h⟩ | ⟨-, ⟨hmore, h⟩ | ⟨-, h⟩⟩ := accept_cases cfg bs k <;> rw [h]
  · exact ⟨hlt, hrows⟩
  · exact ⟨show 0 < cfg.w by omega, by simpa using hmore⟩
  · exact ⟨show 0 < cfg.w by omega, show 0 < 3 * cfg.h by omega⟩

/-- R46, R152, R155: however the read call returns, the Consumer receives the bytes of channel B in order, each once. -/
theorem consumerTurn_conserves (r : CallResult) {s : State} (hl : s.cfg.legal = true)
    (hgot : s.consumer.got.length < s.cfg.w) (hrows : s.consumer.rows.length < 3 * s.cfg.h) :
    (consumerTurn r s).consumer.received ++ (consumerTurn r s).chanB = s.consumer.received ++ s.chanB ∧
      (consumerTurn r s).consumer.got.length < s.cfg.w ∧ (consumerTurn r s).consumer.rows.length < 3 * s.cfg.h := by
  obtain ⟨-, h⟩ | ⟨-, n, hn, h⟩ := consumerTurn_cases r s <;> rw [h]
  · exact ⟨rfl, hgot, hrows⟩
  · have hlen : (s.consumer.got ++ s.chanB.take n).length ≤ s.cfg.w := by
      rw [List.length_append, List.length_take]; omega
    refine ⟨?_, accept_bounds hl _ hrows⟩
    calc (s.consumer.accept s.cfg (s.chanB.take n)).received ++ s.chanB.drop n
      _ = s.consumer.received ++ s.chanB.take n ++ s.chanB.drop n := by rw [received_accept hl hlen]
      _ = s.consumer.received ++ s.chanB := by rw [List.append_assoc, List.take_append_drop]

/-- Settles O56: a read call takes no more than the rest of its Row, and a Row packed again is its bytes. -/
theorem consumerLosesNoByte : Obligations.ConsumerLosesNoByte := by
  intro s t r ms hm hl hgot hrows h
  obtain rfl := eq_envMove_of_step hm (by simp) h
  obtain ⟨hsum, hgot', hrows'⟩ := consumerTurn_conserves r (s := s.setMoves ms) hl hgot hrows
  exact ⟨hsum, hgot', hrows', consumerTurn_frame r (s.setMoves ms)⟩

/-! ## The first bad call of a transfer (R151, R152) -/

/-- A call that is bad comes, and at the first of them `p` holds of the calls before it. -/
def FailsWhile (bad : CallResult → Prop) (p : List CallResult → Prop) (calls : List CallResult) : Prop :=
  ∃ done b more, calls = done ++ b :: more ∧ bad b ∧ (∀ c ∈ done, ¬ bad c) ∧ p done

section FailsWhile
variable {bad : CallResult → Prop} {p : List CallResult → Prop} {r : CallResult} {rs : List CallResult}

theorem not_failsWhile_nil : ¬ FailsWhile bad p [] := by
  rintro ⟨done, b, more, h, -⟩
  simp at h

theorem failsWhile_cons_of_bad (h : bad r) : FailsWhile bad p (r :: rs) ↔ p [] := by
  constructor
  · rintro ⟨done, b, more, hsplit, -, hgood, hp⟩
    cases done with
    | nil => exact hp
    | cons c done =>
      obtain ⟨rfl, -⟩ := List.cons.inj hsplit
      exact absurd h (hgood _ (List.mem_cons_self ..))
  · exact fun hp => ⟨[], r, rs, rfl, h, by simp, hp⟩

theorem failsWhile_cons_of_good (h : ¬ bad r) :
    FailsWhile bad p (r :: rs) ↔ FailsWhile bad (fun done => p (r :: done)) rs := by
  constructor
  · rintro ⟨done, b, more, hsplit, hb, hgood, hp⟩
    cases done with
    | nil =>
      obtain ⟨rfl, -⟩ := List.cons.inj hsplit
      exact absurd hb h
    | cons c done =>
      obtain ⟨rfl, hrest⟩ := List.cons.inj hsplit
      exact ⟨done, b, more, hrest, hb, fun c hc => hgood c (List.mem_cons_of_mem _ hc), hp⟩
  · rintro ⟨done, b, more, rfl, hb, hgood, hp⟩
    exact ⟨r :: done, b, more, rfl, hb, List.forall_mem_cons.2 ⟨h, hgood⟩, hp⟩

theorem FailsWhile.congr {q : List CallResult → Prop} (h : ∀ done, p done ↔ q done) :
    FailsWhile bad p rs ↔ FailsWhile bad q rs := by
  rw [funext fun done => propext (h done)]

end FailsWhile

/-! ## sendExact (R151) -/

theorem sendExact_moved (buffer : List Byte) (n : Nat) (rs : List CallResult) :
    sendExact buffer (.moved n :: rs) =
      (buffer.take n ++ (sendExact (buffer.drop n) rs).1, (sendExact (buffer.drop n) rs).2) := by
  have htake : buffer.take (min n buffer.length) = buffer.take n := by simp
  have hdrop : buffer.drop (min n buffer.length) = buffer.drop n := by
    obtain h | h := le_total n buffer.length
    · rw [min_eq_left h]
    · rw [min_eq_right h, List.drop_length, List.drop_eq_nil_of_le h]
  simp only [sendExact, sendCall_spec, movedTotal, Nat.add_zero, htake, hdrop]
  cases hd : buffer.drop n <;> simp

theorem sendExact_interrupted (buffer : List Byte) (rs : List CallResult) :
    sendExact buffer (.interrupted :: rs) = sendExact buffer rs := by
  cases buffer <;> simp [sendExact, sendCall_spec, movedTotal]

theorem sendExact_failed (buffer : List Byte) (rs : List CallResult) :
    sendExact buffer (.failed :: rs) = ([], buffer, decide (buffer ≠ [])) := by
  cases buffer <;> simp [sendExact, sendCall_spec, movedTotal]

theorem sendExact_conserves (calls : List CallResult) (buffer : List Byte) :
    (sendExact buffer calls).1 ++ (sendExact buffer calls).2.1 = buffer := by
  induction calls generalizing buffer with
  | nil => rfl
  | cons r rs ih =>
    cases r with
    | moved n => rw [sendExact_moved, List.append_assoc, ih, List.take_append_drop]
    | interrupted => rw [sendExact_interrupted, ih]
    | failed => rw [sendExact_failed]; rfl

theorem sendExact_completes {done : List CallResult} (more : List CallResult) {buffer : List Byte}
    (hgood : .failed ∉ done) (h : buffer.length ≤ movedTotal done) :
    sendExact buffer (done ++ more) = (buffer, [], false) := by
  induction done generalizing buffer with
  | nil =>
    obtain rfl := List.length_eq_zero_iff.1 (Nat.le_zero.1 h)
    exact sendExact_of_nothing _
  | cons r rs ih =>
    obtain ⟨hr, hrs⟩ := not_or.1 (List.mem_cons.not.1 hgood)
    rw [List.cons_append]
    cases r with
    | moved n =>
      rw [movedTotal_moved] at h
      rw [sendExact_moved, ih hrs (by rw [List.length_drop]; omega), List.take_append_drop]
    | interrupted => rw [sendExact_interrupted, ih hrs h]
    | failed => exact absurd rfl hr

/-- R151: an error is raised at the first failed call of an unfinished transfer. -/
theorem sendExact_error_iff (calls : List CallResult) (buffer : List Byte) : (sendExact buffer calls).2.2 = true ↔
    FailsWhile (· = .failed) (fun done => movedTotal done < buffer.length) calls := by
  induction calls generalizing buffer with
  | nil => exact iff_of_false Bool.false_ne_true not_failsWhile_nil
  | cons r rs ih =>
    cases r with
    | moved n =>
      rw [sendExact_moved, ih, failsWhile_cons_of_good (by simp)]
      exact FailsWhile.congr fun done => by rw [movedTotal_moved, List.length_drop]; omega
    | interrupted =>
      rw [sendExact_interrupted, ih, failsWhile_cons_of_good (by simp)]
      rfl
    | failed =>
      rw [sendExact_failed, failsWhile_cons_of_bad (bad := (· = .failed)) rfl, decide_eq_true_iff, ← List.length_pos_iff]
      rfl

/-! ## receiveExact (R152) -/

/-- R152: the read calls that end a transfer. -/
def BadRead (r : CallResult) : Prop := r = .failed ∨ r = .moved 0

theorem receiveExact_moved (wanted : Nat) (chan : List Byte) {n : Nat} (hn : n ≠ 0) (rs : List CallResult) :
    receiveExact wanted chan (.moved n :: rs) =
      (chan.take (min n wanted) ++
          (receiveExact (wanted - (chan.take (min n wanted)).length) (chan.drop (min n wanted)) rs).1,
        (receiveExact (wanted - (chan.take (min n wanted)).length) (chan.drop (min n wanted)) rs).2) := by
  have hgood : decide (wanted ≠ 0 ∧ (CallResult.moved n = .failed ∨ CallResult.moved n = .moved 0)) = false := by simp [hn]
  simp only [receiveExact, receiveCall_spec, movedTotal, Nat.add_zero, hgood, Bool.false_or, decide_eq_true_eq]
  split
  next hdone => rw [Nat.sub_eq_zero_of_le hdone, receiveExact_of_nothing, List.append_nil]
  next => rfl

theorem receiveExact_interrupted (wanted : Nat) (chan : List Byte) (rs : List CallResult) :
    receiveExact wanted chan (.interrupted :: rs) = receiveExact wanted chan rs := by
  cases wanted <;> simp [receiveExact, receiveCall_spec, movedTotal]

theorem receiveExact_bad (wanted : Nat) (chan : List Byte) {r : CallResult} (h : BadRead r) (rs : List CallResult) :
    receiveExact wanted chan (r :: rs) = ([], chan, decide (wanted ≠ 0)) := by
  obtain rfl | rfl := h <;> cases wanted <;> simp [receiveExact, receiveCall_spec, movedTotal]

/-- R152: a read call either ends the transfer, is tried again, or moves bytes. -/
theorem badRead_or_interrupted_or_moved (r : CallResult) : BadRead r ∨ r = .interrupted ∨ ∃ n, n ≠ 0 ∧ r = .moved n := by
  match r with
  | .failed => exact .inl (.inl rfl)
  | .moved 0 => exact .inl (.inr rfl)
  | .interrupted => exact .inr (.inl rfl)
  | .moved (n + 1) => exact .inr (.inr ⟨n + 1, by simp, rfl⟩)

theorem not_badRead_interrupted : ¬ BadRead .interrupted := by simp [BadRead]

theorem not_badRead_moved {n : Nat} (hn : n ≠ 0) : ¬ BadRead (.moved n) := by simp [BadRead, hn]

theorem receiveExact_conserves (calls : List CallResult) (wanted : Nat) (chan : List Byte) :
    (receiveExact wanted chan calls).1 ++ (receiveExact wanted chan calls).2.1 = chan ∧
      (receiveExact wanted chan calls).1.length ≤ wanted := by
  induction calls generalizing wanted chan with
  | nil => exact ⟨rfl, Nat.zero_le _⟩
  | cons r rs ih =>
    obtain h | rfl | ⟨n, hn, rfl⟩ := badRead_or_interrupted_or_moved r
    · rw [receiveExact_bad wanted chan h]
      exact ⟨rfl, Nat.zero_le _⟩
    · rw [receiveExact_interrupted]
      exact ih wanted chan
    · rw [receiveExact_moved wanted chan hn]
      obtain ⟨hsum, hlen⟩ := ih (wanted - (chan.take (min n wanted)).length) (chan.drop (min n wanted))
      refine ⟨by rw [List.append_assoc, hsum, List.take_append_drop], ?_⟩
      rw [List.length_append]
      rw [List.length_take] at hlen ⊢
      omega

theorem receiveExact_completes {done : List CallResult} (more : List CallResult) {wanted : Nat} {chan : List Byte}
    (hgood : ∀ c ∈ done, ¬ BadRead c) (h : wanted ≤ movedTotal done) (hchan : wanted ≤ chan.length) :
    receiveExact wanted chan (done ++ more) = (chan.take wanted, chan.drop wanted, false) := by
  induction done generalizing wanted chan with
  | nil =>
    obtain rfl := Nat.le_zero.1 h
    exact receiveExact_of_nothing _ _
  | cons r rs ih =>
    obtain ⟨hr, hrs⟩ := List.forall_mem_cons.1 hgood
    rw [List.cons_append]
    obtain hbad | rfl | ⟨n, hn, rfl⟩ := badRead_or_interrupted_or_moved r
    · exact absurd hbad hr
    · rw [receiveExact_interrupted, ih hrs h hchan]
    · rw [movedTotal_moved] at h
      have hlen : (chan.take (min n wanted)).length = min n wanted := by rw [List.length_take]; omega
      have hsum : min n wanted + (wanted - min n wanted) = wanted := by omega
      rw [receiveExact_moved wanted chan hn, hlen, ih hrs (by omega) (by rw [List.length_drop]; omega), ← List.take_add,
        List.drop_drop, hsum]

/-- R152: an error is raised at the first bad call of a transfer that is unfinished, or can never finish. -/
theorem receiveExact_error_iff (calls : List CallResult) (wanted : Nat) (chan : List Byte) :
    (receiveExact wanted chan calls).2.2 = true ↔
      FailsWhile BadRead (fun done => movedTotal done < wanted ∨ chan.length < wanted) calls := by
  induction calls generalizing wanted chan with
  | nil => exact iff_of_false Bool.false_ne_true not_failsWhile_nil
  | cons r rs ih =>
    obtain h | rfl | ⟨n, hn, rfl⟩ := badRead_or_interrupted_or_moved r
    · rw [receiveExact_bad wanted chan h, failsWhile_cons_of_bad h, decide_eq_true_iff]
      simp only [movedTotal]
      omega
    · rw [receiveExact_interrupted, ih, failsWhile_cons_of_good not_badRead_interrupted]
      rfl
    · rw [receiveExact_moved wanted chan hn, ih, failsWhile_cons_of_good (not_badRead_moved hn)]
      exact FailsWhile.congr fun done => by
        rw [movedTotal_moved, List.length_drop, List.length_take]
        omega

/-- Settles O57: by induction on the calls, each moving a part of the transfer, tried again, or ending it. -/
theorem exactTransfersSurviveSplitting : Obligations.ExactTransfersSurviveSplitting := by
  have hgood (done : List CallResult) : (∀ c ∈ done, ¬ BadRead c) ↔ .failed ∉ done ∧ .moved 0 ∉ done :=
    ⟨fun h => ⟨fun hm => h _ hm (.inl rfl), fun hm => h _ hm (.inr rfl)⟩,
      fun ⟨hf, h0⟩ c hc hbad => by obtain rfl | rfl := hbad; exacts [hf hc, h0 hc]⟩
  refine ⟨fun buffer calls => ⟨sendExact_conserves calls buffer, ?_, ?_⟩, fun wanted chan calls =>
    ⟨(receiveExact_conserves calls wanted chan).1, (receiveExact_conserves calls wanted chan).2, ?_, ?_⟩⟩
  · rintro done more rfl hnot h
    exact sendExact_completes more hnot h
  · rw [sendExact_error_iff]
    constructor
    · rintro ⟨done, b, more, rfl, rfl, hnot, hlt⟩
      exact ⟨done, more, rfl, fun hm => hnot _ hm rfl, hlt⟩
    · rintro ⟨done, more, rfl, hnot, hlt⟩
      exact ⟨done, _, more, rfl, rfl, fun c hc hbad => hnot (hbad ▸ hc), hlt⟩
  · rintro done more rfl hf h0 h hchan
    exact receiveExact_completes more ((hgood done).2 ⟨hf, h0⟩) h hchan
  · rw [receiveExact_error_iff]
    constructor
    · rintro ⟨done, b, more, rfl, hb, hnot, h⟩
      exact ⟨done, b, more, rfl, hb, ((hgood done).1 hnot).1, ((hgood done).1 hnot).2, h⟩
    · rintro ⟨done, b, more, rfl, hb, hf, h0, h⟩
      exact ⟨done, b, more, rfl, hb, (hgood done).2 ⟨hf, h0⟩, h⟩

/-! ## The contexts' errors and the host's start (R174, R175, R194) -/

/-- Settles O58: a failed call moves nothing and ends its context; an interrupted one moves nothing. -/
theorem transportErrorEndsItsContext : Obligations.TransportErrorEndsItsContext := by
  intro s ms hl
  refine ⟨fun hm hrun ho => ?_, fun r hr hm hrun hgot => ?_, fun r hm hst => ?_, fun r hm hst => ?_, fun hm => ?_,
    fun hm => ?_⟩ <;> rw [step_of_move hl hm (by simp), envMove]
  · obtain ⟨n, hn, h⟩ := producerTurn_of_running (s := s.setMoves ms) .failed hrun ho
    obtain rfl : n = 0 := by simpa [movedTotal] using hn
    exact ⟨_, rfl, by rw [h]; rfl, by rw [h]; rfl, by rw [h]; simp⟩
  · obtain ⟨n, hn, h⟩ := consumerTurn_of_running (s := s.setMoves ms) r hrun
    obtain rfl : n = 0 := by obtain rfl | rfl := hr <;> simpa [movedTotal] using hn
    exact ⟨_, rfl, by rw [h]; exact if_pos ⟨hgot, hr⟩, by rw [h]; rfl, by rw [h]; simp⟩
  · rw [producerTurn_of_not_running (s := s.setMoves ms) r hst]
    rfl
  · rw [consumerTurn_of_not_running (s := s.setMoves ms) r hst]
    rfl
  · refine ⟨_, rfl, ?_⟩
    obtain ⟨-, h⟩ | ⟨-, -, h⟩ | ⟨hrun, -, n, hn, h⟩ := producerTurn_cases .interrupted (s.setMoves ms)
    · rw [h]
      exact ⟨rfl, rfl, rfl⟩
    · rw [h]
      simp
    · obtain rfl : n = 0 := by simpa [movedTotal] using hn
      rw [h, ← refill_pending s.cfg s.producer]
      refine ⟨by simp, hrun.symm, ?_⟩
      simp [Producer.pending]
  · refine ⟨_, rfl, ?_⟩
    obtain ⟨-, h⟩ | ⟨hrun, n, hn, h⟩ := consumerTurn_cases .interrupted (s.setMoves ms)
    · rw [h]
      exact ⟨rfl, rfl, fun _ => rfl⟩
    · obtain rfl : n = 0 := by simpa [movedTotal] using hn
      have hrun : s.consumer.status = .running := hrun
      rw [h]
      refine ⟨rfl, by simp [hrun], fun hgot => ?_⟩
      have hsame : s.consumer.accept s.cfg [] = s.consumer := by simp [Consumer.accept, hgot]
      simp [hsame, ← hrun]

/-- R175: the host's check of the configuration and the channels. -/
theorem hostStart_of_idle {s : State} (available : Bool) (hp : s.producer.status ≠ .running)
    (hk : s.consumer.status ≠ .running) : hostStart available s =
      ((s.setProducer { s.producer with
        status := if hostConfigOk s.cfg && available then .running else .ended .configurationError
        rowsLeft := [], outbox := [] }).setConsumer { s.consumer with
        status := if hostConfigOk s.cfg && available then .running else .ended .configurationError
        got := [], rows := [] }).setResetSinceRun (s.resetSinceRun && !(hostConfigOk s.cfg && available)) :=
  if_neg (not_or.2 ⟨hp, hk⟩)

/-- Settles O59: the start does nothing under a running context, and otherwise its check decides both statuses. -/
theorem hostStartChecksTheConfiguration : Obligations.HostStartChecksTheConfiguration := by
  intro s available ms hm
  refine ⟨fun hl hrun => ?_, fun hp hk hbad => ?_, fun hp hk hl hav => ?_⟩
  · have hsame : hostStart available (s.setMoves ms) = s.setMoves ms := if_pos hrun
    rw [step_of_move hl hm (by simp), envMove, hsame]
    rfl
  · have hcheck : (hostConfigOk s.cfg && available) = false := by
      obtain h | rfl := hbad
      · simp [hostConfigOk, h]
      · exact Bool.and_false _
    refine ⟨_, step_of_env hm (by simp) (.inr hcheck), ?_⟩
    rw [envMove, hostStart_of_idle (s := s.setMoves ms) available hp hk]
    simp [hcheck]
  · have hcheck : (hostConfigOk s.cfg && available) = true := by
      simp [hostConfigOk, hav, ((legal_iff s.cfg).1 hl).1]
    refine ⟨_, step_of_move hl hm (by simp), ?_⟩
    rw [envMove, hostStart_of_idle (s := s.setMoves ms) available hp hk]
    simp [hcheck]

/-! ## A wait is lifted (R186) -/

/-- R47, R200: a channel takes what is missing of the Word its reader waits for. -/
theorem word_le_add_accepts (depth : Option Nat) (held : Nat) {k : Nat} (hk : 4 ≤ k) :
    4 ≤ held + min 4 (accepts depth held 4 k) := by
  unfold accepts
  split <;> omega

theorem mf3Enabled_of_word {s : State} (hp : s.phase = .load) (hj : s.j < s.cfg.jLast) (h : 4 ≤ s.chanA.length) :
    mf3Enabled s = true := by
  simp [mf3Enabled, hp, stepIsReal, hj, h]

/-- R47: four bytes taken from a channel that holds no more than its depth leave room for a Word. -/
theorem hasRoomForWord_of_drop {s t : State} {k : Nat} (hdepth : WithinDepth s.cfg.depthB s.chanB) (hk : 4 ≤ k)
    (hcfg : t.cfg = s.cfg) (hB : t.chanB = s.chanB.drop k) (hrun : t.consumer.status = .running) : t.HasRoomForWord := by
  unfold State.HasRoomForWord State.HasRoomForWords
  rw [hcfg, hB]
  cases hd : s.cfg.depthB with
  | none => exact .inl rfl
  | some d =>
    have hlen := hdepth d hd
    cases d with
    | zero => exact .inr (.inr ⟨rfl, rfl, List.drop_eq_nil_of_le (by omega), hrun⟩)
    | succ d => exact .inr (.inl ⟨d + 1, rfl, by rw [List.length_drop]; omega⟩)

/-- Settles O60: a write call completes the Word MF3 waits for; a read call makes room for one. -/
theorem aHostMoveLiftsTheWait : Obligations.AHostMoveLiftsTheWait := by
  constructor
  · intro s ms hl hp hj hA hm hrun ho
    obtain ⟨n, hn, h⟩ := producerTurn_of_running (s := s.setMoves ms) (.moved 4) hrun
      (List.ne_nil_of_length_pos (lt_of_lt_of_le (by omega) ho))
    have hwanted : wantedA (s.setMoves ms) = 4 := by simp [wantedA, hp, hj]
    have hfour := word_le_add_accepts s.cfg.depthA s.chanA.length ho
    have hle := accepts_le s.cfg.depthA s.chanA.length 4 (s.producer.refill s.cfg).outbox.length
    have hn : n = min 4 (accepts s.cfg.depthA s.chanA.length 4 (s.producer.refill s.cfg).outbox.length) := by
      rwa [hwanted] at hn
    refine ⟨_, step_of_move hl hm (by simp), ?_⟩
    rw [envMove, h]
    refine mf3Enabled_of_word hp hj ?_
    show 4 ≤ (s.chanA ++ (s.producer.refill s.cfg).outbox.take n).length
    rw [List.length_append, List.length_take]
    omega
  · intro s n ms hl hp hroom hdepth hm hrun hn hgot
    obtain ⟨k, hk, h⟩ := consumerTurn_of_running (s := s.setMoves ms) (.moved n) hrun
    have hk : k = min n (s.cfg.w - s.consumer.got.length) := by simpa [movedTotal] using hk
    refine ⟨_, step_of_move hl hm (by simp), mf3Enabled_of_emitw ((emitwEnabled_iff _).2 ?_)⟩
    rw [envMove, h]
    refine ⟨hp, hasRoomForWord_of_drop (k := k) hdepth (by omega) rfl rfl (if_neg ?_)⟩
    rintro ⟨-, hbad | hbad⟩
    · cases hbad
    · cases hbad
      omega

end Sys2Proof.Machine
end


section
/-! Steps seen whole (43_filterengine.md section 3, R129): turns of MF3 one after the other, the beats of a load, the beats
of a sending half, and ROWSTEP as their run. -/

namespace Sys2Proof.Machine

/-! ## Turns one after the other (R13) -/

theorem setMoves_nil {s : State} (hm : s.moves = []) : s.setMoves [] = s := by rw [← hm]; rfl

theorem turns_zero {s : State} (hm : s.moves = []) : turns 0 s = .next s := congrArg Host.Outcome.next (setMoves_nil hm)

theorem run_succ_of_next {s t : State} (h : step s = .next t) (n : Nat) :
    Sys2Proof.core.run (n + 1) s = Sys2Proof.core.run n t := by
  have hstep : Sys2Proof.core.step s = .next t := h
  simp only [Host.Core.run, hstep]

theorem run_succ_of_refused {s : State} {r : Refusal} (h : step s = .refused r) (n : Nat) :
    Sys2Proof.core.run (n + 1) s = .refused r := by
  have hstep : Sys2Proof.core.step s = .refused r := h
  simp only [Host.Core.run, hstep]

theorem turns_succ {s t : State} (hm : s.moves = []) (h : mf3Turn s = .next t) (n : Nat) :
    turns (n + 1) s = turns n t := by
  have htm : t.moves = [] := (mf3Turn_sameRest h).moves.trans hm
  rw [turns, turns, setMoves_nil hm, setMoves_nil htm, run_succ_of_next ((step_of_no_moves hm).trans h)]

theorem turns_succ_inv {n : Nat} {s u : State} (hm : s.moves = []) (h : turns (n + 1) s = .next u) :
    ∃ t, mf3Turn s = .next t ∧ t.moves = [] ∧ turns n t = .next u := by
  cases ht : mf3Turn s with
  | next t => exact ⟨t, rfl, (mf3Turn_sameRest ht).moves.trans hm, (turns_succ hm ht n).symm.trans h⟩
  | fault f => cases f
  | refused r =>
    rw [turns, setMoves_nil hm, run_succ_of_refused ((step_of_no_moves hm).trans ht)] at h
    cases h

theorem turns_add {m : Nat} {s t : State} (hm : s.moves = []) (h : turns m s = .next t) (n : Nat) :
    turns (m + n) s = turns n t := by
  induction m generalizing s with
  | zero =>
    rw [turns_zero hm] at h
    cases h
    rw [Nat.zero_add]
  | succ m ih =>
    obtain ⟨t', hturn, hm', h⟩ := turns_succ_inv hm h
    rw [Nat.add_right_comm, turns_succ hm hturn, ih hm' h]

theorem turns_add_one {m : Nat} {s t u : State} (hm : s.moves = []) (h : turns m s = .next t) (hmt : t.moves = [])
    (hturn : mf3Turn t = .next u) : turns (m + 1) s = .next u := by
  rw [turns_add hm h, turns_succ hmt hturn 0, turns_zero ((mf3Turn_sameRest hturn).moves.trans hmt)]

/-! ## The beats of a load (R93, R125) -/

/-- R44: Word `k` of a channel stands behind the `k` Words before it. -/
theorem bytesOfWord_prefix_drop {ws : List Word} {bs : List Byte} (h : bytesOfWords ws <+: bs) {k : Nat}
    (hk : k < ws.length) : bytesOfWord (ws.getD k 0) <+: bs.drop (4 * k) := by
  induction ws generalizing k bs with
  | nil => simp at hk
  | cons w ws ih =>
    obtain ⟨rest, rfl⟩ := h
    rw [bytesOfWords_cons, List.append_assoc]
    cases k with
    | zero => exact List.prefix_append ..
    | succ k =>
      have hdrop : (bytesOfWord w ++ (bytesOfWords ws ++ rest)).drop (4 * (k + 1)) = (bytesOfWords ws ++ rest).drop (4 * k) := by
        rw [List.drop_append, List.drop_eq_nil_of_le (by rw [length_bytesOfWord]; omega), length_bytesOfWord,
          show 4 * (k + 1) - 4 = 4 * k by omega, List.nil_append]
      rw [hdrop, List.getD_cons_succ]
      exact ih (List.prefix_append ..) (by simpa using hk)

/-- R37: a row half loaded: the first `k` of its Words are taken. -/
def State.loaded (s : State) (ws : List Word) (k : Nat) : State :=
  { s with ring := s.ring.loadBeats (s.nRow + 1) ws k, c := k, chanA := s.chanA.drop (4 * k) }

/-- R37, R125: `k` turns at a real Row take `k` Words, while the Row is not at its end. -/
theorem turns_loaded {s : State} (hl : s.cfg.legal = true) (hm : s.moves = []) (hp : s.phase = .load)
    (hj : s.j < s.cfg.jLast) (hc : s.c = 0) {ws : List Word} (hA : bytesOfWords ws <+: s.chanA) {k : Nat}
    (hk : k ≤ ws.length) (hw : k < s.cfg.wpr) : turns k s = .next (s.loaded ws k) := by
  induction k with
  | zero =>
    rw [turns_zero hm]
    cases s
    simp_all [State.loaded]
  | succ k ih =>
    have he : recvwEnabled (ws.getD k 0) (s.loaded ws k) = true :=
      (recvwEnabled_iff _ _).2 ⟨hp, hj, bytesOfWord_prefix_drop hA hk⟩
    refine turns_add_one hm (ih (by omega) (by omega)) hm ((mf3Turn_of_recvw (s := s.loaded ws k) hl he).trans ?_)
    have hmore : k < s.cfg.wpr - 1 := by omega
    rw [recvwNext_spec, State.loaded, State.loaded, Ring.loadBeats_succ]
    simp [hmore, List.drop_drop, Nat.mul_succ]

/-- R125, R127: the loading half of a step seen whole: its Row is taken and written, and the load ends. -/
def loadRow (x : Row) (s : State) : State :=
  let a := if stepIsReal s.cfg s.j then portRead s s.cfg.wpr else s
  endLoad (a.setRing (a.ring.write (targetSlot a.nRow) x))

/-- R125, R127, R140: everything the loading half of a step does. -/
theorem loadRow_spec (x : Row) (s : State) : loadRow x s = { s with
    chanA := if s.j < s.cfg.jLast then s.chanA.drop (4 * s.cfg.wpr) else s.chanA
    ring := s.ring.write (s.nRow + 1) x
    nRow := s.nRow + 1
    c := 0
    phase := if stepEmits s.cfg s.j then .emit else .load
    j := if stepEmits s.cfg s.j then s.j else s.j + 1 } := by
  by_cases hj : s.j < s.cfg.jLast <;>
    simp [loadRow, endLoad_spec, stepIsReal, hj, portRead, State.setChanA, State.setRing]

/-- R125: the row's last RECVW ends the load. -/
theorem recvwNext_eq_endLoad (w : Word) {s : State} (h : ¬ s.c < s.cfg.wpr - 1) : recvwNext w s =
    endLoad ((portRead s 1).setRing (s.ring.writePixels4 (targetSlot s.nRow) s.c (unpack w))) := by
  simp [recvwNext, moreBeats, h, portRead]

/-- The end of a load does not depend on the beat it comes at. -/
theorem endLoad_setC (s : State) (c : Nat) : endLoad (s.setC c) = endLoad s := by
  rw [endLoad_spec, endLoad_spec]
  rfl

/-- R125: the `wpr` beats of a real Row are its load. -/
theorem turns_loadRow_of_real {s : State} (hs : s.Legal) (hm : s.moves = []) (hp : s.phase = .load)
    (hj : s.j < s.cfg.jLast) (hc : s.c = 0) {x : Row} (hx : x.length = s.cfg.w) (hA : rowBytes x <+: s.chanA) :
    turns s.cfg.wpr s = .next (loadRow x s) := by
  have hl := hs.config
  have hw := wpr_pos hl
  have hfour := four_mul_wpr hl
  have hlen : (packRow x).length = s.cfg.wpr := by rw [length_packRow]; omega
  have hx4 : x.length % 4 = 0 := by omega
  have he : recvwEnabled ((packRow x).getD (s.cfg.wpr - 1) 0) (s.loaded (packRow x) (s.cfg.wpr - 1)) = true :=
    (recvwEnabled_iff _ _).2 ⟨hp, hj, bytesOfWord_prefix_drop hA (by omega)⟩
  have hring := Ring.loadBeats_wpr hl hs.ring (s.nRow + 1) hlen
  rw [unpackRow_packRow hx4, ← Nat.sub_add_cancel hw, Ring.loadBeats_succ] at hring
  rw [show turns s.cfg.wpr s = turns (s.cfg.wpr - 1 + 1) s by rw [Nat.sub_add_cancel hw]]
  refine turns_add_one hm (turns_loaded hl hm hp hj hc hA (by omega) (by omega)) hm
    ((mf3Turn_of_recvw (s := s.loaded _ _) hl he).trans ?_)
  have hdrop : 4 * (s.cfg.wpr - 1) + 4 = 4 * s.cfg.wpr := by omega
  generalize (packRow x).getD (s.cfg.wpr - 1) 0 = w at hring
  have hread : (portRead (s.loaded (packRow x) (s.cfg.wpr - 1)) 1).setRing
      ((s.loaded (packRow x) (s.cfg.wpr - 1)).ring.writePixels4 (targetSlot s.nRow) (s.cfg.wpr - 1) (unpack w)) =
      ((portRead s s.cfg.wpr).setRing (s.ring.write (targetSlot s.nRow) x)).setC (s.cfg.wpr - 1) := by
    simp [State.loaded, portRead, State.setChanA, State.setRing, State.setC, hring, List.drop_drop, hdrop]
  rw [recvwNext_eq_endLoad (s := s.loaded _ (s.cfg.wpr - 1)) w (Nat.lt_irrefl _), loadRow, (stepIsReal_iff _ _).2 hj, if_pos rfl]
  exact congrArg Host.Outcome.next ((congrArg endLoad hread).trans (endLoad_setC _ _))

/-- R127: the turn of the synthesised Row is its load. -/
theorem turns_loadRow_of_zero {s : State} (hl : s.cfg.legal = true) (hm : s.moves = []) (hp : s.phase = .load)
    (hj : s.j = s.cfg.jLast) : turns 1 s = .next (loadRow s.cfg.zeroRow s) := by
  refine turns_add_one hm (turns_zero hm) hm ((mf3Turn_of_zerorow hl ((zerorowEnabled_iff s).2 ⟨hp, hj⟩)).trans ?_)
  rw [zerorowNext_spec, loadRow_spec]
  simp [hj]

/-- R122, R125, R127: the loading half of a step is the run of its beats. -/
theorem turns_loadRow {s : State} (hs : s.Legal) (hm : s.moves = []) (hp : s.phase = .load) (hc : s.c = 0) {x : Row}
    (hx : x.length = s.cfg.w) (hrow : s.StepRowIs x) :
    turns (if s.j < s.cfg.jLast then s.cfg.wpr else 1) s = .next (loadRow x s) := by
  obtain ⟨hj, hA⟩ | ⟨hj, rfl⟩ := hrow
  · rw [if_pos hj]
    exact turns_loadRow_of_real hs hm hp hj hc hx hA
  · rw [if_neg hj.not_lt]
    exact turns_loadRow_of_zero hs.config hm hp hj

/-! ## The beats of a sending half (R128) -/

/-- R46, R47: room for Words is room for some of them. -/
theorem State.HasRoomForWords.of_le {s : State} {m n : Nat} (h : s.HasRoomForWords n) (hm : 1 ≤ m) (hmn : m ≤ n) :
    s.HasRoomForWords m := by
  obtain h | ⟨d, hd, h⟩ | ⟨hd, rfl, h⟩ := h
  · exact .inl h
  · exact .inr (.inl ⟨d, hd, by omega⟩)
  · exact .inr (.inr ⟨hd, by omega, h⟩)

/-- R46, R47: room for Words stays room for the rest of them when some are sent. -/
theorem State.HasRoomForWords.after {s t : State} {m n : Nat} (h : s.HasRoomForWords (n + m)) (hm : 1 ≤ m)
    (hcfg : t.cfg = s.cfg) (hcons : t.consumer = s.consumer) (hB : t.chanB.length = s.chanB.length + 4 * n) :
    t.HasRoomForWords m := by
  unfold State.HasRoomForWords
  rw [hcfg, hcons]
  obtain h | ⟨d, hd, h⟩ | ⟨hd, hone, hempty, hrun⟩ := h
  · exact .inl h
  · exact .inr (.inl ⟨d, hd, by omega⟩)
  · refine .inr (.inr ⟨hd, by omega, List.length_eq_zero_iff.1 ?_, hrun⟩)
    rw [hB, hempty, List.length_nil]
    omega

/-- R123: the Row that a sending half sends. -/
def State.filtered (s : State) : Row := filtRowAt s.cfg s.ring s.nRow

/-- R128: a row half sent: the first `k` of its Words are in channel B. -/
def State.emitted (s : State) (k : Nat) : State :=
  { s with c := k, chanB := s.chanB ++ bytesOfWords ((packRow s.filtered).take k) }

theorem length_packRow_filtered {s : State} : (packRow s.filtered).length = s.cfg.wpr := by
  rw [length_packRow, State.filtered, filtRowAt_length, Config.wpr]

/-- R128: EMITW sends the Word of its four columns. -/
theorem emitWord_emitted {s : State} {k : Nat} (hl : s.cfg.legal = true) (hk : k < s.cfg.wpr) :
    (packRow s.filtered).take (k + 1) = (packRow s.filtered).take k ++ [emitWord (s.emitted k)] := by
  have hw := four_mul_wpr hl
  have hlen : k < s.filtered.length / 4 := by rw [State.filtered, filtRowAt_length]; exact hk
  rw [List.take_add_one, getElem?_packRow hlen, State.filtered, filtRowAt_getD _ _ (by omega),
    filtRowAt_getD _ _ (by omega), filtRowAt_getD _ _ (by omega), filtRowAt_getD _ _ (by omega)]
  rfl

theorem bytesOfWords_append (ws ws' : List Word) : bytesOfWords (ws ++ ws') = bytesOfWords ws ++ bytesOfWords ws' :=
  List.flatMap_append ..

/-- R128: one EMITW more of a row half sent. -/
theorem emitwEnabled_emitted {s : State} (hp : s.phase = .emit) (hroom : s.HasRoomForWords s.cfg.wpr) {k : Nat}
    (hk : k < s.cfg.wpr) : emitwEnabled (s.emitted k) = true := by
  refine (emitwEnabled_iff _).2 ⟨hp, ?_⟩
  have hlen : ((packRow s.filtered).take k).length = k := by
    rw [List.length_take, length_packRow_filtered]
    omega
  refine State.HasRoomForWords.after (s := s) (n := k) (hroom.of_le (by omega) (by omega)) le_rfl rfl rfl ?_
  simp [State.emitted, hlen]

/-- R128: `k` turns of a sending half send `k` Words, while the Row is not at its end. -/
theorem turns_emitted {s : State} (hl : s.cfg.legal = true) (hm : s.moves = []) (hp : s.phase = .emit) (hc : s.c = 0)
    (hroom : s.HasRoomForWords s.cfg.wpr) {k : Nat} (hk : k < s.cfg.wpr) : turns k s = .next (s.emitted k) := by
  induction k with
  | zero =>
    rw [turns_zero hm]
    cases s
    simp_all [State.emitted]
  | succ k ih =>
    refine turns_add_one hm (ih (by omega)) hm
      ((mf3Turn_of_emitw (s := s.emitted _) hl (emitwEnabled_emitted hp hroom (by omega))).trans ?_)
    have hmore : k < s.cfg.wpr - 1 := by omega
    have hB : (s.emitted (k + 1)).chanB = (s.emitted k).chanB ++ bytesOfWord (emitWord (s.emitted k)) := by
      rw [State.emitted, emitWord_emitted hl (by omega), bytesOfWords_append, ← List.append_assoc]
      simp [State.emitted]
    rw [emitwNext_spec, ← hB]
    simp [State.emitted, hmore]

/-- R128: the row's last EMITW ends the step. -/
theorem emitwNext_eq_endStep {s : State} (h : ¬ s.c < s.cfg.wpr - 1) :
    emitwNext s = endStep (portWrite s [emitWord s]) := by
  simp [emitwNext, moreBeats, h, portWrite]

/-- The end of a step does not depend on the beat it comes at. -/
theorem endStep_setC (s : State) (c : Nat) : endStep (s.setC c) = endStep s := by
  rw [endStep_spec, endStep_spec]
  rfl

/-- R123, R128: the sending half of a step is the run of its beats. -/
theorem turns_endStep {s : State} (hl : s.cfg.legal = true) (hm : s.moves = []) (hp : s.phase = .emit) (hc : s.c = 0)
    (hroom : s.HasRoomForWords s.cfg.wpr) :
    turns s.cfg.wpr s = .next (endStep (portWrite s (packRow s.filtered))) := by
  have hw := wpr_pos hl
  have hlt : s.cfg.wpr - 1 < s.cfg.wpr := by omega
  have hB : (s.emitted (s.cfg.wpr - 1)).chanB ++ bytesOfWord (emitWord (s.emitted (s.cfg.wpr - 1))) =
      s.chanB ++ bytesOfWords (packRow s.filtered) := by
    rw [← List.take_of_length_le (i := s.cfg.wpr - 1 + 1) (l := packRow s.filtered) (by rw [length_packRow_filtered]; omega),
      emitWord_emitted hl hlt, bytesOfWords_append, ← List.append_assoc]
    simp [State.emitted]
  rw [show turns s.cfg.wpr s = turns (s.cfg.wpr - 1 + 1) s by rw [Nat.sub_add_cancel hw]]
  refine turns_add_one hm (turns_emitted hl hm hp hc hroom hlt) hm
    ((mf3Turn_of_emitw (s := s.emitted _) hl (emitwEnabled_emitted hp hroom hlt)).trans ?_)
  have hsent : portWrite (s.emitted (s.cfg.wpr - 1)) [emitWord (s.emitted (s.cfg.wpr - 1))] =
      (portWrite s (packRow s.filtered)).setC (s.cfg.wpr - 1) := by
    rw [portWrite, portWrite, bytesOfWords_cons, bytesOfWords_nil, List.append_nil, hB]
    rfl
  rw [emitwNext_eq_endStep (s := s.emitted (s.cfg.wpr - 1)) (Nat.lt_irrefl _), hsent, endStep_setC]

/-! ## The step seen whole (R129) -/

theorem rowstepNext_eq (x : Row) (s : State) : rowstepNext x s = if stepEmits s.cfg s.j then
    endStep (portWrite (loadRow x s) (packRow (loadRow x s).filtered)) else loadRow x s := rfl

/-- R129: a step seen whole is the run of its beats. -/
theorem turns_rowstep {s : State} (hs : s.Legal) (hm : s.moves = []) (hp : s.phase = .load) (hc : s.c = 0) {x : Row}
    (hx : x.length = s.cfg.w) (hrow : s.StepRowIs x)
    (hroom : stepEmits s.cfg s.j = true → s.HasRoomForWords s.cfg.wpr) :
    turns s.stepTurns s = .next (rowstepNext x s) := by
  have hload := turns_loadRow hs hm hp hc hx hrow
  rw [State.stepTurns, rowstepNext_eq]
  by_cases hem : stepEmits s.cfg s.j = true
  · have hspec := loadRow_spec x s
    rw [if_pos hem, if_pos hem, turns_add hm hload]
    have hcfg : (loadRow x s).cfg = s.cfg := by rw [hspec]
    rw [← hcfg]
    refine turns_endStep (s := loadRow x s) ?_ ?_ ?_ ?_ ?_ <;> rw [hspec]
    · exact hs.config
    · exact hm
    · exact if_pos hem
    · exact hroom hem
  · rw [if_neg hem, if_neg hem, Nat.add_zero, hload]

theorem rowstepEnabled_iff (x : Row) {s : State} (hl : s.cfg.legal = true) : rowstepEnabled x s = true ↔
    s.phase = .load ∧ s.c = 0 ∧ s.StepRowIs x ∧ (stepEmits s.cfg s.j = true → s.HasRoomForWords s.cfg.wpr) := by
  simp [rowstepEnabled, State.StepRowIs, roomB_iff (wpr_pos hl), and_assoc, imp_iff_not_or]

theorem exec_rowstep {s : State} {x : Row} (hl : s.cfg.legal = true) (hx : x.length = s.cfg.w) :
    exec (.rowstep x) s = .next (whenEnabled (rowstepEnabled x s) s (rowstepNext x s)) :=
  completes_of_ok _ _ hl ((isRow_iff _ _).2 hx)

theorem exec_rowstep_of_enabled {s : State} {x : Row} (hl : s.cfg.legal = true) (hx : x.length = s.cfg.w)
    (he : rowstepEnabled x s = true) : exec (.rowstep x) s = .next (rowstepNext x s) := by
  rw [exec_rowstep hl hx, he, whenEnabled_true]

/-- R108, R129: the filtered Row of a step is of the two Rows loaded last before it and its own. -/
theorem filtRowAt_write (cfg : Config) (ring : Ring) (n : Slot) (x : Row) :
    filtRowAt cfg (ring.write (n + 1) x) (n + 1) = filt3 cfg (ring.read (n + 2)) (ring.read n) x := by
  have habove : n + 1 + 2 = n := by revert n; decide
  have hbelow : n + 1 + 1 = n + 2 := by revert n; decide
  have hn : n ≠ n + 1 := by revert n; decide
  have hn2 : n + 2 ≠ n + 1 := by revert n; decide
  rw [filtRowAt_eq_filt3, habove, hbelow, Ring.read_write_same, Ring.read_write_of_ne _ _ hn,
    Ring.read_write_of_ne _ _ hn2, filt3_swap_last, filt3_swap_first]

/-! ## The obligations -/

/-- Settles O26: the Words of channel A are loaded beat by beat. -/
theorem halfLoadedRowIsNewBelowFourC : Obligations.HalfLoadedRowIsNewBelowFourC := by
  intro s k hs hp hj hc hk hA
  have hw := four_mul_wpr hs.config
  have hlen : k ≤ (wordsOfBytes s.chanA).length := by rw [length_wordsOfBytes]; omega
  have hpre : bytesOfWords (wordsOfBytes s.chanA) <+: s.chanA := ⟨_, bytesOfWords_wordsOfBytes_append s.chanA⟩
  refine ⟨_, turns_loaded (s := s.setMoves []) hs.config rfl hp hj hc hpre hlen hk, rfl, hp, rfl, rfl, rfl, rfl,
    fun slot x => ?_⟩
  refine (Ring.pixel_loadBeats hs.ring (s.nRow + 1) hlen (by omega) slot x).trans ?_
  rw [targetSlot_eq]
  by_cases h : slot = s.nRow + 1 ∧ x < 4 * k
  · have hx : x < (bytesOfWords (wordsOfBytes s.chanA)).length := by rw [length_bytesOfWords]; omega
    rw [if_pos h, if_pos h, List.getD_eq_getElem?_getD, List.getD_eq_getElem?_getD]
    conv_rhs => rw [← bytesOfWords_wordsOfBytes_append s.chanA, List.getElem?_append_left hx]
  · rw [if_neg h, if_neg h]

/-- Settles O31: the loading half and the sending half are the runs of their beats. -/
theorem rowstepIsTheRunOfItsBeats : Obligations.RowstepIsTheRunOfItsBeats := by
  intro s x hs hp hc hx hrow hroom hm
  rw [turns_rowstep hs hm hp hc hx hrow hroom,
    exec_rowstep_of_enabled hs.config hx ((rowstepEnabled_iff x hs.config).2 ⟨hp, hc, hrow, hroom⟩)]

/-- Settles O30: the effect of the step seen whole, its filtered Row read off the three slots. -/
theorem rowstepFiltersTheLastThreeRows : Obligations.RowstepFiltersTheLastThreeRows := by
  intro s x hs hp hc hx hrow hroom
  have hn : s.nRow ≠ s.nRow + 1 := by generalize s.nRow = n; revert n; decide
  have hn2 : s.nRow + 2 ≠ s.nRow + 1 := by generalize s.nRow = n; revert n; decide
  refine ⟨rowstepNext x s,
    exec_rowstep_of_enabled hs.config hx ((rowstepEnabled_iff x hs.config).2 ⟨hp, hc, hrow, hroom⟩), ?_⟩
  rw [rowstepNext_spec x (stepEmits_or_lt_jLast hs.config s.j), filtRowAt_write, four_mul_wpr hs.config]
  refine ⟨rfl, rfl, rfl, rfl, rfl, rfl, ⟨rfl, rfl, rfl, rfl, rfl, rfl⟩, fun hkeep => ?_, fun hj hclear slot => ?_⟩
  · simp only [if_pos hkeep]
    exact ⟨Ring.read_write_same _ _ _, Ring.read_write_of_ne _ _ hn, Ring.read_write_of_ne _ _ hn2⟩
  · simp [hj, hclear]

end Sys2Proof.Machine
end


section
/-! Passes (43_filterengine.md sections 4, 5 and 7, R131 to R135, R140): PASS as the run of its beats, and the closed form of
what it sends. -/

namespace Sys2Proof.Machine

/-! ## A run of steps seen whole -/

/-- R131: the steps of these Rows, one after the other. -/
def runSteps (xs : List Row) (s : State) : State := xs.foldl (fun t x => rowstepNext x t) s

@[simp] theorem runSteps_nil (s : State) : runSteps [] s = s := rfl
@[simp] theorem runSteps_cons (x : Row) (xs : List Row) (s : State) :
    runSteps (x :: xs) s = runSteps xs (rowstepNext x s) := rfl

theorem runSteps_append (xs ys : List Row) (s : State) : runSteps (xs ++ ys) s = runSteps ys (runSteps xs s) :=
  List.foldl_append ..

theorem passNext_eq_runSteps (rows : List Row) (s : State) : passNext rows s = runSteps (rows ++ [s.cfg.zeroRow]) s := rfl

theorem runSteps_sameRest (xs : List Row) {s : State} (hl : s.cfg.legal = true) : SameRest s (runSteps xs s) := by
  induction xs generalizing s with
  | nil => exact .refl s
  | cons x xs ih =>
    have hrest := rowstepNext_sameRest x hl
    exact hrest.trans (ih (by rw [hrest.cfg]; exact hl))

/-- R129: everything a step before a pass's last does. -/
theorem rowstepNext_of_lt (x : Row) {s : State} (hj : s.j < s.cfg.jLast) :
    (rowstepNext x s).phase = .load ∧ (rowstepNext x s).c = 0 ∧ (rowstepNext x s).j = s.j + 1 ∧
      (rowstepNext x s).nRow = s.nRow + 1 ∧ (rowstepNext x s).chanA = s.chanA.drop (4 * s.cfg.wpr) := by
  rw [rowstepNext_spec x (.inr hj)]
  exact ⟨rfl, rfl, if_pos hj, rfl, if_pos hj⟩

/-- R129: everything a pass's last step does. -/
theorem rowstepNext_of_last (x : Row) {s : State} (hl : s.cfg.legal = true) (hj : s.j = s.cfg.jLast) :
    (rowstepNext x s).phase = .load ∧ (rowstepNext x s).c = 0 ∧ (rowstepNext x s).j = 0 ∧
      (rowstepNext x s).nRow = s.nRow + 1 ∧ (rowstepNext x s).chanA = s.chanA := by
  rw [rowstepNext_spec x (.inl (hj ▸ stepEmits_jLast hl))]
  exact ⟨rfl, rfl, if_neg hj.not_lt, rfl, if_neg hj.not_lt⟩

theorem val_add_one (n : Slot) : (n + 1).val = (n.val + 1) % 3 := by rw [Fin.val_add, Fin.val_one]

/-- R130, R140: a run of steps to the end of a pass comes to the start of the next. -/
theorem runSteps_position {rows : List Row} (x : Row) {s : State} (hl : s.cfg.legal = true)
    (hj : s.j + rows.length = s.cfg.jLast) :
    (runSteps (rows ++ [x]) s).phase = .load ∧ (runSteps (rows ++ [x]) s).c = 0 ∧ (runSteps (rows ++ [x]) s).j = 0 ∧
      (runSteps (rows ++ [x]) s).nRow.val = (s.nRow.val + rows.length + 1) % 3 ∧
      (runSteps (rows ++ [x]) s).chanA = s.chanA.drop (rows.length * s.cfg.w) := by
  induction rows generalizing s with
  | nil =>
    obtain ⟨hp, hc, hj', hn, hA⟩ := rowstepNext_of_last x hl hj
    exact ⟨hp, hc, hj', (congrArg Fin.val hn).trans (val_add_one _), by simpa using hA⟩
  | cons y rows ih =>
    rw [List.length_cons] at hj
    obtain ⟨-, -, hj', hn, hA⟩ := rowstepNext_of_lt y (s := s) (by omega)
    have hcfg := (rowstepNext_sameRest y hl).1
    obtain ⟨hp, hc, hjn, hnn, hAn⟩ := ih (s := rowstepNext y s) (by rwa [hcfg]) (by rw [hj', hcfg]; omega)
    refine ⟨hp, hc, hjn, hnn.trans ?_, hAn.trans ?_⟩
    · rw [hn, val_add_one, List.length_cons]
      omega
    · rw [hA, hcfg, List.drop_drop, four_mul_wpr hl, List.length_cons, Nat.succ_mul, Nat.add_comm s.cfg.w]

/-! ## A pass as the run of its beats (R131, R140) -/

/-- R131, R140: the Rows that a run of steps to the end of its pass sends, `n` real Rows before the last. -/
def State.sendsOf (s : State) (n : Nat) : Nat := if stepEmits s.cfg s.j then n + 1 else n

theorem length_rowBytes_filtRowAt {cfg : Config} (hl : cfg.legal = true) (ring : Ring) (center : Slot) :
    (rowBytes (filtRowAt cfg ring center)).length = 4 * cfg.wpr := by
  rw [length_rowBytes_of_isRow hl (filtRowAt_length ..), four_mul_wpr hl]

/-- R46, R129: room for a run of steps is room for its first step, and after that for the rest. -/
theorem room_of_step {s : State} (x : Row) {n : Nat} (hl : s.cfg.legal = true) (hj : s.j < s.cfg.jLast)
    (hroom : s.HasRoomForWords (s.sendsOf (n + 1) * s.cfg.wpr)) :
    (stepEmits s.cfg s.j = true → s.HasRoomForWords s.cfg.wpr) ∧
      (rowstepNext x s).HasRoomForWords ((n + 1) * s.cfg.wpr) := by
  have hw := wpr_pos hl
  have hpos : 1 ≤ (n + 1) * s.cfg.wpr := Nat.mul_pos n.succ_pos hw
  have hrest := rowstepNext_sameRest x hl
  have hB : (rowstepNext x s).chanB.length = s.chanB.length + 4 * if stepEmits s.cfg s.j then s.cfg.wpr else 0 := by
    rw [rowstepNext_spec x (.inr hj)]
    dsimp only
    rw [List.length_append]
    split
    · rw [length_rowBytes_filtRowAt hl]
    · rfl
  by_cases hem : stepEmits s.cfg s.j = true
  · have hsum : s.sendsOf (n + 1) * s.cfg.wpr = s.cfg.wpr + (n + 1) * s.cfg.wpr := by
      rw [State.sendsOf, if_pos hem, Nat.succ_mul, Nat.add_comm]
    rw [hsum] at hroom
    rw [if_pos hem] at hB
    exact ⟨fun _ => hroom.of_le hw (Nat.le_add_right _ _), hroom.after hpos hrest.cfg hrest.consumer hB⟩
  · have hsum : s.sendsOf (n + 1) * s.cfg.wpr = 0 + (n + 1) * s.cfg.wpr := by
      rw [State.sendsOf, if_neg hem, Nat.zero_add]
    rw [hsum] at hroom
    rw [if_neg hem] at hB
    exact ⟨fun h => absurd h hem, hroom.after hpos hrest.cfg hrest.consumer hB⟩

/-- R131: a run of steps seen whole to the end of its pass is the run of their beats. -/
theorem turns_runSteps {rows : List Row} {s : State} (hs : s.Legal) (hm : s.moves = []) (hp : s.phase = .load)
    (hc : s.c = 0) (hj : s.j + rows.length = s.cfg.jLast) (hrows : ∀ r ∈ rows, r.length = s.cfg.w)
    (hA : rows.flatMap rowBytes <+: s.chanA) (hroom : s.HasRoomForWords (s.sendsOf rows.length * s.cfg.wpr)) :
    turns (rows.length * s.cfg.wpr + 1 + s.sendsOf rows.length * s.cfg.wpr) s =
      .next (runSteps (rows ++ [s.cfg.zeroRow]) s) := by
  have hl := hs.config
  induction rows generalizing s with
  | nil =>
    have hlast : s.j = s.cfg.jLast := hj
    have hem : stepEmits s.cfg s.j = true := hlast ▸ stepEmits_jLast hl
    have hrun := turns_rowstep hs hm hp hc (zeroRow_length s.cfg) (.inr ⟨hlast, rfl⟩) fun _ => by
      simpa [State.sendsOf, hem] using hroom
    rw [State.stepTurns, if_neg hlast.not_lt, if_pos hem] at hrun
    simpa [State.sendsOf, hem] using hrun
  | cons x rows ih =>
    rw [List.length_cons] at hj hroom
    obtain ⟨hx, hrows⟩ := List.forall_mem_cons.1 hrows
    have hlt : s.j < s.cfg.jLast := by omega
    obtain ⟨hfirst, hnext⟩ := room_of_step x hl hlt hroom
    obtain ⟨rest, hA⟩ := hA
    rw [List.flatMap_cons, List.append_assoc] at hA
    have hxA : rowBytes x <+: s.chanA := ⟨_, hA⟩
    obtain ⟨hp', hc', hj', -, hA'⟩ := rowstepNext_of_lt x hlt
    obtain ⟨hcfg, -, -, -, -, hm'⟩ := rowstepNext_sameRest x hl
    have hA' : (rowstepNext x s).chanA = rows.flatMap rowBytes ++ rest := by
      rw [hA', ← hA, four_mul_wpr hl, ← length_rowBytes_of_isRow hl hx, List.drop_left]
    have hsends : (rowstepNext x s).sendsOf rows.length = rows.length + 1 := by
      rw [State.sendsOf, if_pos (stepEmits_of_pos _ (by omega))]
    have hturns : (rows.length + 1) * s.cfg.wpr + 1 + s.sendsOf (rows.length + 1) * s.cfg.wpr =
        s.stepTurns + (rows.length * s.cfg.wpr + 1 + (rows.length + 1) * s.cfg.wpr) := by
      rw [State.stepTurns, State.sendsOf, if_pos hlt]
      split <;> ring
    have hrec := ih (s := rowstepNext x s) (rowstepNext_legal hs hx) (hm'.trans hm) hp' hc'
      (by rw [hj', hcfg]; omega) (by rwa [hcfg]) ⟨rest, hA'.symm⟩ (by rwa [hsends, hcfg]) (by rwa [hcfg])
    rw [hsends, hcfg] at hrec
    rw [List.length_cons, hturns, turns_add hm (turns_rowstep hs hm hp hc hx (.inl ⟨hlt, hxA⟩) hfirst), hrec]
    rfl

/-- R131, R140: the Rows a pass sends. -/
theorem rowsOut_eq_sendsOf {s : State} (hj : s.j = 0) : s.cfg.rowsOut = s.sendsOf s.cfg.rowsIn := by
  unfold Config.rowsOut State.sendsOf stepEmits
  rw [hj]
  cases s.cfg.schedule <;> rfl

theorem rowsOut_pos {cfg : Config} (hl : cfg.legal = true) : 1 ≤ cfg.rowsOut := by
  have hj := jLast_pos hl
  unfold Config.rowsOut
  split <;> omega

theorem passEnabled_iff (rows : List Row) {s : State} (hl : s.cfg.legal = true) : passEnabled rows s = true ↔
    s.phase = .load ∧ s.j = 0 ∧ s.c = 0 ∧ rows.flatMap rowBytes <+: s.chanA ∧
      s.HasRoomForWords (s.cfg.rowsOut * s.cfg.wpr) := by
  simp [passEnabled, roomB_iff (Nat.mul_pos (rowsOut_pos hl) (wpr_pos hl)), and_assoc]

theorem exec_pass {s : State} {rows : List Row} (hl : s.cfg.legal = true) (hn : rows.length = s.cfg.rowsIn)
    (hrows : ∀ r ∈ rows, r.length = s.cfg.w) :
    exec (.pass rows) s = .next (whenEnabled (passEnabled rows s) s (passNext rows s)) :=
  completes_of_ok _ _ hl (by simpa [Instr.wf, hn] using hrows)

theorem exec_pass_of_enabled {s : State} {rows : List Row} (hl : s.cfg.legal = true) (hn : rows.length = s.cfg.rowsIn)
    (hrows : ∀ r ∈ rows, r.length = s.cfg.w) (he : passEnabled rows s = true) :
    exec (.pass rows) s = .next (passNext rows s) := by
  rw [exec_pass hl hn hrows, he, whenEnabled_true]

/-- R131, R140: a pass seen whole is the run of its beats. -/
theorem turns_pass {rows : List Row} {s : State} (hs : s.Legal) (hm : s.moves = []) (hp : s.phase = .load) (hj : s.j = 0)
    (hc : s.c = 0) (hn : rows.length = s.cfg.rowsIn) (hrows : ∀ r ∈ rows, r.length = s.cfg.w)
    (hA : rows.flatMap rowBytes <+: s.chanA) (hroom : s.HasRoomForWords (s.cfg.rowsOut * s.cfg.wpr)) :
    turns s.cfg.passTurns s = .next (passNext rows s) := by
  have hlen : s.j + rows.length = s.cfg.jLast := by rw [hj, hn, Nat.zero_add, Config.rowsIn]
  rw [Config.passTurns, rowsOut_eq_sendsOf hj, ← hn]
  rw [rowsOut_eq_sendsOf hj, ← hn] at hroom
  exact turns_runSteps hs hm hp hc hlen hrows hA hroom

/-! ## What a run of steps sends (R132, R133) -/

/-- R132: the two Rows loaded last, the older first. -/
def State.newest (s : State) : List Row := [s.ring.read (s.nRow + 2), s.ring.read s.nRow]

theorem medianRows_zero (cfg : Config) (xs : List Row) (k : Nat) : medianRows cfg xs k 0 = [] := rfl

/-- R132: the first of the Rows sent, and the others. -/
theorem medianRows_succ (cfg : Config) (a b x : Row) (xs : List Row) (n : Nat) :
    medianRows cfg (a :: b :: x :: xs) 0 (n + 1) = filt3 cfg a b x :: medianRows cfg (b :: x :: xs) 0 n := by
  rw [medianRows, medianRows, List.range_succ_eq_map, List.map_cons, List.map_map]
  refine congrArg₂ _ rfl (List.map_congr_left fun i _ => ?_)
  simp only [Function.comp, Nat.zero_add, Nat.succ_eq_add_one, List.getD_cons_succ]

/-- R132: the Rows sent from the second place on. -/
theorem medianRows_tail (cfg : Config) (y : Row) (ys : List Row) (n : Nat) :
    medianRows cfg (y :: ys) 1 n = medianRows cfg ys 0 n :=
  List.map_congr_left fun i _ => by
    simp only [Nat.add_comm 1 i, Nat.zero_add, List.getD_cons_succ]

/-- R24, R124: the target slot is neither of the two loaded last. -/
theorem slot_ne_target (n : Slot) : n ≠ n + 1 ∧ n + 1 + 2 = n := by revert n; decide

/-- R132: a step's Row and the newest before it are the newest after it, unless the pass's end clears the ring. -/
theorem newest_rowstepNext (x : Row) {s : State} (hl : s.cfg.legal = true)
    (hkeep : s.j < s.cfg.jLast ∨ s.cfg.resetRingPerPass = false) : (rowstepNext x s).newest = [s.ring.read s.nRow, x] := by
  obtain ⟨hne, hback⟩ := slot_ne_target s.nRow
  rw [rowstepNext_spec x (stepEmits_or_lt_jLast hl s.j), State.newest]
  simp only [if_pos hkeep, hback, Ring.read_write_same, Ring.read_write_of_ne _ _ hne]

/-- R129, R132: what a step that sends appends to channel B. -/
theorem chanB_rowstepNext (x : Row) {s : State} (hl : s.cfg.legal = true) (hem : stepEmits s.cfg s.j = true) :
    (rowstepNext x s).chanB = s.chanB ++ rowBytes (filt3 s.cfg (s.ring.read (s.nRow + 2)) (s.ring.read s.nRow) x) := by
  rw [rowstepNext_spec x (stepEmits_or_lt_jLast hl s.j)]
  dsimp only
  rw [if_pos hem, filtRowAt_write]

/-- R132, R133: a run of steps that all send sends the filtered Rows of the newest two and its own, and leaves its last two
the newest; the ring may be cleared at the end of a pass only where the run ends. -/
theorem runSteps_closed {xs : List Row} {s : State} (hl : s.cfg.legal = true)
    (hclear : s.cfg.resetRingPerPass = false ∨ s.j + xs.length ≤ s.cfg.jLast + 1)
    (hem : s.cfg.schedule = .literal ∨ (0 < xs.length → 1 ≤ s.j) ∧ s.j + xs.length ≤ s.cfg.jLast + 1) :
    (runSteps xs s).chanB = s.chanB ++ (medianRows s.cfg (s.newest ++ xs) 0 xs.length).flatMap rowBytes ∧
      (s.cfg.resetRingPerPass = false → (runSteps xs s).newest = (s.newest ++ xs).drop xs.length) := by
  induction xs generalizing s with
  | nil => simp [medianRows_zero, State.newest]
  | cons x xs ih =>
    rw [List.length_cons] at hclear hem
    have hemits : stepEmits s.cfg s.j = true := by
      obtain h | ⟨h, -⟩ := hem
      · simp [stepEmits, h]
      · exact stepEmits_of_pos _ (h (by omega))
    have hcfg := (rowstepNext_sameRest x hl).1
    have hj : (rowstepNext x s).j = if s.j < s.cfg.jLast then s.j + 1 else 0 := by
      rw [rowstepNext_spec x (.inl hemits)]
    have hB := chanB_rowstepNext x hl hemits
    have hrec := ih (s := rowstepNext x s) (by rwa [hcfg])
      (by rw [hcfg, hj]; exact hclear.imp id fun h => by split <;> omega)
      (by rw [hcfg, hj]; exact hem.imp id fun h => by split <;> omega)
    rw [hcfg, hB] at hrec
    obtain ⟨hsent, hnew⟩ := hrec
    by_cases hkeep : s.j < s.cfg.jLast ∨ s.cfg.resetRingPerPass = false
    · rw [newest_rowstepNext x hl hkeep] at hsent hnew
      refine ⟨hsent.trans ?_, fun h => (hnew h).trans rfl⟩
      rw [List.append_assoc]
      exact congrArg (s.chanB ++ ·) (congrArg (List.flatMap rowBytes) (medianRows_succ ..).symm)
    · obtain ⟨hlast, hcl⟩ := not_or.1 hkeep
      obtain rfl : xs = [] := by
        have := hclear.resolve_left hcl
        exact List.length_eq_zero_iff.1 (by omega)
      refine ⟨hsent.trans ?_, fun h => absurd h hcl⟩
      simp [medianRows_zero, medianRows_succ, State.newest]

/-- R127, R140: after a pass the newest Row is ZERO_ROW, whether the ring is cleared or not. -/
theorem read_runSteps_zeroRow (rows : List Row) {s : State} (hl : s.cfg.legal = true) :
    (runSteps (rows ++ [s.cfg.zeroRow]) s).ring.read (runSteps (rows ++ [s.cfg.zeroRow]) s).nRow = s.cfg.zeroRow := by
  have hcfg := (runSteps_sameRest rows hl).1
  rw [runSteps_append, runSteps_cons, runSteps_nil, rowstepNext_spec _ (stepEmits_or_lt_jLast (by rwa [hcfg]) _), hcfg]
  dsimp only
  split
  · exact Ring.read_write_same ..
  · exact Ring.read_zero ..

/-! ## The obligations -/

theorem whenEnabled_of_not {b : Bool} {s t : State} (h : ¬ b = true) : whenEnabled b s t = s := if_neg h

/-- Settles O29: each operation's own test of being enabled fails. -/
theorem disabledOperationsWait : Obligations.DisabledOperationsWait := by
  intro s hl
  refine ⟨fun w h => ?_, fun h => ?_, fun h => ?_, fun x hx h => ?_, fun rows hn hrows h => ?_⟩
  · refine exec_recvw_of_not_enabled hl fun he => ?_
    obtain ⟨hp, hj, hw⟩ := (recvwEnabled_iff w s).1 he
    obtain h | h | h := h
    · simp [hp] at h
    · omega
    · exact h hw
  · refine (exec_zerorow hl).trans (congrArg Host.Outcome.next (whenEnabled_of_not fun he => ?_))
    obtain ⟨hp, hj⟩ := (zerorowEnabled_iff s).1 he
    obtain h | h := h
    · simp [hp] at h
    · exact h hj
  · refine exec_emitw_of_not_enabled hl fun he => ?_
    obtain ⟨hp, hroom⟩ := (emitwEnabled_iff s).1 he
    obtain h | h := h
    · simp [hp] at h
    · exact h hroom
  · refine (exec_rowstep hl hx).trans (congrArg Host.Outcome.next (whenEnabled_of_not fun he => ?_))
    obtain ⟨hp, hc, hrow, hroom⟩ := (rowstepEnabled_iff x hl).1 he
    obtain h | h | h | ⟨hem, h⟩ := h
    · simp [hp] at h
    · exact h hc
    · exact h hrow
    · exact h (hroom hem)
  · refine (exec_pass hl hn hrows).trans (congrArg Host.Outcome.next (whenEnabled_of_not fun he => ?_))
    obtain ⟨hp, hj, hc, hA, hroom⟩ := (passEnabled_iff rows hl).1 he
    obtain h | h | h | h | h := h
    · simp [hp] at h
    · exact h hj
    · exact h hc
    · exact h hA
    · exact h hroom

/-- Settles O35: each step of the pass is the run of its beats. -/
theorem passIsTheRunOfItsBeats : Obligations.PassIsTheRunOfItsBeats := by
  intro s rows hs hp hj hc hn hrows hA hroom hm
  rw [turns_pass hs hm hp hj hc hn hrows hA hroom, exec_pass_of_enabled hs.config hn hrows
    ((passEnabled_iff rows hs.config).2 ⟨hp, hj, hc, hA, hroom⟩)]

/-- Settles O32: every step of a LITERAL pass sends, and only the last may clear the ring. -/
theorem literalPassOutput : Obligations.LiteralPassOutput := by
  intro s rows hs hlit hp hj hc hn hrows hA hroom
  have hl := hs.config
  have hh := ((legal_iff s.cfg).1 hl).2.2
  have hjl := jLast_literal hlit
  have hin : rows.length = s.cfg.rowsIn := by rw [Config.rowsIn, hjl, hn]
  have hout : s.cfg.rowsOut = s.cfg.h := by
    rw [Config.rowsOut, hlit, hjl]
    exact Nat.sub_add_cancel (by omega)
  have hlen : (rows ++ [s.cfg.zeroRow]).length = s.cfg.h := by rw [List.length_append, List.length_singleton]; omega
  obtain ⟨hp', hc', hj', hn', hA'⟩ := runSteps_position s.cfg.zeroRow hl (rows := rows) (by omega)
  obtain ⟨hB, hnew⟩ := runSteps_closed (xs := rows ++ [s.cfg.zeroRow]) hl (.inr (by omega)) (.inl hlit)
  rw [hlen, ← List.append_assoc] at hB hnew
  refine ⟨passNext rows s, exec_pass_of_enabled hl hin hrows
    ((passEnabled_iff rows hl).2 ⟨hp, hj, hc, hA, hout ▸ hroom⟩), ?_⟩
  rw [passNext_eq_runSteps]
  refine ⟨hn ▸ hA', hB, hp', hj', hc', ?_, runSteps_sameRest _ hl, fun hclear => ⟨read_runSteps_zeroRow rows hl, ?_⟩⟩
  · rw [hn', hn]
    exact congrArg (· % 3) (by omega)
  · have hfirst := congrArg (fun l : List Row => l.getD 0 []) (hnew hclear)
    simpa [State.newest, State.rowsSeen, List.getD_eq_getElem?_getD] using hfirst

/-- R140: a RATE_PRESERVING pass sends from its second step on, the newest Rows then being that of step 0 and the one
before it. -/
theorem runSteps_silent_closed {rows : List Row} {s : State} (hl : s.cfg.legal = true)
    (hrp : s.cfg.schedule = .ratePreserving) (hj : s.j = 0) (hn : rows.length = s.cfg.h) :
    (runSteps (rows ++ [s.cfg.zeroRow]) s).chanB =
      s.chanB ++ (medianRows s.cfg (s.rowsSeen rows) 1 s.cfg.h).flatMap rowBytes := by
  have hh := ((legal_iff s.cfg).1 hl).2.2
  have hjl := jLast_ratePreserving hrp
  cases rows with
  | nil => rw [List.length_nil] at hn; omega
  | cons x rows =>
    rw [List.length_cons] at hn
    have hlt : s.j < s.cfg.jLast := by omega
    have hsilent : stepEmits s.cfg s.j = false := by simp [stepEmits, hrp, hj]
    have hcfg := (rowstepNext_sameRest x hl).1
    obtain ⟨-, -, hj', -, -⟩ := rowstepNext_of_lt x hlt
    have hB' : (rowstepNext x s).chanB = s.chanB := by rw [rowstepNext_spec x (.inr hlt)]; simp [hsilent]
    have hlen : (rows ++ [s.cfg.zeroRow]).length = s.cfg.h := by rw [List.length_append, List.length_singleton]; omega
    obtain ⟨hB, -⟩ := runSteps_closed (xs := rows ++ [s.cfg.zeroRow]) (s := rowstepNext x s) (by rwa [hcfg])
      (.inr (by rw [hcfg]; omega)) (.inr ⟨fun _ => by omega, by rw [hcfg]; omega⟩)
    have hseen : s.rowsSeen (x :: rows) =
        s.ring.read (s.nRow + 2) :: ([s.ring.read s.nRow, x] ++ (rows ++ [s.cfg.zeroRow])) := rfl
    rw [hcfg, hB', newest_rowstepNext x hl (.inl hlt), hlen] at hB
    rw [hseen, medianRows_tail]
    exact hB

/-- Settles O33: step 0 sends nothing, the others send as under LITERAL. -/
theorem ratePreservingPassOutput : Obligations.RatePreservingPassOutput := by
  intro s rows hs hrp hp hj hc hn hrows hA hroom
  have hl := hs.config
  have hh := ((legal_iff s.cfg).1 hl).2.2
  have hjl := jLast_ratePreserving hrp
  have hin : rows.length = s.cfg.rowsIn := by rw [Config.rowsIn, hjl, hn]
  have hout : s.cfg.rowsOut = s.cfg.h := by rw [Config.rowsOut, hrp, hjl]
  obtain ⟨hp', hc', hj', hn', hA'⟩ := runSteps_position s.cfg.zeroRow hl (rows := rows) (by omega)
  have hB : (runSteps (rows ++ [s.cfg.zeroRow]) s).chanB =
      s.chanB ++ (medianRows s.cfg (s.rowsSeen rows) 1 s.cfg.h).flatMap rowBytes :=
    runSteps_silent_closed hl hrp hj hn
  refine ⟨passNext rows s, exec_pass_of_enabled hl hin hrows
    ((passEnabled_iff rows hl).2 ⟨hp, hj, hc, hA, hout ▸ hroom⟩), ?_⟩
  rw [passNext_eq_runSteps]
  refine ⟨hn ▸ hA', hB, fun hzero => ?_, hp', hj', hc', ?_, runSteps_sameRest _ hl, read_runSteps_zeroRow rows hl⟩
  · have hseen : s.rowsSeen rows = s.ring.read (s.nRow + 2) :: ([s.ring.read s.nRow] ++ rows ++ [s.cfg.zeroRow]) := rfl
    rw [hB, hseen, medianRows_tail, hzero]
  · rw [hn', hn]

/-- R135: passes one after the other, beat by beat, are a run of all their steps. -/
theorem turns_passes {passes : List (List Row)} {s : State} (hs : s.Legal) (hB : s.cfg.depthB = none) (hm : s.moves = [])
    (hp : s.phase = .load) (hj : s.j = 0) (hc : s.c = 0)
    (hpasses : ∀ rows ∈ passes, rows.length = s.cfg.rowsIn ∧ ∀ r ∈ rows, r.length = s.cfg.w)
    (hA : s.chanA = passes.flatMap fun rows => rows.flatMap rowBytes) :
    ∃ t, t = runSteps (passes.flatMap fun rows => rows ++ [s.cfg.zeroRow]) s ∧
      turns (passes.length * s.cfg.passTurns) s = .next t ∧ t.chanA = [] ∧ t.phase = .load ∧ t.j = 0 ∧ t.c = 0 := by
  induction passes generalizing s with
  | nil => exact ⟨s, rfl, (by simpa using turns_zero hm), hA, hp, hj, hc⟩
  | cons rows passes ih =>
    have hl := hs.config
    obtain ⟨⟨hn, hrows⟩, hpasses⟩ := List.forall_mem_cons.1 hpasses
    rw [List.flatMap_cons] at hA
    have hlen : s.j + rows.length = s.cfg.jLast := by rw [hj, hn, Nat.zero_add, Config.rowsIn]
    have hturns := turns_pass hs hm hp hj hc hn hrows ⟨_, hA.symm⟩ (.inl hB)
    obtain ⟨hs', hrest⟩ := passNext_legal hs hrows
    obtain ⟨hp', hc', hj', -, hA'⟩ := runSteps_position s.cfg.zeroRow hl hlen
    obtain ⟨hcfg, -, -, -, -, hm'⟩ := hrest
    have hdrop : (passNext rows s).chanA = passes.flatMap fun rows => rows.flatMap rowBytes := by
      rw [passNext_eq_runSteps, hA', hA, ← length_flatMap_rowBytes hl hrows, List.drop_left]
    obtain ⟨t, ht, hrun, hend⟩ := ih (s := passNext rows s) hs' (by rwa [hcfg]) (hm'.trans hm) hp' hj' hc'
      (by rwa [hcfg]) hdrop
    rw [hcfg] at ht hrun
    refine ⟨t, ?_, ?_, hend⟩
    · rw [ht, List.flatMap_cons, runSteps_append, passNext_eq_runSteps]
    · rw [List.length_cons, Nat.succ_mul, Nat.add_comm, turns_add hm hturns, hrun]

/-- Settles O34: the passes are one run of steps that all send and never clear. -/
theorem wholeStreamClosedForm : Obligations.WholeStreamClosedForm := by
  intro s passes hs hlit hkeep hB hp hj hc hm hpasses hA
  have hh := ((legal_iff s.cfg).1 hs.config).2.2
  have hin : s.cfg.rowsIn = s.cfg.h - 1 := jLast_literal hlit
  obtain ⟨t, ht, hrun, hA', hp', hj', hc'⟩ := turns_passes hs hB hm hp hj hc (by rwa [hin]) hA
  refine ⟨t, hrun, hA', hp', hj', hc', ?_⟩
  have hlen : (passes.flatMap fun rows => rows ++ [s.cfg.zeroRow]).length = passes.length * s.cfg.h := by
    have hone : ∀ rows ∈ passes, (rows ++ [s.cfg.zeroRow]).length = s.cfg.h := fun rows hrows => by
      rw [List.length_append, (hpasses rows hrows).1, List.length_singleton]
      omega
    rw [List.length_flatMap, List.map_congr_left hone, List.map_const', List.sum_replicate, smul_eq_mul]
  rw [ht, (runSteps_closed hs.config (.inl hkeep) (.inl hlit)).1, hlen]
  rfl

end Sys2Proof.Machine
end


section
/-! What MF3's turns depend on and come to (20_memory.md section 6, 43_filterengine.md section 6, 44_environment.md section
3, 70_reset_and_hazards.md section 3): determinacy, whole Words, zero from zero, the end of a run, and progress. -/

namespace Sys2Proof.Machine

/-! ## Determinacy (R59) -/

theorem prefix_iff_take_four {bs : List Byte} (w : Word) : bytesOfWord w <+: bs ↔ bs.take 4 = bytesOfWord w := by
  rw [List.prefix_iff_eq_take, length_bytesOfWord, eq_comm]

/-- R59: two states with the same configuration, MF3's own state and Word at port A. -/
structure SameInput (s t : State) : Prop where
  cfg    : t.cfg = s.cfg
  engine : SameEngine s t
  word   : t.chanA.take 4 = s.chanA.take 4

section determinacy
variable {s t : State} (h : SameInput s t)
include h

theorem SameInput.recvw {w : Word} (he : recvwEnabled w s = true) : recvwEnabled w t = true := by
  obtain ⟨hp, hj, hw⟩ := (recvwEnabled_iff w s).1 he
  obtain ⟨hcfg, ⟨-, -, hj', -, hp'⟩, hword⟩ := h
  refine (recvwEnabled_iff w t).2 ⟨hp'.trans hp, by rwa [hj', hcfg], (prefix_iff_take_four w).2 ?_⟩
  rw [hword]
  exact (prefix_iff_take_four w).1 hw

theorem SameInput.zerorow (he : zerorowEnabled s = true) : zerorowEnabled t = true := by
  obtain ⟨hp, hj⟩ := (zerorowEnabled_iff s).1 he
  obtain ⟨hcfg, ⟨-, -, hj', -, hp'⟩, -⟩ := h
  exact (zerorowEnabled_iff t).2 ⟨hp'.trans hp, by rwa [hj', hcfg]⟩

theorem SameInput.emitWord : emitWord t = emitWord s := by
  obtain ⟨hcfg, ⟨hr, hn, -, hc, -⟩, -⟩ := h
  rw [Machine.emitWord, Machine.emitWord, hcfg, hr, hn, hc]

theorem SameInput.recvwNext (w : Word) : SameEngine (recvwNext w s) (recvwNext w t) := by
  obtain ⟨hcfg, ⟨hr, hn, hj, hc, hp⟩, -⟩ := h
  rw [recvwNext_spec, recvwNext_spec]
  simp only [SameEngine, hcfg, hr, hn, hj, hc, hp, and_self]

theorem SameInput.zerorowNext : SameEngine (zerorowNext s) (zerorowNext t) := by
  obtain ⟨hcfg, ⟨hr, hn, hj, hc, hp⟩, -⟩ := h
  rw [zerorowNext_spec, zerorowNext_spec]
  simp only [SameEngine, hcfg, hr, hn, hj, and_self]

theorem SameInput.emitwNext : SameEngine (emitwNext s) (emitwNext t) := by
  obtain ⟨hcfg, ⟨hr, hn, hj, hc, hp⟩, -⟩ := h
  rw [emitwNext_spec, emitwNext_spec]
  simp only [SameEngine, hcfg, hr, hn, hj, hc, hp, and_self]

end determinacy

/-- R127: ZEROROW involves no port. -/
theorem zerorowNext_chans (s : State) : (zerorowNext s).chanA = s.chanA ∧ (zerorowNext s).chanB = s.chanB := by
  rw [zerorowNext_spec]
  exact ⟨rfl, rfl⟩

theorem emitwEnabled_of_mf3Enabled {s : State} (hp : s.phase = .emit) (h : mf3Enabled s = true) :
    emitwEnabled s = true := by simpa [mf3Enabled, emitwEnabled, hp] using h

/-- Settles O48: the operation enabled in the one state is enabled in the other and does the same. -/
theorem beatsDependOnTheEngineAndTheWordOnly : Obligations.BeatsDependOnTheEngineAndTheWordOnly := by
  intro s t hcfg heng hword hl hms hmt hs ht
  have hin : SameInput s t := ⟨hcfg.symm, heng, hword.symm⟩
  have hlt : t.cfg.legal = true := hcfg ▸ hl
  have next {u s' : State} (hm : u.moves = []) (h : mf3Turn u = .next s') : step u = .next s' :=
    (step_of_no_moves hm).trans h
  obtain ⟨w, he, h⟩ | ⟨he, h⟩ | ⟨he, h⟩ | ⟨hw, -⟩ := mf3Turn_outcome hl
  · obtain ⟨hA, hB, -⟩ := recvwNext_frame w s
    obtain ⟨hA', hB', -⟩ := recvwNext_frame w t
    exact ⟨_, _, 4, [], next hms h, next hmt (mf3Turn_of_recvw hlt (hin.recvw he)), hin.recvwNext w, hA, hA',
      by rw [hB, List.append_nil], by rw [hB', List.append_nil]⟩
  · obtain ⟨hA, hB⟩ := zerorowNext_chans s
    obtain ⟨hA', hB'⟩ := zerorowNext_chans t
    exact ⟨_, _, 0, [], next hms h, next hmt (mf3Turn_of_zerorow hlt (hin.zerorow he)), hin.zerorowNext, hA, hA',
      by rw [hB, List.append_nil], by rw [hB', List.append_nil]⟩
  · have hp : t.phase = .emit := heng.phase.trans ((emitwEnabled_iff s).1 he).1
    obtain ⟨hB, hA, -⟩ := emitwNext_frame s
    obtain ⟨hB', hA', -⟩ := emitwNext_frame t
    exact ⟨_, _, 0, _, next hms h, next hmt (mf3Turn_of_emitw hlt (emitwEnabled_of_mf3Enabled hp ht)), hin.emitwNext,
      hA, hA', hB, by rw [hB', hin.emitWord]⟩
  · rw [State.Waits, hs] at hw
    cases hw

/-- R46: a turn takes nothing back from channel B. -/
theorem chanB_prefix_of_mf3Turn {s t : State} (h : mf3Turn s = .next t) : s.chanB <+: t.chanB := by
  obtain ⟨w, -, rfl⟩ | ⟨-, rfl⟩ | ⟨-, rfl⟩ | ⟨-, rfl⟩ := mf3Turn_next_cases h
  · rw [(recvwNext_frame w s).2.1]
  · rw [(zerorowNext_chans s).2]
  · exact ⟨_, (emitwNext_frame s).1.symm⟩
  · rfl

/-- R46, R170: turns go on for ever and only add to channel B. -/
theorem exists_turns {s : State} (hl : s.cfg.legal = true) (hm : s.moves = []) (n : Nat) :
    ∃ t, turns n s = .next t ∧ s.chanB <+: t.chanB := by
  induction n generalizing s with
  | zero => exact ⟨s, turns_zero hm, List.prefix_rfl⟩
  | succ n ih =>
    obtain ⟨u, hu⟩ : ∃ u, mf3Turn s = .next u := step_of_no_moves hm ▸ exists_step_eq_next hl
    obtain ⟨hcfg, -, -, -, -, hmu⟩ := mf3Turn_sameRest hu
    obtain ⟨t, ht, hB⟩ := ih (s := u) (by rwa [hcfg]) (hmu.trans hm)
    exact ⟨t, (turns_succ hm hu n).trans ht, (chanB_prefix_of_mf3Turn hu).trans hB⟩

/-- R178: MF3 alone waits for ever. -/
theorem turns_of_waits {s : State} (hl : s.cfg.legal = true) (hm : s.moves = []) (hw : s.Waits) (n : Nat) :
    turns n s = .next s := by
  induction n with
  | zero => exact turns_zero hm
  | succ n ih => rw [turns_succ hm (mf3Turn_of_waits hl hw), ih]

/-- R59: the same state with more input waiting. -/
def State.withMore (s : State) (extra : List Byte) : State := { s with chanA := s.chanA ++ extra }

/-- R59: while MF3 does not wait for a Word, more input changes no turn. -/
theorem mf3Turn_withMore {s t : State} (extra : List Byte)
    (hA : ¬ (s.phase = .load ∧ s.j < s.cfg.jLast ∧ s.chanA.length < 4)) (h : mf3Turn s = .next t) :
    mf3Turn (s.withMore extra) = .next (t.withMore extra) := by
  have hl : (s.withMore extra).cfg.legal = true := (mf3Turn_cases h).1
  obtain ⟨w, he, rfl⟩ | ⟨he, rfl⟩ | ⟨he, rfl⟩ | ⟨hw, hts⟩ := mf3Turn_next_cases h
  · obtain ⟨hp, hj, hw⟩ := (recvwEnabled_iff w s).1 he
    have hlen : 4 ≤ s.chanA.length := hw.length_le
    refine (mf3Turn_of_recvw hl ((recvwEnabled_iff w _).2 ⟨hp, hj, hw.trans (List.prefix_append ..)⟩)).trans ?_
    have hsame : recvwNext w (s.withMore extra) = { recvwNext w s with chanA := (s.chanA ++ extra).drop 4 } := by
      rw [recvwNext_spec, recvwNext_spec]
      rfl
    rw [hsame, List.drop_append_of_le_length hlen, ← (recvwNext_frame w s).1]
    rfl
  · refine (mf3Turn_of_zerorow hl he).trans ?_
    rw [zerorowNext_spec, zerorowNext_spec]
    rfl
  · refine (mf3Turn_of_emitw hl he).trans ?_
    rw [emitwNext_spec, emitwNext_spec]
    rfl
  · rw [hts]
    obtain hwait | hwait | hwait := (waits_iff s).1 hw
    · exact absurd hwait hA
    · exact mf3Turn_of_waits hl ((waits_iff _).2 (.inr (.inl hwait)))
    · exact mf3Turn_of_waits hl ((waits_iff _).2 (.inr (.inr hwait)))

/-- Settles O49: more input changes no turn until MF3 waits for a Word, and then the shorter run sends no more. -/
theorem laterInputNeverChangesEarlierOutput : Obligations.LaterInputNeverChangesEarlierOutput := by
  have key (n : Nat) : ∀ (s s' : State) (extra : List Byte), s.moves = [] → turns n s = .next s' →
      ∃ t', turns n (s.withMore extra) = .next t' ∧ s'.chanB <+: t'.chanB := by
    induction n with
    | zero =>
      intro s s' extra hm h
      rw [turns_zero hm] at h
      cases h
      exact ⟨s.withMore extra, turns_zero hm, List.prefix_rfl⟩
    | succ n ih =>
      intro s s' extra hm h
      obtain ⟨t, ht, hmt, hrun⟩ := turns_succ_inv hm h
      have hl := (mf3Turn_cases ht).1
      by_cases hA : s.phase = .load ∧ s.j < s.cfg.jLast ∧ s.chanA.length < 4
      · have hsame := (turns_of_waits hl hm ((waits_iff s).2 (.inl hA)) (n + 1)).symm.trans h
        cases hsame
        exact exists_turns (s := s.withMore extra) hl hm (n + 1)
      · obtain ⟨t', ht', hB⟩ := ih t s' extra hmt hrun
        exact ⟨t', (turns_succ (s := s.withMore extra) hm (mf3Turn_withMore extra hA ht) n).trans ht', hB⟩
  exact fun s s' extra n h => key n (s.setMoves []) s' extra rfl h

/-! ## Whole Words (R46, R47, R50) -/

/-- R47: a channel that has room for a Word holds no more than its depth with it. -/
theorem withinDepth_of_room {s : State} (h : s.HasRoomForWord) (w : Word) :
    WithinDepth s.cfg.depthB (s.chanB ++ bytesOfWord w) := by
  intro d hd
  rw [List.length_append, length_bytesOfWord]
  obtain h | ⟨d', hd', h⟩ | ⟨hd', -, hempty, -⟩ := h
  · simp [h] at hd
  · obtain rfl : d' = d := Option.some.inj (hd'.symm.trans hd)
    omega
  · rw [hempty, List.length_nil]
    omega

/-- Settles O50: RECVW takes a Word, EMITW sends one where there is room, and no other turn moves any. -/
theorem portsMoveWholeWords : Obligations.PortsMoveWholeWords := by
  intro s t hm h
  rw [step_of_no_moves hm] at h
  obtain ⟨w, he, rfl⟩ | ⟨-, rfl⟩ | ⟨he, rfl⟩ | ⟨-, rfl⟩ := mf3Turn_next_cases h
  · obtain ⟨hA, hB, -⟩ := recvwNext_frame w s
    have hlen : 4 ≤ s.chanA.length := ((recvwEnabled_iff w s).1 he).2.2.length_le
    refine ⟨s.chanA.take 4, [], ?_, by rw [hB, List.append_nil], .inr ⟨?_, rfl⟩, .inl rfl, by rw [hB]; exact id⟩
    · rw [hA, List.take_append_drop]
    · rw [List.length_take]
      omega
  · obtain ⟨hA, hB⟩ := zerorowNext_chans s
    exact ⟨[], [], hA.symm, by rw [hB, List.append_nil], .inl rfl, .inl rfl, by rw [hB]; exact id⟩
  · obtain ⟨hB, hA, -⟩ := emitwNext_frame s
    refine ⟨[], bytesOfWord (emitWord s), hA.symm, hB, .inl rfl, .inr ⟨rfl, rfl⟩, fun _ => ?_⟩
    rw [hB]
    exact withinDepth_of_room ((emitwEnabled_iff s).1 he).2 _
  · exact ⟨[], [], rfl, (List.append_nil _).symm, .inl rfl, .inl rfl, id⟩

/-! ## Zero from zero (R161) -/

/-- R161: every Pixel of the ring is 0. -/
def Ring.IsZero (r : Ring) : Prop := ∀ (slot : Slot) (x : Nat), r.pixel slot x = 0

theorem getD_set_zero {l : List Pixel} (h : ∀ x, l.getD x 0 = 0) (i : Nat) : ∀ x, (l.set i 0).getD x 0 = 0 := by
  intro x
  have hx := h x
  rw [List.getD_eq_getElem?_getD] at hx ⊢
  rw [List.getElem?_set]
  split
  · split <;> rfl
  · exact hx

theorem Ring.IsZero.write {r : Ring} (h : r.IsZero) (slot : Slot) {row : Row} (hrow : ∀ x, row.getD x 0 = 0) :
    (r.write slot row).IsZero := by
  intro slot' x
  by_cases hs : slot' = slot
  · rw [hs, Ring.pixel_write_same, hrow]
  · rw [Ring.pixel, Ring.read_write_of_ne _ _ hs]
    exact h slot' x

theorem getD_zeroRow (cfg : Config) (x : Nat) : cfg.zeroRow.getD x 0 = 0 := by
  rw [Config.zeroRow, List.getD_eq_getElem?_getD, List.getElem?_replicate]
  split <;> rfl

theorem Ring.isZero_zero (cfg : Config) : (Ring.zero cfg).IsZero := fun slot x => by
  rw [Ring.pixel, Ring.read_zero, getD_zeroRow]

theorem Ring.IsZero.writePixels4 {r : Ring} (h : r.IsZero) (slot : Slot) (m : Nat) :
    (r.writePixels4 slot m (0, 0, 0, 0)).IsZero :=
  h.write slot (getD_set_zero (getD_set_zero (getD_set_zero (getD_set_zero (h slot) _) _) _) _)

/-- R111: the window of a zero ring has the median 0. -/
theorem Ring.IsZero.filtPixAt {r : Ring} (h : r.IsZero) (cfg : Config) (center : Slot) (i : Nat) :
    filtPixAt cfg r center i = 0 := by
  have hs (k l : Offset) : sampleAt cfg r center k i l = 0 := by
    unfold sampleAt pad
    split
    · exact h _ _
    · rfl
  rw [Machine.filtPixAt]
  simp only [hs]
  decide

theorem eq_zero_of_bytes_zero {w : Word} {bs : List Byte} (h : ∀ b ∈ bs, b = 0) (hw : bytesOfWord w <+: bs) : w = 0 := by
  have hz : ∀ b ∈ bytesOfWord w, b = 0 := fun b hb => h b (hw.subset hb)
  rw [← wordOfBytes_of_bytes w, hz (w.extractLsb' 0 8) (by simp [bytesOfWord]), hz (w.extractLsb' 8 8) (by simp [bytesOfWord]),
    hz (w.extractLsb' 16 8) (by simp [bytesOfWord]), hz (w.extractLsb' 24 8) (by simp [bytesOfWord])]
  decide

/-- Settles O51: a zero Word loads zeros, a zero ring sends the median of zeros. -/
theorem allZeroInputGivesAllZeroOutput : Obligations.AllZeroInputGivesAllZeroOutput := by
  intro s t hm h hring hA hB
  have hring : s.ring.IsZero := hring
  rw [step_of_no_moves hm] at h
  obtain ⟨w, he, rfl⟩ | ⟨-, rfl⟩ | ⟨-, rfl⟩ | ⟨-, rfl⟩ := mf3Turn_next_cases h
  · obtain ⟨hA', hB', -⟩ := recvwNext_frame w s
    obtain rfl := eq_zero_of_bytes_zero hA ((recvwEnabled_iff w s).1 he).2.2
    rw [recvwNext_ring, hA', hB']
    exact ⟨hring.writePixels4 _ _, fun b hb => hA b (List.mem_of_mem_drop hb), hB⟩
  · obtain ⟨hA', hB'⟩ := zerorowNext_chans s
    rw [hA', hB', zerorowNext_spec]
    exact ⟨hring.write _ (getD_zeroRow s.cfg), hA, hB⟩
  · obtain ⟨hB', hA', -⟩ := emitwNext_frame s
    have hword : bytesOfWord (emitWord s) = [0, 0, 0, 0] := by
      rw [emitWord, bytesOfWord_pack]
      simp only [hring.filtPixAt]
    rw [hA', hB', hword, emitwNext_spec]
    refine ⟨?_, hA, fun b hb => ?_⟩
    · dsimp only
      split
      · exact hring
      · exact Ring.isZero_zero s.cfg
    · rcases List.mem_append.1 hb with hb | hb
      · exact hB b hb
      · simpa using hb
  · exact ⟨hring, hA, hB⟩

/-! ## Progress (R200) -/

/-- R200: at a sending position with room the next turn sends a Word. -/
theorem sends_of_emit {s : State} (hl : s.cfg.legal = true) (hm : s.moves = []) (hp : s.phase = .emit)
    (hroom : s.HasRoomForWord) : ∃ t, turns 1 s = .next t ∧ t.chanB.length = s.chanB.length + 4 := by
  refine ⟨emitwNext s, turns_add_one hm (turns_zero hm) hm (mf3Turn_of_emitw hl ((emitwEnabled_iff s).2 ⟨hp, hroom⟩)), ?_⟩
  rw [(emitwNext_frame s).1, List.length_append, length_bytesOfWord]

/-- R45: taking input leaves the room of channel B as it is. -/
theorem recvwNext_hasRoom {s : State} (w : Word) (h : s.HasRoomForWord) : (recvwNext w s).HasRoomForWord := by
  obtain ⟨-, hB, hcfg, -, -, hcons, -, -⟩ := recvwNext_frame w s
  exact State.HasRoomForWords.after (n := 0) h le_rfl hcfg hcons (congrArg List.length hB)

/-- R200: what is left of a row that is fed takes a turn per Word, and the next one sends. -/
theorem sends_of_fed_load {k : Nat} {s : State} (hl : s.cfg.legal = true) (hlit : s.cfg.schedule = .literal)
    (hm : s.moves = []) (hp : s.phase = .load) (hj : s.j < s.cfg.jLast) (hc : s.c + k + 1 = s.cfg.wpr)
    (hA : 4 * (k + 1) ≤ s.chanA.length) (hroom : s.HasRoomForWord) :
    ∃ t, turns (k + 2) s = .next t ∧ t.chanB.length = s.chanB.length + 4 := by
  induction k generalizing s with
  | zero =>
    obtain ⟨w, hw⟩ := exists_word_of_four_le (bs := s.chanA) (by omega)
    have hturn := mf3Turn_of_recvw hl ((recvwEnabled_iff w s).2 ⟨hp, hj, hw⟩)
    obtain ⟨-, hB, hcfg, -, -, -, -, hm'⟩ := recvwNext_frame w s
    obtain ⟨-, -, hemits, -⟩ := recvwNext_of_last w (s := s) (by omega)
    obtain ⟨t, hrun, hlen⟩ := sends_of_emit (s := recvwNext w s) (by rwa [hcfg]) (hm'.trans hm)
      (hemits (by simp [stepEmits, hlit])).1 (recvwNext_hasRoom w hroom)
    exact ⟨t, (turns_succ hm hturn 1).trans hrun, by rw [hlen, hB]⟩
  | succ k ih =>
    obtain ⟨w, hw⟩ := exists_word_of_four_le (bs := s.chanA) (by omega)
    have hturn := mf3Turn_of_recvw hl ((recvwEnabled_iff w s).2 ⟨hp, hj, hw⟩)
    obtain ⟨hA', hB, hcfg, -, -, -, -, hm'⟩ := recvwNext_frame w s
    obtain ⟨hc', -, hj', hp'⟩ := recvwNext_of_more w (s := s) (by omega)
    obtain ⟨t, hrun, hlen⟩ := ih (s := recvwNext w s) (by rwa [hcfg]) (by rwa [hcfg]) (hm'.trans hm) (hp'.trans hp)
      (by rwa [hj', hcfg]) (by rw [hc', hcfg]; omega) (by rw [hA', List.length_drop]; omega) (recvwNext_hasRoom w hroom)
    exact ⟨t, (turns_succ hm hturn (k + 2)).trans hrun, by rw [hlen, hB]⟩

/-- Settles O53: from a sending position one turn, from ZEROROW's two, and from a row's Word one for each that is left and
one more. -/
theorem fedEngineSendsAWordSoon : Obligations.FedEngineSendsAWordSoon := by
  intro s hs hlit hA hroom
  have hl := hs.config
  have hw := wpr_pos hl
  have hfour := four_mul_wpr hl
  have hc := hs.c
  have hm : (s.setMoves []).moves = [] := rfl
  cases hp : s.phase with
  | emit =>
    obtain ⟨t, hrun, hlen⟩ := sends_of_emit (s := s.setMoves []) hl hm hp hroom
    exact ⟨1, t, by omega, hrun, hlen⟩
  | load =>
    obtain hj | hj := Nat.lt_or_eq_of_le hs.j
    · obtain ⟨k, hk⟩ : ∃ k, s.c + k + 1 = s.cfg.wpr := ⟨s.cfg.wpr - s.c - 1, by omega⟩
      obtain ⟨t, hrun, hlen⟩ := sends_of_fed_load (s := s.setMoves []) hl hlit hm hp hj hk
        (show 4 * (k + 1) ≤ s.chanA.length by omega) hroom
      exact ⟨k + 2, t, by omega, hrun, hlen⟩
    · have hturn := mf3Turn_of_zerorow (s := s.setMoves []) hl ((zerorowEnabled_iff _).2 ⟨hp, hj⟩)
      obtain ⟨hp', -⟩ := zerorowNext_position (s := s.setMoves []) hl hj
      have hroom' : (zerorowNext (s.setMoves [])).HasRoomForWord := by
        rw [zerorowNext_spec]
        exact hroom
      obtain ⟨hcfg, -, -, -, -, hm'⟩ := zerorowNext_sameRest (s.setMoves [])
      obtain ⟨t, hrun, hlen⟩ := sends_of_emit (s := zerorowNext (s.setMoves [])) (by rwa [hcfg]) hm' hp' hroom'
      exact ⟨2, t, by omega, (turns_succ hm hturn 1).trans hrun, by rw [hlen, (zerorowNext_chans _).2]; rfl⟩

/-! ## The end of a run (R69, R139) -/

/-- R139: at the end of a run with a Consumer that takes Words, what MF3 waits for is a Word. -/
theorem hasRoomForWord_of_empty {s : State} (hB : s.chanB = [])
    (hcons : s.cfg.depthB ≠ some 0 ∨ s.consumer.status = .running) : s.HasRoomForWord := by
  unfold State.HasRoomForWord State.HasRoomForWords
  cases hd : s.cfg.depthB with
  | none => exact .inl rfl
  | some d =>
    cases d with
    | zero => exact .inr (.inr ⟨rfl, rfl, hB, hcons.resolve_left fun h => h hd⟩)
    | succ d => exact .inr (.inl ⟨d + 1, rfl, by rw [hB, List.length_nil]; omega⟩)

/-- R69: a state of the run of a program of this configuration. -/
structure ProgramRun (cfg : Config) (s : State) : Prop where
  legal    : s.Legal
  cfg      : s.cfg = { cfg with depthA := none, depthB := none }
  moves    : s.moves = []
  producer : s.producer = Producer.idle
  wordsA   : s.chanA.length % 4 = 0
  wordsB   : s.chanB.length % 4 = 0

/-- R69: a loaded program begins its run. -/
theorem programRun_start {cfg : Config} (hl : cfg.legal = true) (ws : List Word) :
    ProgramRun cfg ((State.resetOf { cfg with depthA := none, depthB := none }).setChanA (bytesOfWords ws)) where
  legal := (resetOf_legal (cfg := { cfg with depthA := none, depthB := none }) hl).of_sameEngine
    ⟨rfl, rfl, rfl, rfl, rfl⟩ rfl
  cfg := rfl
  moves := rfl
  producer := rfl
  wordsA := by rw [State.setChanA_chanA, length_bytesOfWords, Nat.mul_mod_right]
  wordsB := rfl

/-- R50, R69: a turn goes on with the run, the ports moving whole Words. -/
theorem ProgramRun.turn {cfg : Config} {s t : State} (h : ProgramRun cfg s) (ht : mf3Turn s = .next t) :
    ProgramRun cfg t := by
  obtain ⟨hcfg, -, hprod, -, -, hm⟩ := mf3Turn_sameRest ht
  obtain ⟨taken, sent, hA, hB, htaken, hsent, -⟩ :=
    portsMoveWholeWords s t h.moves ((step_of_no_moves h.moves).trans ht)
  refine ⟨mf3Turn_legal h.legal ht, hcfg.trans h.cfg, hm.trans h.moves, hprod.trans h.producer, ?_, ?_⟩
  · have hlen := congrArg List.length hA
    have hwords := h.wordsA
    rw [List.length_append] at hlen
    obtain rfl | ⟨hfour, -⟩ := htaken
    · rw [List.length_nil] at hlen; omega
    · omega
  · have hwords := h.wordsB
    rw [hB, List.length_append]
    obtain rfl | ⟨hfour, -⟩ := hsent
    · rw [List.length_nil]; omega
    · omega

/-- R130: the turns that MF3 can make at most before it needs a Word. -/
def State.turnsToRecvw (s : State) : Nat :=
  match s.phase with
  | .emit => s.cfg.wpr - s.c + if s.j < s.cfg.jLast then s.cfg.wpr + 1 else 0
  | .load => if s.j = s.cfg.jLast then s.cfg.wpr + 1 else 0

/-- R139: an enabled turn takes a Word or comes nearer to the position that needs one. -/
theorem mf3Turn_decreases {s t : State} (hs : s.Legal) (hw : ¬ s.Waits) (h : mf3Turn s = .next t) :
    t.chanA.length < s.chanA.length ∨ t.chanA.length = s.chanA.length ∧ t.turnsToRecvw < s.turnsToRecvw := by
  have hl := hs.config
  have hc := hs.c
  have hjl := jLast_pos hl
  obtain ⟨w, he, rfl⟩ | ⟨he, rfl⟩ | ⟨he, rfl⟩ | ⟨hw', -⟩ := mf3Turn_next_cases h
  · have hlen : 4 ≤ s.chanA.length := ((recvwEnabled_iff w s).1 he).2.2.length_le
    rw [(recvwNext_frame w s).1, List.length_drop]
    omega
  · obtain ⟨hp, hj⟩ := (zerorowEnabled_iff s).1 he
    obtain ⟨hp', hj', hc', -⟩ := zerorowNext_position hl hj
    refine .inr ⟨congrArg List.length (zerorowNext_chans s).1, ?_⟩
    simp only [State.turnsToRecvw, hp, hp', hj, hj', hc', (zerorowNext_sameRest s).1, if_true, Nat.lt_irrefl, if_false]
    omega
  · have hp := ((emitwEnabled_iff s).1 he).1
    obtain ⟨-, hA, hrest, -⟩ := emitwNext_frame s
    refine .inr ⟨congrArg List.length hA, ?_⟩
    obtain hmore | hlast := hs.c_lt_or_eq
    · obtain ⟨hc', hj', hp', -⟩ := emitwNext_of_more hmore
      simp only [State.turnsToRecvw, hp, hp', hj', hc', hrest.1]
      omega
    · obtain ⟨hc', hp', hj', -⟩ := emitwNext_of_last hlast
      simp only [State.turnsToRecvw, hp, hp', hj', hrest.1]
      split
      · split <;> omega
      · rw [if_neg (by omega)]; omega
  · exact absurd hw' hw

/-- R69, R139: the run of a program comes to a state where MF3 waits. -/
theorem ProgramRun.ends {cfg : Config} {s : State} (h : ProgramRun cfg s) :
    ∃ n t, turns n s = .next t ∧ ProgramRun cfg t ∧ t.Waits := by
  by_cases hw : s.Waits
  · exact ⟨0, s, turns_zero h.moves, h, hw⟩
  · obtain ⟨t, ht⟩ := exists_step_eq_next h.legal.config
    rw [step_of_no_moves h.moves] at ht
    have hless : Prod.Lex (· < ·) (· < ·) (t.chanA.length, t.turnsToRecvw) (s.chanA.length, s.turnsToRecvw) :=
      Prod.lex_def.2 (mf3Turn_decreases h.legal hw ht)
    obtain ⟨n, u, hrun, hu⟩ := (h.turn ht).ends
    exact ⟨n + 1, u, (turns_succ h.moves ht n).trans hrun, hu⟩
termination_by (s.chanA.length, s.turnsToRecvw)
decreasing_by exact hless

/-- R69, R139: where a program's run waits is its end, before a RECVW and with no byte left over. -/
theorem ProgramRun.ended {cfg : Config} {s : State} (h : ProgramRun cfg s) (hw : s.Waits) :
    s.ProgramEnded ∧ s.phase = .load ∧ s.j < s.cfg.jLast := by
  obtain ⟨hp, hj, hA⟩ | ⟨-, hroom⟩ := (waits_iff_of_legal h.legal).1 hw
  · have hempty : s.chanA = [] := List.length_eq_zero_iff.1 (by have := h.wordsA; omega)
    have hdone : s.producer.pending s.cfg = [] := by rw [h.producer]; rfl
    exact ⟨⟨hempty, .inl hdone, rfl, (waits_iff _).2 (.inl ⟨hp, hj, hA⟩)⟩, hp, hj⟩
  · exact absurd (.inl (by rw [h.cfg])) hroom

/-- Settles O52: with an empty channel B there is room, so MF3 waits for a Word; a program's run comes to such a wait
because every turn takes a Word or comes nearer to the next RECVW. -/
theorem finiteRunEndsWaitingForARow : Obligations.FiniteRunEndsWaitingForARow := by
  refine ⟨fun s hs hlit hend hcons => ?_, fun cfg ws hl => ?_⟩
  · obtain ⟨hp, hj, -⟩ | ⟨-, hroom⟩ := (waits_iff_of_legal hs).1 hend.waits
    · exact ⟨hp, jLast_literal hlit ▸ hj⟩
    · exact absurd (hasRoomForWord_of_empty hend.emptyB hcons) hroom
  · obtain ⟨n, t, hrun, ht, hw⟩ := (programRun_start hl ws).ends
    obtain ⟨hend, hp, hj⟩ := ht.ended hw
    refine ⟨_, n, t, (loadProgram_eq_next cfg ws _).2 ⟨hl, rfl⟩, hrun, hend, ?_, fun hlit => ⟨hp, ?_⟩⟩
    · exact (bytesOfWords_wordsOfBytes ht.wordsB).symm
    · rw [ht.cfg] at hj
      exact jLast_literal (cfg := { cfg with depthA := none, depthB := none }) hlit ▸ hj

end Sys2Proof.Machine
end
